-- ==== Sys2Proof/Word.lean ====
section
/-! DEFINITION. The words HUFFC is made of: 32-bit registers (10_state.md R21), 8-bit memory bytes
(20_memory.md R70) and bit strings, leftmost bit first (00_scope.md R9). -/

namespace Sys2Proof

/-- A register value or a 32-bit byte address (10_state.md R21, 20_memory.md R70). -/
abbrev Word := BitVec 32

/-- One byte of memory (20_memory.md R70). -/
abbrev Byte := BitVec 8

/-- A bit string: a sequence over 0 and 1, element 0 leftmost (00_scope.md R9). -/
abbrev BitString := List Bool

end Sys2Proof
end

