-- ==== Sys2Proof/Machine/Types.lean ====
section
/-! DEFINITION. The kinds of data the machine holds, as plain data: phase, latched operands, error codes,
the hidden stage stores and the instance's open parameters. -/

namespace Sys2Proof.Machine

/-- The sequencer phase (10_state.md R40). -/
inductive Phase where
  | idle
  | busy
  deriving DecidableEq, Repr, Inhabited

/-- The two commands that occupy the core (10_state.md R41, `lat.op`). -/
inductive CmdOp where
  | compress
  | decompress
  deriving DecidableEq, Repr, Inhabited

/-- The latched operands `lat` (10_state.md R41). -/
structure Latched where
  op      : CmdOp
  dtype   : BitVec 2
  srcAddr : Word
  srcLen  : Word
  dstAddr : Word
  dstCap  : Word
  deriving DecidableEq, Repr, Inhabited

/-- The error codes of 60_exceptions.md R320. The values 0xB..0xF are never reported and have no constructor. -/
inductive ErrCode where
  | none
  | unsupportedInputType
  | emptyInput
  | malformedContainer
  | unsupportedDataType
  | corruptPayload
  | capacity
  | outputOverflow
  | busError
  | illegalCommand
  | bufferOverlap
  deriving DecidableEq, Repr, Inhabited

/-- The data type of symbols, by the tag values of 30_encoding.md R102: 0 text, 1 binary. -/
inductive DataType where
  | text
  | binary
  deriving DecidableEq, Repr, Inhabited

/-- A node of the tree as the pseudocode builds it, over unbounded numbers (41_tree_builder.md R150, 00_scope.md R7); children
are arena indices. -/
inductive Node where
  | leaf (sym freq : Nat)
  | internal (freq left right : Nat)
  deriving DecidableEq, Repr, Inhabited

/-- A node as the arena holds it, its frequency in 32 bits (10_state.md R44, 41_tree_builder.md R145). -/
inductive HeldNode where
  | leaf (sym : Nat) (freq : Word)
  | internal (freq : Word) (left right : Nat)
  deriving DecidableEq, Repr, Inhabited

/-- An entry of the codeword table: a symbol and its codeword (10_state.md R45, 45_container.md R255). -/
structure Entry where
  sym : Nat
  cw  : BitString
  deriving DecidableEq, Repr, Inhabited

/-- The points of a command's pseudocode at which the stage register may stand (10_state.md R42, 46_commands.md
R290 and R300). A command is one atomic step, so a running command is only ever seen at `entry`. -/
inductive Stage where
  | entry
  | ranges
  | readSource
  | symbolize
  | countFreq
  | buildTree
  | deriveCodewords
  | serialize
  | pack
  | parse
  | unpack
  | reassemble
  | writeOut
  deriving DecidableEq, Repr, Inhabited

/-- The hidden stage stores (10_state.md R42..R48), counts and node frequencies in 32 bits (41_tree_builder.md R145). No rule
reads them between commands, and every command starts from empty ones. -/
structure Stores where
  stage     : Stage
  freq      : List (Nat × Word)
  nodes     : List HeldNode
  active    : List Nat
  cw        : List Entry
  inv       : List (BitString × Nat)
  pacc      : BitString
  paccCount : Word
  uacc      : BitString
  uaccCount : Word
  pcur      : Word
  deriving DecidableEq, Repr, Inhabited

/-- The empty stores a command starts from (10_state.md, section 4). -/
def Stores.empty : Stores :=
  { stage := .entry, freq := [], nodes := [], active := [], cw := [], inv := [],
    pacc := [], paccCount := 0, uacc := [], uaccCount := 0, pcur := 0 }

/-- A stretch of the platform's ordinary memory: `size` bytes from `base` upward. -/
structure Region where
  base : Nat
  size : Nat
  deriving DecidableEq, Repr, Inhabited

/-- The open parameters of one instance (00_scope.md R6): P_REG_BASE / 256, P_MAX_DISTINCT and the regions of
ordinary memory that make up P_MEM_OK. Plain data, so that a state names its platform. -/
structure Platform where
  regPage     : BitVec 24
  maxDistinct : Nat
  regions     : List Region
  deriving DecidableEq, Repr, Inhabited

/-- What a successful command reports: the bytes it writes and the counts of its result registers
(60_exceptions.md R331); RESULT_LEN is the number of bytes. -/
structure Success where
  out         : List Byte
  symCount    : Nat
  distinct    : Nat
  tableLen    : Nat
  payloadBits : Nat
  deriving DecidableEq, Repr, Inhabited

/-- What the container parser hands to the unpacker (45_container.md R250). -/
structure Parsed where
  tag         : DataType
  entries     : List Entry
  inv         : List (BitString × Nat)
  tableLen    : Nat
  payloadBits : Nat
  payload     : List Byte
  deriving DecidableEq, Repr, Inhabited

/-- What a read on the bus returned (30_encoding.md R125): a register value or a memory byte. -/
inductive Reply where
  | reg (v : Word)
  | mem (b : Byte)
  deriving DecidableEq, Repr, Inhabited

end Sys2Proof.Machine
end

