-- ==== Sys2Proof/Config.lean ====
section
/-! DEFINITION. What is fixed for a HUFFC: its constants, the open parameters of the instance, and the free values
the spec leaves open. A free value is a constant without a body, so a claim that holds of the model holds whatever it is. -/

namespace Sys2Proof.Config

open Sys2Proof.Machine

/-- ID: the ASCII bytes "HUFC" (10_state.md R22). -/
def idWord : Word := 0x48554643#32

/-- VERSION: MAJOR 1, MINOR 0 (10_state.md R23). -/
def versionWord : Word := 0x00010000#32

/-- MAX_CW_LEN, the longest codeword, fixed by the 1-byte cw_len field (00_scope.md R6). -/
def maxCwLen : Nat := 255

/-- The largest value of a 4-byte field (00_scope.md R6, 30_encoding.md R111). -/
def maxField : Nat := 2 ^ 32 - 1

/-- P_REG_BASE / 256 of the instance (00_scope.md R6, OPEN; log 4). -/
opaque regPage : BitVec 24

/-- Chooses P_MAX_DISTINCT of the instance (00_scope.md R6, OPEN; log 4). -/
opaque distinctChoice : Nat

/-- The platform's ordinary memory (00_scope.md R6, P_MEM_OK, OPEN; log 4). -/
opaque regions : List Region

/-- P_MAX_DISTINCT: any number from 256 to 2^20 (00_scope.md R6). -/
def maxDistinct : Nat := 256 + distinctChoice % (2 ^ 20 - 255)

/-- The parameters of the instance that `State.reset` describes (log 4). -/
def platform : Platform := { regPage := regPage, maxDistinct := maxDistinct, regions := regions }

/-- What a byte of memory that nothing has written holds, by address: any value, the same at every read
(20_memory.md R71, 70_reset_and_hazards.md R361; log 5). -/
opaque powerOnByte : Nat → Byte

/-- The free byte of draw `n` at an address (93_implementation_defined.md V1, V2, V3; log 6). -/
opaque freeByte : Nat → Nat → Byte

/-- The latched operands between commands and after reset: any value (93_implementation_defined.md V5; log 9). -/
opaque freeLatched : Nat → Latched

/-- The hidden stores between commands and after reset: any value (93_implementation_defined.md V5; log 9). -/
opaque freeStores : Nat → Stores

/-- P_LATENCY: how many further steps pass before the command of draw `n` finishes (70_reset_and_hazards.md R375,
93_implementation_defined.md V6; log 2). -/
opaque latency : Nat → Nat

end Sys2Proof.Config
end

