-- ==== Sys2Proof/Machine/Bits.lean ====
section
/-! DEFINITION. Numbers, bytes and bit strings: ceil8, BE32 (00_scope.md R7, R8), bits8 and the prefix order (00_scope.md
R9), pack_bits and unpack_bits (30_encoding.md R112). -/

namespace Sys2Proof.Machine

/-- `ceil8(n) = (n + 7) div 8` (00_scope.md R7). -/
def ceil8 (n : Nat) : Nat := (n + 7) / 8

/-- `BE32(n)`: the four bytes of n, most significant first (00_scope.md R8). -/
def be32 (n : Nat) : List Byte :=
  [BitVec.ofNat 8 (n / 2 ^ 24), BitVec.ofNat 8 (n / 2 ^ 16), BitVec.ofNat 8 (n / 2 ^ 8), BitVec.ofNat 8 n]

/-- `BE32^-1` on a sequence of bytes: the number it writes in base 256, most significant byte first (00_scope.md R8). -/
def be32Inv (bs : List Byte) : Nat := bs.foldl (fun acc b => acc * 256 + b.toNat) 0

/-- `bits8(b)`: the bits of a byte, most significant first (00_scope.md R9). -/
def bits8 (b : Byte) : BitString :=
  [b.getLsbD 7, b.getLsbD 6, b.getLsbD 5, b.getLsbD 4, b.getLsbD 3, b.getLsbD 2, b.getLsbD 1, b.getLsbD 0]

/-- The value `2^(7-k)` of bit k of a byte, or 0 where the string has no 1 there (30_encoding.md R112). -/
def bitWeight (s : BitString) (k : Nat) : Nat := if s.getD k false then 2 ^ (7 - k) else 0

/-- The byte made of the first eight bits of a string, missing bits being 0 (30_encoding.md R112). -/
def packByte (s : BitString) : Byte :=
  BitVec.ofNat 8 (bitWeight s 0 + bitWeight s 1 + bitWeight s 2 + bitWeight s 3 + bitWeight s 4 + bitWeight s 5 +
    bitWeight s 6 + bitWeight s 7)

/-- The first `n` bytes of a bit string, eight bits to a byte. -/
def packBytes : Nat → BitString → List Byte
  | 0, _ => []
  | n + 1, s => packByte s :: packBytes n (s.drop 8)

/-- `pack_bits(s)`: ceil8(|s|) bytes, most significant bit first, zero-padded on the right (30_encoding.md R112). -/
def packBits (s : BitString) : List Byte := packBytes (ceil8 s.length) s

/-- `unpack_bits(bytes)` (30_encoding.md R112). -/
def unpackBits (bs : List Byte) : BitString := bs.flatMap bits8

/-- `s[lo..hi)` of a sequence (00_scope.md R9). -/
def slice {α : Type} (s : List α) (lo hi : Nat) : List α := (s.drop lo).take (hi - lo)

end Sys2Proof.Machine
end

