-- ==== Sys2Proof/Machine/Utf8.lean ====
section
/-! DEFINITION. Text symbols: Unicode scalar values and UTF-8 (30_encoding.md R119..R121). -/

namespace Sys2Proof.Machine

/-- A Unicode scalar value (30_encoding.md R119). -/
def isScalar (cp : Nat) : Bool := decide (cp ≤ 0x10FFFF) && !(decide (0xD800 ≤ cp) && decide (cp ≤ 0xDFFF))

/-- A byte lies in a range of the table of 30_encoding.md R120. -/
def inRange (b : Byte) (lo hi : Nat) : Bool := decide (lo ≤ b.toNat) && decide (b.toNat ≤ hi)

/-- The second and third columns of the three-byte rows of 30_encoding.md R120. -/
def threeByteRow (b1 b2 b3 : Byte) : Bool :=
  ((inRange b1 0xE0 0xE0 && inRange b2 0xA0 0xBF) ||
   (inRange b1 0xE1 0xEC && inRange b2 0x80 0xBF) ||
   (inRange b1 0xED 0xED && inRange b2 0x80 0x9F) ||
   (inRange b1 0xEE 0xEF && inRange b2 0x80 0xBF)) && inRange b3 0x80 0xBF

/-- The following columns of the four-byte rows of 30_encoding.md R120. -/
def fourByteRow (b1 b2 b3 b4 : Byte) : Bool :=
  ((inRange b1 0xF0 0xF0 && inRange b2 0x90 0xBF) ||
   (inRange b1 0xF1 0xF3 && inRange b2 0x80 0xBF) ||
   (inRange b1 0xF4 0xF4 && inRange b2 0x80 0x8F)) && inRange b3 0x80 0xBF && inRange b4 0x80 0xBF

/-- The code point of a two-byte row (30_encoding.md R120). -/
def codePoint2 (b1 b2 : Byte) : Nat := ((b1.toNat &&& 0x1F) <<< 6) ||| (b2.toNat &&& 0x3F)

/-- The code point of a three-byte row (30_encoding.md R120). -/
def codePoint3 (b1 b2 b3 : Byte) : Nat :=
  ((b1.toNat &&& 0x0F) <<< 12) ||| ((b2.toNat &&& 0x3F) <<< 6) ||| (b3.toNat &&& 0x3F)

/-- The code point of a four-byte row (30_encoding.md R120). -/
def codePoint4 (b1 b2 b3 b4 : Byte) : Nat :=
  ((b1.toNat &&& 0x07) <<< 18) ||| ((b2.toNat &&& 0x3F) <<< 12) ||| ((b3.toNat &&& 0x3F) <<< 6) |||
    (b4.toNat &&& 0x3F)

/-- `utf8_dec`: the code points of well-formed UTF-8, `none` otherwise (30_encoding.md R120). The first byte chooses the
row; a byte outside its row, or the end inside a sequence, fails. -/
def utf8Dec : List Byte → Option (List Nat)
  | [] => some []
  | b1 :: t1 =>
    if inRange b1 0x00 0x7F then (utf8Dec t1).map (b1.toNat :: ·)
    else match t1 with
    | [] => none
    | b2 :: t2 =>
      if inRange b1 0xC2 0xDF && inRange b2 0x80 0xBF then (utf8Dec t2).map (codePoint2 b1 b2 :: ·)
      else match t2 with
      | [] => none
      | b3 :: t3 =>
        if threeByteRow b1 b2 b3 then (utf8Dec t3).map (codePoint3 b1 b2 b3 :: ·)
        else match t3 with
        | [] => none
        | b4 :: t4 =>
          if fourByteRow b1 b2 b3 b4 then (utf8Dec t4).map (codePoint4 b1 b2 b3 b4 :: ·)
          else none

/-- `utf8_enc(cp)` of a scalar value (30_encoding.md R121). -/
def utf8Enc (cp : Nat) : List Byte :=
  if cp ≤ 0x7F then [BitVec.ofNat 8 cp]
  else if cp ≤ 0x7FF then [BitVec.ofNat 8 (0xC0 ||| (cp >>> 6)), BitVec.ofNat 8 (0x80 ||| (cp &&& 0x3F))]
  else if cp ≤ 0xFFFF then
    [BitVec.ofNat 8 (0xE0 ||| (cp >>> 12)), BitVec.ofNat 8 (0x80 ||| ((cp >>> 6) &&& 0x3F)),
      BitVec.ofNat 8 (0x80 ||| (cp &&& 0x3F))]
  else
    [BitVec.ofNat 8 (0xF0 ||| (cp >>> 18)), BitVec.ofNat 8 (0x80 ||| ((cp >>> 12) &&& 0x3F)),
      BitVec.ofNat 8 (0x80 ||| ((cp >>> 6) &&& 0x3F)), BitVec.ofNat 8 (0x80 ||| (cp &&& 0x3F))]

/-- `utf8_enc_seq`: the encoding of a sequence of scalar values (30_encoding.md R121). -/
def utf8EncSeq (cps : List Nat) : List Byte := cps.flatMap utf8Enc

end Sys2Proof.Machine
end

