-- ==== Sys2Proof/Machine/Tree.lean ====
section
/-! DEFINITION. The first stages of COMPRESS: symbols, frequencies and the tree (41_tree_builder.md). -/

namespace Sys2Proof.Machine

/-- The data type a 2-bit DTYPE names; 2 and 3 name none (30_encoding.md R102, 10_state.md R26). -/
def dtypeOf (d : BitVec 2) : Option DataType :=
  if d = 0 then some .text else if d = 1 then some .binary else none

/-- The container tag of a data type (30_encoding.md R102). -/
def tagByte : DataType → Byte
  | .text => 0
  | .binary => 1

/-- `Symbolize(dtype, src)` (41_tree_builder.md R141). -/
def symbolize (d : DataType) (src : List Byte) : Except ErrCode (List Nat) :=
  match d with
  | .binary => .ok (src.map BitVec.toNat)
  | .text =>
    match utf8Dec src with
    | none => .error .unsupportedInputType
    | some cps => .ok cps

/-- `FREQ[s] <- FREQ[s] + 1`, or 1 where s is new, in a table kept in ascending symbol order (41_tree_builder.md R144,
30_encoding.md R122). -/
def bump (s : Nat) : List (Nat × Nat) → List (Nat × Nat)
  | [] => [(s, 1)]
  | (t, n) :: rest =>
    if s < t then (s, 1) :: (t, n) :: rest
    else if s = t then (t, n + 1) :: rest
    else (t, n) :: bump s rest

/-- The frequency table of a symbol sequence, ascending by symbol (41_tree_builder.md R144). -/
def freqTable (syms : List Nat) : List (Nat × Nat) := syms.foldl (fun table s => bump s table) []

/-- `CountFreq(syms)` with P_MAX_DISTINCT (41_tree_builder.md R144). -/
def countFreq (maxDistinct : Nat) (syms : List Nat) : Except ErrCode (List (Nat × Nat)) :=
  if maxDistinct < (freqTable syms).length then .error .capacity else .ok (freqTable syms)

/-- The frequency a node holds (10_state.md R44). -/
def Node.freq : Node → Nat
  | .leaf _ f => f
  | .internal f _ _ => f

/-- The frequency of `NODE[k]`; 0 where there is no such node, which no rule asks for (log 23). -/
def freqAt (nodes : List Node) (k : Nat) : Nat :=
  match nodes[k]? with
  | some n => n.freq
  | none => 0

/-- Node j comes before node k: the key (freq, arena index) is lexicographically less (41_tree_builder.md R150, R151). -/
def comesBefore (nodes : List Node) (j k : Nat) : Bool :=
  decide (freqAt nodes j < freqAt nodes k) || (decide (freqAt nodes j = freqAt nodes k) && decide (j < k))

/-- The index with the least key among `best` and the rest (41_tree_builder.md R150). -/
def leastOf (nodes : List Node) (best : Nat) : List Nat → Nat
  | [] => best
  | j :: js => leastOf nodes (if comesBefore nodes j best then j else best) js

/-- The least index of ACTIVE, and ACTIVE without it (41_tree_builder.md R150). -/
def takeLeast (nodes : List Node) : List Nat → Option (Nat × List Nat)
  | [] => none
  | k :: ks => some (leastOf nodes k ks, (k :: ks).erase (leastOf nodes k ks))

/-- NODE and ACTIVE (10_state.md R44). -/
structure Arena where
  nodes  : List Node
  active : List Nat
  deriving DecidableEq, Repr

/-- The leaves in ascending symbol order, all active (41_tree_builder.md R150). -/
def leafArena (table : List (Nat × Nat)) : Arena :=
  { nodes := table.map fun e => .leaf e.1 e.2, active := List.range table.length }

/-- One pass of the loop of 41_tree_builder.md R150: the node taken first becomes the left child (R152); nothing happens
once one node is left. -/
def mergeOnce (t : Arena) : Arena :=
  match takeLeast t.nodes t.active with
  | none => t
  | some (a, rest) =>
    match takeLeast t.nodes rest with
    | none => t
    | some (b, rest') =>
      { nodes := t.nodes ++ [.internal (freqAt t.nodes a + freqAt t.nodes b) a b], active := rest' ++ [t.nodes.length] }

/-- `n` passes of the loop. -/
def mergeTimes : Nat → Arena → Arena
  | 0, t => t
  | n + 1, t => mergeTimes n (mergeOnce t)

/-- `BuildTree(F)`: the loop runs until one node is active, N - 1 times (41_tree_builder.md R150, R153). -/
def buildTree (table : List (Nat × Nat)) : Arena := mergeTimes (table.length - 1) (leafArena table)

/-- The only element of ACTIVE when the loop has ended (41_tree_builder.md R150). -/
def Arena.root (t : Arena) : Nat := t.active.headD 0

/-! ## Counts and frequencies held in 32 bits (41_tree_builder.md R145; 10_state.md R43, R44) -/

/-- `bump` on the frequency store, whose counts are 32 bits wide. -/
def bumpHeld (s : Nat) : List (Nat × Word) → List (Nat × Word)
  | [] => [(s, 1)]
  | (t, n) :: rest =>
    if s < t then (s, 1) :: (t, n) :: rest
    else if s = t then (t, n + 1) :: rest
    else (t, n) :: bumpHeld s rest

/-- FREQ of a symbol sequence (10_state.md R43). -/
def freqStore (syms : List Nat) : List (Nat × Word) := syms.foldl (fun store s => bumpHeld s store) []

/-- The table the frequency store stands for. -/
def storedTable (store : List (Nat × Word)) : List (Nat × Nat) := store.map fun e => (e.1, e.2.toNat)

/-- The node a held node stands for. -/
def HeldNode.value : HeldNode → Node
  | .leaf s f => .leaf s f.toNat
  | .internal f l r => .internal f.toNat l r

/-- The frequency a held node holds. -/
def HeldNode.freq : HeldNode → Word
  | .leaf _ f => f
  | .internal f _ _ => f

/-- The frequency of `NODE[k]` in 32 bits; 0 where there is no such node, which no rule asks for (log 23). -/
def heldFreqAt (nodes : List HeldNode) (k : Nat) : Word :=
  match nodes[k]? with
  | some n => n.freq
  | none => 0

/-- NODE and ACTIVE as the core holds them (10_state.md R44). -/
structure HeldArena where
  nodes  : List HeldNode
  active : List Nat
  deriving DecidableEq, Repr

/-- The leaves of the frequency store, all active. -/
def heldLeafArena (store : List (Nat × Word)) : HeldArena :=
  { nodes := store.map fun e => .leaf e.1 e.2, active := List.range store.length }

/-- One pass of the loop of 41_tree_builder.md R150 with the new frequency added in 32 bits (R145). -/
def mergeHeld (t : HeldArena) : HeldArena :=
  match takeLeast (t.nodes.map HeldNode.value) t.active with
  | none => t
  | some (a, rest) =>
    match takeLeast (t.nodes.map HeldNode.value) rest with
    | none => t
    | some (b, rest') =>
      { nodes := t.nodes ++ [.internal (heldFreqAt t.nodes a + heldFreqAt t.nodes b) a b],
        active := rest' ++ [t.nodes.length] }

/-- `n` passes of the loop in 32 bits. -/
def mergeHeldTimes : Nat → HeldArena → HeldArena
  | 0, t => t
  | n + 1, t => mergeHeldTimes n (mergeHeld t)

/-- The arena built from the frequency store with every frequency in 32 bits (41_tree_builder.md R145, R150). -/
def buildHeld (store : List (Nat × Word)) : HeldArena := mergeHeldTimes (store.length - 1) (heldLeafArena store)

/-! ## The two-queue form -/

/-- Insert a leaf index by its key (freq, index). -/
def insertByKey (nodes : List Node) (k : Nat) : List Nat → List Nat
  | [] => [k]
  | j :: js => if comesBefore nodes k j then k :: j :: js else j :: insertByKey nodes k js

/-- The two queues of 41_tree_builder.md R155: leaves in ascending (freq, index) order, internal nodes in creation order. -/
structure TwoQueues where
  nodes  : List Node
  leaves : List Nat
  inner  : List Nat
  deriving DecidableEq, Repr

/-- The queues before the first merge. -/
def startQueues (table : List (Nat × Nat)) : TwoQueues :=
  { nodes := (leafArena table).nodes,
    leaves := (List.range table.length).foldr (insertByKey (leafArena table).nodes) [],
    inner := [] }

/-- Take the head with the smaller frequency, the leaf's when they are equal (41_tree_builder.md R155). -/
def takeHead (q : TwoQueues) : Option (Nat × TwoQueues) :=
  match q.leaves, q.inner with
  | [], [] => none
  | l :: ls, [] => some (l, { q with leaves := ls })
  | [], i :: is => some (i, { q with inner := is })
  | l :: ls, i :: is =>
    if freqAt q.nodes i < freqAt q.nodes l then some (i, { q with inner := is }) else some (l, { q with leaves := ls })

/-- One merge on the two queues (41_tree_builder.md R155). -/
def mergeHeads (q : TwoQueues) : TwoQueues :=
  match takeHead q with
  | none => q
  | some (a, q1) =>
    match takeHead q1 with
    | none => q
    | some (b, q2) =>
      { q2 with
        nodes := q.nodes ++ [.internal (freqAt q.nodes a + freqAt q.nodes b) a b]
        inner := q2.inner ++ [q.nodes.length] }

/-- `n` merges on the two queues. -/
def mergeHeadsTimes : Nat → TwoQueues → TwoQueues
  | 0, q => q
  | n + 1, q => mergeHeadsTimes n (mergeHeads q)

/-- The arena the two-queue form builds (41_tree_builder.md R155, informative). -/
def buildTreeTwoQueue (table : List (Nat × Nat)) : List Node :=
  (mergeHeadsTimes (table.length - 1) (startQueues table)).nodes

end Sys2Proof.Machine
end

