-- ==== Sys2Proof/Machine/Codewords.lean ====
section
/-! DEFINITION. The codeword-table generator (42_codeword_table.md). -/

namespace Sys2Proof.Machine

/-- `Walk(k, path)`: left appends 0, right appends 1, only leaves get a codeword (42_codeword_table.md R180, R182).
Children have smaller indices than their parent (41_tree_builder.md R154), so as many levels as there are nodes are enough. -/
def walk (nodes : List Node) : Nat → Nat → BitString → List Entry
  | 0, _, _ => []
  | levels + 1, k, path =>
    match nodes[k]? with
    | none => []
    | some (.leaf s _) => [{ sym := s, cw := path }]
    | some (.internal _ l r) => walk nodes levels l (path ++ [false]) ++ walk nodes levels r (path ++ [true])

/-- The codewords of a tree; the sole symbol of a one-leaf tree gets [0] (42_codeword_table.md R180, R181). -/
def treeCodewords (nodes : List Node) (root : Nat) : List Entry :=
  match nodes[root]? with
  | some (.leaf s _) => [{ sym := s, cw := [false] }]
  | some (.internal _ _ _) => walk nodes nodes.length root []
  | none => []

/-- `DeriveCodewords(NODE, root)` (42_codeword_table.md R180). -/
def deriveCodewords (nodes : List Node) (root : Nat) : Except ErrCode (List Entry) :=
  if (treeCodewords nodes root).any (fun e => decide (Config.maxCwLen < e.cw.length)) then .error .capacity
  else .ok (treeCodewords nodes root)

/-- The symbol of the leaf a path leads to from node k, 0 going to the left child and 1 to the right one; `none` where the
path leaves the tree or ends inside it (42_codeword_table.md R182, R183). -/
def leafAt (nodes : List Node) (k : Nat) : BitString → Option Nat
  | [] =>
    match nodes[k]? with
    | some (.leaf s _) => some s
    | some (.internal _ _ _) => none
    | none => none
  | b :: path =>
    match nodes[k]? with
    | some (.internal _ l r) => leafAt nodes (if b then r else l) path
    | some (.leaf _ _) => none
    | none => none

/-- CW of a frequency table: empty for the empty input, which builds no tree (46_commands.md R290, R293;
41_tree_builder.md R157). -/
def codewordTable (table : List (Nat × Nat)) : Except ErrCode (List Entry) :=
  match table with
  | [] => .ok []
  | _ :: _ => deriveCodewords (buildTree table).nodes (buildTree table).root

/-- `CW[s]`; the empty string where s has no codeword, which no rule asks for (log 23). -/
def codewordOf (cw : List Entry) (s : Nat) : BitString :=
  match cw.find? (fun e => e.sym == s) with
  | some e => e.cw
  | none => []

end Sys2Proof.Machine
end

