-- ==== Sys2Proof/Machine/Packer.lean ====
section
/-! DEFINITION. The bit-stream packer (43_bit_packer.md). -/

namespace Sys2Proof.Machine

/-- The codewords of the symbols, one after another (43_bit_packer.md R200). -/
def codeBits (syms : List Nat) (cw : List Entry) : BitString := syms.flatMap (codewordOf cw)

/-- `Pack(syms, CW)`: B and the payload (43_bit_packer.md R200, R203). -/
def pack (syms : List Nat) (cw : List Entry) : Except ErrCode (Nat × List Byte) :=
  if Config.maxField < (codeBits syms cw).length then .error .capacity
  else .ok ((codeBits syms cw).length, packBits (codeBits syms cw))

/-- B computed before packing: the sum of freq * |CW[sym]| over the frequency table (43_bit_packer.md R201). -/
def bitCount (table : List (Nat × Nat)) (cw : List Entry) : Nat :=
  (table.map fun e => e.2 * (codewordOf cw e.1).length).sum

/-- The packer's accumulator with the bytes that have left it and the 32-bit count of bits emitted (43_bit_packer.md R205,
10_state.md R46). -/
structure PackState where
  out   : List Byte
  pacc  : BitString
  count : Word
  deriving DecidableEq, Repr

/-- While PACC holds 8 or more bits, its first 8 leave as a byte; at most `n` bytes (43_bit_packer.md R205, step 3). -/
def emitBytes : Nat → PackState → PackState
  | 0, p => p
  | n + 1, p =>
    if 8 ≤ p.pacc.length then
      emitBytes n { out := p.out ++ [packByte (p.pacc.take 8)], pacc := p.pacc.drop 8, count := p.count + 8 }
    else p

/-- One symbol through the packer (43_bit_packer.md R205, steps 1 to 3). -/
def packSymbol (cw : List Entry) (p : PackState) (s : Nat) : PackState :=
  emitBytes ((p.pacc ++ codewordOf cw s).length / 8) { p with pacc := p.pacc ++ codewordOf cw s }

/-- The remaining 1..7 bits leave as one byte padded with zeros (43_bit_packer.md R205, step 4). -/
def flushPacker (p : PackState) : List Byte :=
  match p.pacc with
  | [] => p.out
  | _ :: _ => p.out ++ [packByte p.pacc]

/-- The packer's datapath run over a symbol sequence (43_bit_packer.md R205, informative). -/
def packStream (syms : List Nat) (cw : List Entry) : PackState :=
  syms.foldl (packSymbol cw) { out := [], pacc := [], count := 0 }

end Sys2Proof.Machine
end

