-- ==== Sys2Proof/Machine/Unpacker.lean ====
section
/-! DEFINITION. The bit-stream unpacker (44_bit_unpacker.md). -/

namespace Sys2Proof.Machine

/-- `INV[cw]` (45_container.md R262). -/
def symbolOf (inv : List (BitString × Nat)) (cw : BitString) : Option Nat :=
  (inv.find? fun e => e.1 == cw).map Prod.snd

/-- The greedy walk with the accumulator UACC; `none` when the bits run out with UACC not empty
(44_bit_unpacker.md R220, R222). -/
def matchBits (inv : List (BitString × Nat)) : BitString → BitString → Option (List Nat)
  | [], uacc => if uacc = [] then some [] else none
  | b :: bits, uacc =>
    match symbolOf inv (uacc ++ [b]) with
    | some s => (matchBits inv bits []).map (s :: ·)
    | none => matchBits inv bits (uacc ++ [b])

/-- `Unpack(payload, B, INV)`; the padding is discarded first (44_bit_unpacker.md R220, 30_encoding.md R113). -/
def unpack (payload : List Byte) (b : Nat) (inv : List (BitString × Nat)) : Except ErrCode (List Nat) :=
  match matchBits inv ((unpackBits payload).take b) [] with
  | some out => .ok out
  | none => .error .corruptPayload

/-- The walk that stops as soon as UACC is no prefix of any codeword (44_bit_unpacker.md R223, permitted). -/
def matchBitsEarly (inv : List (BitString × Nat)) : BitString → BitString → Option (List Nat)
  | [], uacc => if uacc = [] then some [] else none
  | b :: bits, uacc =>
    match symbolOf inv (uacc ++ [b]) with
    | some s => (matchBitsEarly inv bits []).map (s :: ·)
    | none =>
      if inv.any (fun e => (uacc ++ [b]).isPrefixOf e.1) then matchBitsEarly inv bits (uacc ++ [b]) else none

/-! ## The reference datapath (44_bit_unpacker.md R224, informative) -/

/-- UACC with the 32-bit count of bits consumed and the symbols emitted (10_state.md R47). That `uacc` is not held to R47's
MAX_CW_LEN bits is the model's choice (DESIGN CHOICE, log 25). -/
structure UnpackState where
  out   : List Nat
  uacc  : BitString
  count : Word
  deriving DecidableEq, Repr

/-- One bit: it joins UACC, is counted, and a match emits the symbol and empties UACC. Without a match UACC grows, as in
44_bit_unpacker.md R220, also beyond the MAX_CW_LEN bits of 10_state.md R47 (DESIGN CHOICE, log 25). -/
def takeBit (inv : List (BitString × Nat)) (u : UnpackState) (b : Bool) : UnpackState :=
  match symbolOf inv (u.uacc ++ [b]) with
  | some s => { out := u.out ++ [s], uacc := [], count := u.count + 1 }
  | none => { u with uacc := u.uacc ++ [b], count := u.count + 1 }

/-- One bit, unless `n` bits have been consumed already. -/
def takeBitUpTo (inv : List (BitString × Nat)) (n : Nat) (u : UnpackState) (b : Bool) : UnpackState :=
  if u.count.toNat < n then takeBit inv u b else u

/-- The bits of one payload byte, most significant first, up to `n` bits in all. -/
def takeByte (inv : List (BitString × Nat)) (n : Nat) (u : UnpackState) (byte : Byte) : UnpackState :=
  (bits8 byte).foldl (takeBitUpTo inv n) u

/-- The payload bytes in ascending order through the unpacker, which stops after B bits. -/
def unpackStream (payload : List Byte) (b : Nat) (inv : List (BitString × Nat)) : UnpackState :=
  payload.foldl (takeByte inv b) { out := [], uacc := [], count := 0 }

/-- The symbols the datapath hands on, if UACC is empty. -/
def UnpackState.symbols (u : UnpackState) : Option (List Nat) := if u.uacc = [] then some u.out else none

/-- What the datapath comes to: the symbols, or CORRUPT_PAYLOAD when UACC is not empty at the end. -/
def unpackDatapath (payload : List Byte) (b : Nat) (inv : List (BitString × Nat)) : Except ErrCode (List Nat) :=
  match (unpackStream payload b inv).symbols with
  | some out => .ok out
  | none => .error .corruptPayload

/-- A decode tree: the other match test of 44_bit_unpacker.md R224. -/
inductive DecodeTree where
  | nothing
  | symbol (s : Nat)
  | branch (zero one : DecodeTree)
  deriving DecidableEq, Repr

/-- The subtree behind one bit. -/
def DecodeTree.child (b : Bool) : DecodeTree → DecodeTree
  | .branch zero one => if b then one else zero
  | .nothing => .nothing
  | .symbol _ => .nothing

/-- The tree with a codeword's symbol at the end of its path. -/
def DecodeTree.insert (s : Nat) : BitString → DecodeTree → DecodeTree
  | [], _ => .symbol s
  | false :: cw, t => .branch (DecodeTree.insert s cw (t.child false)) (t.child true)
  | true :: cw, t => .branch (t.child false) (DecodeTree.insert s cw (t.child true))

/-- The decode tree rebuilt from INV. -/
def decodeTree (inv : List (BitString × Nat)) : DecodeTree := inv.foldr (fun e t => t.insert e.2 e.1) .nothing

/-- The walk over a decode tree; `pos` is where UACC has led to, `none` being the root with UACC empty. -/
def matchTree (root : DecodeTree) : BitString → Option DecodeTree → Option (List Nat)
  | [], none => some []
  | [], some _ => none
  | b :: bits, pos =>
    match (pos.getD root).child b with
    | .symbol s => (matchTree root bits none).map (s :: ·)
    | .nothing => matchTree root bits (some .nothing)
    | .branch zero one => matchTree root bits (some (.branch zero one))

end Sys2Proof.Machine
end

