-- ==== Sys2Proof/Machine/Container.lean ====
section
/-! DEFINITION. The container serializer and parser (45_container.md, 30_encoding.md R110..R118). -/

namespace Sys2Proof.Machine

/-- Insert an entry by its symbol. -/
def insertBySym (e : Entry) : List Entry → List Entry
  | [] => [e]
  | f :: fs => if e.sym ≤ f.sym then e :: f :: fs else f :: insertBySym e fs

/-- The entries in ascending order of symbol (30_encoding.md R115, R122). -/
def sortBySym (entries : List Entry) : List Entry := entries.foldr insertBySym []

/-- The symbol field's bytes (30_encoding.md R116). -/
def symBytes (d : DataType) (s : Nat) : List Byte :=
  match d with
  | .binary => [BitVec.ofNat 8 s]
  | .text => utf8Enc s

/-- One entry of the table: sym_len, sym, cw_len, cw (30_encoding.md R114). -/
def entryBytes (d : DataType) (e : Entry) : List Byte :=
  [BitVec.ofNat 8 (symBytes d e.sym).length] ++ symBytes d e.sym ++ [BitVec.ofNat 8 e.cw.length] ++ packBits e.cw

/-- `SerializeTable(dtype, CW)` (45_container.md R241). -/
def serializeTable (d : DataType) (cw : List Entry) : List Byte := (sortBySym cw).flatMap (entryBytes d)

/-- `SerializeContainer(dtype, table, B, payload)` (45_container.md R240). -/
def serializeContainer (d : DataType) (table : List Byte) (b : Nat) (payload : List Byte) : List Byte :=
  [tagByte d] ++ be32 table.length ++ table ++ be32 b ++ payload

/-- The data type a container's tag names (45_container.md R251). -/
def tagOf (t : Byte) : Option DataType :=
  if t = 0 then some .text else if t = 1 then some .binary else none

/-- sym_len of the tag's type: 1 for binary, 1..4 for text (45_container.md R255). -/
def symLenOk (tag : DataType) (sl : Nat) : Bool :=
  match tag with
  | .binary => sl == 1
  | .text => decide (1 ≤ sl) && decide (sl ≤ 4)

/-- The symbol of a symbol field: a text field is exactly one well-formed code point (45_container.md R255, R256). -/
def readSym (tag : DataType) (sb : List Byte) : Option Nat :=
  match tag with
  | .binary =>
    match sb with
    | [b] => some b.toNat
    | _ => none
  | .text =>
    match utf8Dec sb with
    | some [cp] => some cp
    | _ => none

/-- One pass of the loop of 45_container.md R255 on the table bytes from the cursor on: the entry, and the bytes after it. -/
def parseEntry (tag : DataType) : List Byte → Option (Entry × List Byte)
  | [] => none
  | sl :: t =>
    if symLenOk tag sl.toNat = false then none
    else if t.length < sl.toNat then none
    else match readSym tag (t.take sl.toNat) with
    | none => none
    | some sym =>
      match t.drop sl.toNat with
      | [] => none
      | cl :: u =>
        if cl.toNat = 0 then none
        else if u.length < ceil8 cl.toNat then none
        else some ({ sym := sym, cw := (unpackBits (u.take (ceil8 cl.toNat))).take cl.toNat }, u.drop (ceil8 cl.toNat))

/-- The loop of 45_container.md R255; every pass consumes a byte, so as many passes as there are bytes are enough. -/
def parseEntries (tag : DataType) : Nat → List Byte → Option (List Entry)
  | _, [] => some []
  | 0, _ :: _ => none
  | n + 1, b :: t =>
    match parseEntry tag (b :: t) with
    | none => none
    | some (e, rest) => (parseEntries tag n rest).map (e :: ·)

/-- `ParseTable(tag, t)` (45_container.md R255). -/
def parseTable (tag : DataType) (t : List Byte) : Option (List Entry) := parseEntries tag t.length t

/-- Two entries that may stand in one table: different symbols, neither codeword a prefix of the other
(45_container.md R261). -/
def compatible (e f : Entry) : Bool := e.sym != f.sym && !(e.cw.isPrefixOf f.cw) && !(f.cw.isPrefixOf e.cw)

/-- `TableValid(entries)` (45_container.md R261). -/
def tableValid : List Entry → Bool
  | [] => true
  | e :: es => es.all (compatible e) && tableValid es

/-- `INV` (45_container.md R262). -/
def inverseTable (entries : List Entry) : List (BitString × Nat) := entries.map fun e => (e.cw, e.sym)

/-- T of a container (30_encoding.md R110, R111). -/
def tableLenOf (c : List Byte) : Nat := be32Inv (slice c 1 5)

/-- B of a container whose table length is `t` (30_encoding.md R110, R111). -/
def bitLenOf (c : List Byte) (t : Nat) : Nat := be32Inv (slice c (5 + t) (9 + t))

/-- The part of `ParseContainer` after the tag has been accepted; the checks in the order of 45_container.md R250. -/
def parseFields (maxDistinct : Nat) (tag : DataType) (c : List Byte) : Except ErrCode Parsed :=
  if c.length < 5 then .error .malformedContainer
  else if c.length - 5 < tableLenOf c then .error .malformedContainer
  else match parseTable tag (slice c 5 (5 + tableLenOf c)) with
  | none => .error .malformedContainer
  | some entries =>
    if c.length - 5 - tableLenOf c < 4 then .error .malformedContainer
    else if c.length - 9 - tableLenOf c < ceil8 (bitLenOf c (tableLenOf c)) then .error .malformedContainer
    else if ceil8 (bitLenOf c (tableLenOf c)) < c.length - 9 - tableLenOf c then .error .malformedContainer
    else if maxDistinct < entries.length then .error .capacity
    else if tableValid entries = false then .error .malformedContainer
    else .ok
      { tag := tag, entries := entries, inv := inverseTable entries, tableLen := tableLenOf c,
        payloadBits := bitLenOf c (tableLenOf c), payload := c.drop (9 + tableLenOf c) }

/-- `ParseContainer(c)`: the tag is read and checked first (45_container.md R250, R251). -/
def parseContainer (maxDistinct : Nat) (c : List Byte) : Except ErrCode Parsed :=
  match c with
  | [] => .error .malformedContainer
  | t :: _ =>
    match tagOf t with
    | none => .error .unsupportedDataType
    | some tag => parseFields maxDistinct tag c

/-- `Reassemble(tag, syms)` (45_container.md R263). -/
def reassemble (tag : DataType) (syms : List Nat) : List Byte :=
  match tag with
  | .binary => syms.map (BitVec.ofNat 8)
  | .text => utf8EncSeq syms

end Sys2Proof.Machine
end

