-- ==== Sys2Proof/Machine/Codec.lean ====
section
/-! DEFINITION. The data part of the two commands: from the bytes of the source buffer to the bytes and counts of the
result, or the first error (46_commands.md R290, R293, R300). -/

namespace Sys2Proof.Machine

/-- L, the container length (45_container.md R240). -/
def containerLen (tableLen b : Nat) : Nat := 9 + tableLen + ceil8 b

/-- COMPRESS from `syms` and the frequency table on (46_commands.md R290). -/
def compressCounted (d : DataType) (syms : List Nat) (table : List (Nat × Nat)) (cap : Nat) : Except ErrCode Success :=
  match codewordTable table with
  | .error e => .error e
  | .ok cw =>
    if Config.maxField < bitCount table cw then .error .capacity
    else if cap < containerLen (serializeTable d cw).length (bitCount table cw) then .error .outputOverflow
    else match pack syms cw with
    | .error e => .error e
    | .ok (_, payload) =>
      .ok
        { out := serializeContainer d (serializeTable d cw) (bitCount table cw) payload, symCount := syms.length,
          distinct := table.length, tableLen := (serializeTable d cw).length, payloadBits := bitCount table cw }

/-- COMPRESS of the source bytes with P_MAX_DISTINCT and DST_CAP (46_commands.md R290, from `Symbolize` on). -/
def compressBytes (maxDistinct : Nat) (d : DataType) (src : List Byte) (cap : Nat) : Except ErrCode Success :=
  match symbolize d src with
  | .error e => .error e
  | .ok syms =>
    match countFreq maxDistinct syms with
    | .error e => .error e
    | .ok table => compressCounted d syms table cap

/-- DECOMPRESS of a container with P_MAX_DISTINCT and DST_CAP (46_commands.md R300, from `ParseContainer` on). -/
def decompressBytes (maxDistinct : Nat) (c : List Byte) (cap : Nat) : Except ErrCode Success :=
  match parseContainer maxDistinct c with
  | .error e => .error e
  | .ok p =>
    match unpack p.payload p.payloadBits p.inv with
    | .error e => .error e
    | .ok syms =>
      if cap < (reassemble p.tag syms).length then .error .outputOverflow
      else .ok
        { out := reassemble p.tag syms, symCount := syms.length, distinct := p.entries.length, tableLen := p.tableLen,
          payloadBits := p.payloadBits }

end Sys2Proof.Machine
end

