-- ==== Sys2Proof/Syntax.lean ====
section
/-! DEFINITION. The command words (30_encoding.md R100, R101), one constructor per row of spec/opcode_table.json, and
the operations a host or another agent performs on the buses (46_commands.md R286, 20_memory.md R75, 30_encoding.md R125). -/

namespace Sys2Proof

/-- A command. `ign` is bits 31:4 of the word, which the hardware does not read (30_encoding.md R100); it is kept so
that a command names its word. -/
inductive Instr where
  /-- 0x0 NOP (46_commands.md R282) -/
  | nop (ign : BitVec 28)
  /-- 0x1 COMPRESS (46_commands.md R290) -/
  | compress (ign : BitVec 28)
  /-- 0x2 DECOMPRESS (46_commands.md R300) -/
  | decompress (ign : BitVec 28)
  /-- 0x3 RESERVED_3 (46_commands.md R283) -/
  | reserved3 (ign : BitVec 28)
  /-- 0x4 RESERVED_4 (46_commands.md R283) -/
  | reserved4 (ign : BitVec 28)
  /-- 0x5 RESERVED_5 (46_commands.md R283) -/
  | reserved5 (ign : BitVec 28)
  /-- 0x6 RESERVED_6 (46_commands.md R283) -/
  | reserved6 (ign : BitVec 28)
  /-- 0x7 RESERVED_7 (46_commands.md R283) -/
  | reserved7 (ign : BitVec 28)
  /-- 0x8 RESERVED_8 (46_commands.md R283) -/
  | reserved8 (ign : BitVec 28)
  /-- 0x9 RESERVED_9 (46_commands.md R283) -/
  | reserved9 (ign : BitVec 28)
  /-- 0xA RESERVED_A (46_commands.md R283) -/
  | reservedA (ign : BitVec 28)
  /-- 0xB RESERVED_B (46_commands.md R283) -/
  | reservedB (ign : BitVec 28)
  /-- 0xC RESERVED_C (46_commands.md R283) -/
  | reservedC (ign : BitVec 28)
  /-- 0xD RESERVED_D (46_commands.md R283) -/
  | reservedD (ign : BitVec 28)
  /-- 0xE RESERVED_E (46_commands.md R283) -/
  | reservedE (ign : BitVec 28)
  /-- 0xF SOFT_RESET (46_commands.md R284) -/
  | softReset (ign : BitVec 28)
  deriving DecidableEq, Repr

/-- Bits 31:4 of the command word (30_encoding.md R100). -/
def Instr.ign : Instr → BitVec 28
  | .nop g => g
  | .compress g => g
  | .decompress g => g
  | .reserved3 g => g
  | .reserved4 g => g
  | .reserved5 g => g
  | .reserved6 g => g
  | .reserved7 g => g
  | .reserved8 g => g
  | .reserved9 g => g
  | .reservedA g => g
  | .reservedB g => g
  | .reservedC g => g
  | .reservedD g => g
  | .reservedE g => g
  | .softReset g => g

/-- The width of a host access to the register window (20_memory.md R75). -/
inductive AccessWidth where
  | w8
  | w16
  | w32
  deriving DecidableEq, Repr

/-- What the outside world can do in one operation: a register access at an offset of the window (46_commands.md R286,
20_memory.md R75), one round of POLL (30_encoding.md R125), a byte access to system memory by the host or another agent
(20_memory.md R74, 70_reset_and_hazards.md R370), or a new level of the reset input, `true` being asserted
(70_reset_and_hazards.md R360; log 16). -/
inductive BusOp where
  | regWrite (width : AccessWidth) (off : BitVec 8) (v : Word)
  | regRead (width : AccessWidth) (off : BitVec 8)
  | poll (off : BitVec 8) (mask v : Word)
  | memWrite (addr : Word) (b : Byte)
  | memRead (addr : Word)
  | reset (asserted : Bool)
  deriving DecidableEq, Repr

/-- The named registers of 10_state.md R21. -/
inductive RegName where
  | id
  | version
  | caps
  | cmd
  | mode
  | status
  | irqEn
  | errCode
  | srcAddr
  | srcLen
  | dstAddr
  | dstCap
  | resultLen
  | symCount
  | distinct
  | tableLen
  | payloadBits
  deriving DecidableEq, Repr

/-- The lines of the host-program form of 30_encoding.md R125. -/
inductive HostLine where
  | wr (name : RegName) (v : Word)
  | rd (name : RegName)
  | poll (name : RegName) (mask v : Word)
  | memw (addr : Word) (bytes : List Byte)
  | memr (addr : Word) (n : Nat)
  | comment (text : String)
  deriving DecidableEq, Repr

end Sys2Proof
end

