-- ==== Sys2Proof/WellFormed.lean ====
section
/-! DEFINITION. Which terms of the syntax stand for something a HUFFC host can do. -/

namespace Sys2Proof

/-- Every term of `Instr` is a command word: the opcode is the constructor and any 28 bits may stand in bits 31:4
(30_encoding.md R100, R101), so there is nothing to check. One arm per constructor, so that a new one must be decided. -/
def Instr.wf : Instr → Bool
  | .nop _ => true
  | .compress _ => true
  | .decompress _ => true
  | .reserved3 _ => true
  | .reserved4 _ => true
  | .reserved5 _ => true
  | .reserved6 _ => true
  | .reserved7 _ => true
  | .reserved8 _ => true
  | .reserved9 _ => true
  | .reservedA _ => true
  | .reservedB _ => true
  | .reservedC _ => true
  | .reservedD _ => true
  | .reservedE _ => true
  | .softReset _ => true

/-- A line of a host program names bytes that exist: the bytes of MEMW and MEMR lie at addresses below 2^32
(20_memory.md R70). -/
def HostLine.wf : HostLine → Bool
  | .wr _ _ => true
  | .rd _ => true
  | .poll _ _ _ => true
  | .memw a bs => decide (a.toNat + bs.length ≤ 2 ^ 32)
  | .memr a n => decide (a.toNat + n ≤ 2 ^ 32)
  | .comment _ => true

end Sys2Proof
end

