-- ==== Sys2Proof/Decode.lean ====
section
/-! DEFINITION. Decoding a command (30_encoding.md R100, R101) and the encoder written from the same table.
The decoder reads bits 3:0 of the word, one by one; the sixteen patterns are all there are, so every word decodes. -/

namespace Sys2Proof

/-- Bits 31:4 of a command word (30_encoding.md R100). -/
def ignOf (w : Word) : BitVec 28 := w.extractLsb' 4 28

/-- The command a 32-bit word stands for: OP is decoded with mask 0x0000000F (30_encoding.md R101). -/
def decodeWord (w : Word) : Instr :=
  match w.getLsbD 3, w.getLsbD 2, w.getLsbD 1, w.getLsbD 0 with
  | false, false, false, false => .nop (ignOf w)
  | false, false, false, true => .compress (ignOf w)
  | false, false, true, false => .decompress (ignOf w)
  | false, false, true, true => .reserved3 (ignOf w)
  | false, true, false, false => .reserved4 (ignOf w)
  | false, true, false, true => .reserved5 (ignOf w)
  | false, true, true, false => .reserved6 (ignOf w)
  | false, true, true, true => .reserved7 (ignOf w)
  | true, false, false, false => .reserved8 (ignOf w)
  | true, false, false, true => .reserved9 (ignOf w)
  | true, false, true, false => .reservedA (ignOf w)
  | true, false, true, true => .reservedB (ignOf w)
  | true, true, false, false => .reservedC (ignOf w)
  | true, true, false, true => .reservedD (ignOf w)
  | true, true, true, false => .reservedE (ignOf w)
  | true, true, true, true => .softReset (ignOf w)

/-- Why bytes or a bus operation are not a command. -/
inductive DecodeReject where
  /-- a command is exactly one 32-bit word (30_encoding.md R100); so many bytes were given -/
  | notOneWord (bytes : Nat)
  /-- the operation is no register write -/
  | notAWrite
  /-- the access is not 32 bits wide (20_memory.md R75) -/
  | notWordWide
  /-- the access is not at the offset of CMD (10_state.md R25) -/
  | notAtCmd
  deriving DecidableEq, Repr

/-- The bytes of a word by bit number: bits 7:0 first. The order of bytes on the register bus cannot be observed
(20_memory.md R75; DESIGN CHOICE, log 12). -/
def wordBytes (w : Word) : List Byte :=
  [w.extractLsb' 0 8, w.extractLsb' 8 8, w.extractLsb' 16 8, w.extractLsb' 24 8]

/-- Total decoding of bytes: exactly one 32-bit word is a command, anything else is rejected by name. -/
def decodeBytes : List Byte → Except DecodeReject Instr
  | [b0, b1, b2, b3] => .ok (decodeWord (b3 ++ b2 ++ b1 ++ b0))
  | bs => .error (.notOneWord bs.length)

/-- The offset of CMD (10_state.md R25). -/
def cmdOffset : BitVec 8 := 0x0C#8

/-- The command a bus operation is: a 32-bit write to CMD (30_encoding.md R100), decoded from its bytes. -/
def commandOf : BusOp → Except DecodeReject Instr
  | .regWrite .w32 off v => if off = cmdOffset then decodeBytes (wordBytes v) else .error .notAtCmd
  | .regWrite .w16 _ _ => .error .notWordWide
  | .regWrite .w8 _ _ => .error .notWordWide
  | .regRead _ _ => .error .notAWrite
  | .poll _ _ _ => .error .notAWrite
  | .memWrite _ _ => .error .notAWrite
  | .memRead _ => .error .notAWrite
  | .reset _ => .error .notAWrite

/-- What the decoder reads from an instruction whose bits are `w`, numbered as spec/opcode_table.json numbers them; every
bit above `nbits` is 0. A command is 32 bits, so no longer instruction exists. -/
def decodeTableWord (nbits w : Nat) : Option Instr :=
  if nbits ≤ 32 then
    match decodeBytes (wordBytes (BitVec.ofNat 32 (w % 2 ^ nbits))) with
    | .ok i => some i
    | .error _ => none
  else none

/-- The OP value of each row of the opcode map (30_encoding.md R101). -/
def opcode : Instr → BitVec 4
  | .nop _ => 0x0#4
  | .compress _ => 0x1#4
  | .decompress _ => 0x2#4
  | .reserved3 _ => 0x3#4
  | .reserved4 _ => 0x4#4
  | .reserved5 _ => 0x5#4
  | .reserved6 _ => 0x6#4
  | .reserved7 _ => 0x7#4
  | .reserved8 _ => 0x8#4
  | .reserved9 _ => 0x9#4
  | .reservedA _ => 0xA#4
  | .reservedB _ => 0xB#4
  | .reservedC _ => 0xC#4
  | .reservedD _ => 0xD#4
  | .reservedE _ => 0xE#4
  | .softReset _ => 0xF#4

/-- The word of a command: OP in bits 3:0, the ignored bits in 31:4 (30_encoding.md R100). -/
def encode (i : Instr) : Word := (i.ign ++ opcode i : BitVec (28 + 4))

/-- A command as the host issues it: a 32-bit write to CMD (30_encoding.md R100). -/
def issue (i : Instr) : BusOp := .regWrite .w32 cmdOffset (encode i)

end Sys2Proof
end

