-- ==== Sys2Proof/Machine/State.lean ====
section
/-! DEFINITION. The state of one HUFFC instance with the system memory it reaches (10_state.md R20), the operations the
outside world will perform on it, and the state after reset (70_reset_and_hazards.md R361). -/

namespace Sys2Proof.Machine

/-- The writable contents of the registers of 10_state.md R21. BUSY and IRQ of STATUS are computed; ID, VERSION, CAPS,
CMD and the reserved offsets hold nothing that changes. -/
structure Regs where
  mode        : BitVec 2
  done        : Bool
  err         : Bool
  cmdIgnored  : Bool
  doneIe      : Bool
  errIe       : Bool
  errCode     : ErrCode
  srcAddr     : Word
  srcLen      : Word
  dstAddr     : Word
  dstCap      : Word
  resultLen   : Word
  symCount    : Word
  distinct    : Word
  tableLen    : Word
  payloadBits : Word
  deriving DecidableEq, Repr

/-- The reset values of 70_reset_and_hazards.md R361. -/
def Regs.reset : Regs :=
  { mode := 0, done := false, err := false, cmdIgnored := false, doneIe := false, errIe := false, errCode := .none,
    srcAddr := 0, srcLen := 0, dstAddr := 0, dstCap := 0,
    resultLen := 0, symCount := 0, distinct := 0, tableLen := 0, payloadBits := 0 }

/-- System memory (20_memory.md R70): the bytes that have been written, by address, addresses strictly rising. An
unlisted address holds no listed value; what a read of it gives is `Memory.read` (log 5). -/
abbrev Memory := List Host.Cell

/-- The machine. `plat` is the instance's open parameters, which no step changes (log 4). `regs`, `phase`, `lat`,
`stores` and `mem` are the spec's state (10_state.md R20, R42..R48), and `inReset` is whether the reset input is asserted
(70_reset_and_hazards.md R360; log 16). `queue`, `replies`, `wait` and `draws` are the
model's own: what the outside world does next (log 1), what reads returned, newest first (log 11), the steps left before
the core's step (log 2), and how many free values have been drawn (log 6). -/
structure State where
  plat    : Platform
  regs    : Regs
  phase   : Phase
  lat     : Latched
  stores  : Stores
  mem     : Memory
  inReset : Bool
  queue   : List BusOp
  replies : List Reply
  wait    : Nat
  draws   : Nat
  deriving DecidableEq, Repr

/-- Why the machine stops with a fault. -/
inductive Fault where
  /-- Raised by a byte access of the host or another agent (`hostRead`, `hostWrite`) at an address outside the register
  window where the platform has no ordinary memory; the spec gives no such access a meaning. Safe (log 14). -/
  | noMemoryAt (addr : Word)
  deriving DecidableEq, Repr

/-- Why a step has no meaning. -/
inductive Refusal where
  /-- Raised by `exec` for an instruction that has no meaning yet. Safe. -/
  | notModelled (mnemonic : String)
  /-- Raised by a byte write of the host or another agent into the latched source or destination range while BUSY
  (70_reset_and_hazards.md R370: a model refuses the run). Safe (log 15). -/
  | bufferWriteWhileBusy (addr : Word)
  deriving DecidableEq, Repr

/-- The latched operands at reset, which the spec leaves unspecified (DESIGN CHOICE, log 7). -/
def Latched.atReset : Latched :=
  { op := .compress, dtype := 0, srcAddr := 0, srcLen := 0, dstAddr := 0, dstCap := 0 }

/-- The machine right after reset (70_reset_and_hazards.md R361) on a platform `p`. -/
def State.resetOn (p : Platform) : State :=
  { plat := p, regs := Regs.reset, phase := .idle, lat := Latched.atReset, stores := Stores.empty,
    mem := [], inReset := false, queue := [], replies := [], wait := 0, draws := 0 }

/-- The machine right after reset (70_reset_and_hazards.md R361), on a platform the spec leaves open (log 4). -/
def State.reset : State := State.resetOn Config.platform

end Sys2Proof.Machine
end

