-- ==== Sys2Proof/Machine/Flags.lean ====
section
/-! DEFINITION. STATUS, IRQ_EN and the interrupt output: the only flags of HUFFC (10_state.md R27, R32, R50;
46_commands.md R287; 60_exceptions.md R340). -/

namespace Sys2Proof.Machine

/-- The interrupt output `irq`, a level (10_state.md R50, 60_exceptions.md R340). -/
def irqLevel (r : Regs) : Bool := (r.done && r.doneIe) || (r.err && r.errIe)

/-- `bit << n` of a register value. -/
def bitAt (b : Bool) (n : Nat) : Word := if b then 1#32 <<< n else 0#32

/-- The STATUS read value: BUSY | DONE<<1 | ERR<<2 | CMD_IGNORED<<3 | irq<<4 (46_commands.md R287). -/
def statusWord (phase : Phase) (r : Regs) : Word :=
  bitAt (decide (phase = .busy)) 0 ||| bitAt r.done 1 ||| bitAt r.err 2 ||| bitAt r.cmdIgnored 3 ||| bitAt (irqLevel r) 4

/-- The IRQ_EN read value (10_state.md R32). -/
def irqEnWord (r : Regs) : Word := bitAt r.doneIe 0 ||| bitAt r.errIe 1

/-- A write of `v` to STATUS: write-1-to-clear of DONE, ERR and CMD_IGNORED; BUSY, IRQ and the reserved bits ignore it
(10_state.md R27, 46_commands.md R286). This is how the host acknowledges an error or a completion: the place of a
return from an exception (60_exceptions.md R335). -/
def writeStatus (v : Word) (r : Regs) : Regs :=
  { r with done := r.done && !v.getLsbD 1, err := r.err && !v.getLsbD 2, cmdIgnored := r.cmdIgnored && !v.getLsbD 3 }

/-- A write of `v` to IRQ_EN (10_state.md R32, 46_commands.md R286). -/
def writeIrqEn (v : Word) (r : Regs) : Regs := { r with doneIe := v.getLsbD 0, errIe := v.getLsbD 1 }

/-- The numeric value of an error code (60_exceptions.md R320). -/
def ErrCode.code : ErrCode → BitVec 4
  | .none => 0x0#4
  | .unsupportedInputType => 0x1#4
  | .emptyInput => 0x2#4
  | .malformedContainer => 0x3#4
  | .unsupportedDataType => 0x4#4
  | .corruptPayload => 0x5#4
  | .capacity => 0x6#4
  | .outputOverflow => 0x7#4
  | .busError => 0x8#4
  | .illegalCommand => 0x9#4
  | .bufferOverlap => 0xA#4

end Sys2Proof.Machine
end

