-- ==== Sys2Proof/Machine/Operands.lean ====
section
/-! DEFINITION. The operands of a command: the registers latched at the start (10_state.md R41), the byte ranges they
name and their checks (20_memory.md R71..R73). -/

namespace Sys2Proof.Machine

/-- P_REG_BASE, 256-byte aligned (00_scope.md R6). -/
def Platform.regBase (p : Platform) : Nat := p.regPage.toNat * 256

/-- The address lies in the register window (20_memory.md R71). -/
def Platform.inWindow (p : Platform) (a : Nat) : Bool := decide (p.regBase ≤ a) && decide (a < p.regBase + 256)

/-- A region holds the address. -/
def Region.holds (r : Region) (a : Nat) : Bool := decide (r.base ≤ a) && decide (a < r.base + r.size)

/-- P_MEM_OK(a): ordinary memory below 2^32 and outside the register window (20_memory.md R70, R71). -/
def Platform.memOk (p : Platform) (a : Nat) : Bool :=
  decide (a < 2 ^ 32) && !(p.inWindow a) && p.regions.any fun r => r.holds a

/-- The bounds of P_MAX_DISTINCT that the spec asks of an instance (00_scope.md R6). -/
def Platform.legal (p : Platform) : Bool := decide (256 ≤ p.maxDistinct) && decide (p.maxDistinct ≤ 2 ^ 20)

/-- `range_ok(addr, len)`; the sum does not wrap (20_memory.md R72). -/
def rangeOk (p : Platform) (addr len : Nat) : Bool :=
  decide (len = 0) || (decide (addr + len ≤ 2 ^ 32) && (List.range len).all fun i => p.memOk (addr + i))

/-- `overlap(a1, l1, a2, l2)` (20_memory.md R73). -/
def overlap (a1 l1 a2 l2 : Nat) : Bool :=
  decide (0 < l1) && decide (0 < l2) && decide (a1 < a2 + l2) && decide (a2 < a1 + l1)

/-- The address lies in the latched source range (10_state.md R41, 20_memory.md R76). -/
def Latched.inSource (l : Latched) (a : Nat) : Bool :=
  decide (l.srcAddr.toNat ≤ a) && decide (a < l.srcAddr.toNat + l.srcLen.toNat)

/-- The address lies in the latched destination range (10_state.md R41, 20_memory.md R76). -/
def Latched.inDest (l : Latched) (a : Nat) : Bool :=
  decide (l.dstAddr.toNat ≤ a) && decide (a < l.dstAddr.toNat + l.dstCap.toNat)

/-- The operands a start copies from the registers (46_commands.md R285). -/
def latchOperands (op : CmdOp) (r : Regs) : Latched :=
  { op := op, dtype := r.mode, srcAddr := r.srcAddr, srcLen := r.srcLen, dstAddr := r.dstAddr, dstCap := r.dstCap }

/-- The checks that come before any memory access, in order: BUS_ERROR, then BUFFER_OVERLAP (46_commands.md R290, R300;
20_memory.md R72, R73). -/
def rangeError (p : Platform) (l : Latched) : Option ErrCode :=
  if !(rangeOk p l.srcAddr.toNat l.srcLen.toNat && rangeOk p l.dstAddr.toNat l.dstCap.toNat) then some .busError
  else if overlap l.srcAddr.toNat l.srcLen.toNat l.dstAddr.toNat l.dstCap.toNat then some .bufferOverlap
  else none

end Sys2Proof.Machine
end

