-- ==== Sys2Proof/Machine/Ops.lean ====
section
/-! DEFINITION. The shared operations: bytes of memory, registers by offset, and what a command does to the state at its
start, at its end with or without an error, and when it is abandoned (46_commands.md R285, R286; 60_exceptions.md R330..R332). -/

namespace Sys2Proof.Machine

/-! ## Memory -/

/-- The one form of a memory: addresses strictly rising, all of them below 2^32 (20_memory.md R70; log 5). -/
abbrev Memory.wf (m : Memory) : Prop := m.Pairwise (fun x y => x.1 < y.1) ∧ ∀ c ∈ m, c.1 < 2 ^ 32

/-- The byte listed at an address. -/
def Memory.listed? : Memory → Nat → Option Byte
  | [], _ => none
  | (k, v) :: m, a => if a = k then some v else Memory.listed? m a

/-- `MemRead(a, 1)`: the byte last written, or a free byte of that address if none was (00_scope.md R10, 20_memory.md R71,
R74; log 5). -/
def Memory.read (m : Memory) (a : Nat) : Byte := (m.listed? a).getD (Config.powerOnByte a)

/-- `MemWrite(a, 1, v)` (00_scope.md R10, 20_memory.md R74). -/
def Memory.write : Memory → Nat → Byte → Memory
  | [], a, b => [(a, b)]
  | (k, v) :: m, a, b =>
    if a < k then (a, b) :: (k, v) :: m
    else if a = k then (a, b) :: m
    else (k, v) :: Memory.write m a b

/-- The bytes of a sequence written from an address upward (46_commands.md R290, R300). -/
def Memory.writeAll : Memory → Nat → List Byte → Memory
  | m, _, [] => m
  | m, a, b :: bs => Memory.writeAll (m.write a b) (a + 1) bs

/-- `n` bytes read from an address upward (46_commands.md R290, R300). -/
def Memory.readAll (m : Memory) (a n : Nat) : List Byte := (List.range n).map fun i => m.read (a + i)

/-- Every existing byte of [a, a + len) takes a free value of draw `d` (60_exceptions.md R332, 70_reset_and_hazards.md
R378; log 6, log 17). -/
def Memory.scramble (d : Nat) : Memory → Nat → Nat → Memory
  | m, _, 0 => m
  | m, a, len + 1 =>
    Memory.scramble d (if a < 2 ^ 32 then m.write a (Config.freeByte d a) else m) (a + 1) len

/-! ## Registers -/

/-- The register at an offset of the window; `none` at the reserved offsets (10_state.md R21, R39). -/
def regAt (off : BitVec 8) : Option RegName :=
  match off.toNat with
  | 0x00 => some .id
  | 0x04 => some .version
  | 0x08 => some .caps
  | 0x0C => some .cmd
  | 0x10 => some .mode
  | 0x14 => some .status
  | 0x18 => some .irqEn
  | 0x1C => some .errCode
  | 0x20 => some .srcAddr
  | 0x24 => some .srcLen
  | 0x28 => some .dstAddr
  | 0x2C => some .dstCap
  | 0x30 => some .resultLen
  | 0x34 => some .symCount
  | 0x38 => some .distinct
  | 0x3C => some .tableLen
  | 0x40 => some .payloadBits
  | _ => none

/-- The value a read of a register returns; CMD reads 0 (46_commands.md R286, R287; 10_state.md R22..R38). -/
def regValue (s : State) : RegName → Word
  | .id => Config.idWord
  | .version => Config.versionWord
  | .caps => BitVec.ofNat 32 s.plat.maxDistinct
  | .cmd => 0
  | .mode => s.regs.mode.setWidth 32
  | .status => statusWord s.phase s.regs
  | .irqEn => irqEnWord s.regs
  | .errCode => s.regs.errCode.code.setWidth 32
  | .srcAddr => s.regs.srcAddr
  | .srcLen => s.regs.srcLen
  | .dstAddr => s.regs.dstAddr
  | .dstCap => s.regs.dstCap
  | .resultLen => s.regs.resultLen
  | .symCount => s.regs.symCount
  | .distinct => s.regs.distinct
  | .tableLen => s.regs.tableLen
  | .payloadBits => s.regs.payloadBits

/-- A host read of the register window: only an aligned 32-bit access returns a register, any other reads 0 in every byte
(20_memory.md R75, 10_state.md R39, 46_commands.md R286). -/
def readWindow (s : State) (w : AccessWidth) (off : BitVec 8) : Word :=
  match w with
  | .w8 => 0
  | .w16 => 0
  | .w32 =>
    match regAt off with
    | some r => regValue s r
    | none => 0

/-- A 32-bit write of `v` to a register other than CMD: RW fields take their bits, W1C bits clear, everything else ignores
it (46_commands.md R286). A write to CMD is a command and does not come here (`commandOf`). -/
def writeReg (v : Word) (r : Regs) : RegName → Regs
  | .mode => { r with mode := v.extractLsb' 0 2 }
  | .status => writeStatus v r
  | .irqEn => writeIrqEn v r
  | .srcAddr => { r with srcAddr := v }
  | .srcLen => { r with srcLen := v }
  | .dstAddr => { r with dstAddr := v }
  | .dstCap => { r with dstCap := v }
  | .id => r
  | .version => r
  | .caps => r
  | .cmd => r
  | .errCode => r
  | .resultLen => r
  | .symCount => r
  | .distinct => r
  | .tableLen => r
  | .payloadBits => r

/-- A host write to the register window that is no command: only an aligned 32-bit access to a register acts
(20_memory.md R75, 10_state.md R39). -/
def writeWindow (s : State) (w : AccessWidth) (off : BitVec 8) (v : Word) : State :=
  match w with
  | .w8 => s
  | .w16 => s
  | .w32 =>
    match regAt off with
    | some r => { s with regs := writeReg v s.regs r }
    | none => s

/-! ## The life of a command -/

/-- `ClearResults()` (46_commands.md R285). -/
def clearResults (r : Regs) : Regs :=
  { r with done := false, err := false, errCode := .none, resultLen := 0, symCount := 0, distinct := 0, tableLen := 0,
           payloadBits := 0 }

/-- `Start(op)`: results cleared, operands latched, the stores empty, phase BUSY; the core's step comes after a free
number of further steps (46_commands.md R285, 70_reset_and_hazards.md R375; log 2). -/
def start (op : CmdOp) (s : State) : State :=
  { s with
    regs := clearResults s.regs
    lat := latchOperands op s.regs
    stores := Stores.empty
    phase := .busy
    wait := Config.latency s.draws
    draws := s.draws + 1 }

/-- `Fail(E)`: completion with an error, which takes the place of taking an exception. ERR_CODE and STATUS.ERR are
written, DONE is 0, the result registers stay as the start cleared them, the phase is IDLE; nothing is saved and no
handler is entered (60_exceptions.md R330). -/
def fail (e : ErrCode) (s : State) : State :=
  { s with regs := { s.regs with errCode := e, err := true, done := false }, phase := .idle }

/-- `Succeed(fields)`: the result registers, ERR_CODE 0, DONE, phase IDLE (60_exceptions.md R331). -/
def succeed (r : Success) (s : State) : State :=
  { s with
    regs :=
      { s.regs with
        resultLen := BitVec.ofNat 32 r.out.length, symCount := BitVec.ofNat 32 r.symCount,
        distinct := BitVec.ofNat 32 r.distinct, tableLen := BitVec.ofNat 32 r.tableLen,
        payloadBits := BitVec.ofNat 32 r.payloadBits, errCode := .none, done := true }
    phase := .idle }

/-- What a running command leaves behind that no rule reads: `lat` and the stores hold any value once it has ended
(93_implementation_defined.md V5; log 9). -/
def retire (s : State) : State :=
  { s with lat := Config.freeLatched s.draws, stores := Config.freeStores s.draws, wait := 0, draws := s.draws + 1 }

/-- The bytes of the latched destination range take free values (60_exceptions.md R332, 46_commands.md R284). -/
def scrambleDest (s : State) : State :=
  { s with
    mem := Memory.scramble s.draws s.mem s.lat.dstAddr.toNat s.lat.dstCap.toNat
    draws := s.draws + 1 }

/-- A command write that finds the core BUSY changes nothing but CMD_IGNORED (46_commands.md R281). -/
def ignoreCommand (s : State) : State := { s with regs := { s.regs with cmdIgnored := true } }

/-- Every register to its reset value and phase IDLE; a running command is abandoned first, and its destination range
takes free values (46_commands.md R284; 70_reset_and_hazards.md R360, R378). -/
def resetCore (s : State) : State :=
  match s.phase with
  | .busy => retire { scrambleDest s with regs := Regs.reset, phase := .idle }
  | .idle => retire { s with regs := Regs.reset, phase := .idle }

end Sys2Proof.Machine
end

