-- ==== Sys2Proof/Machine/Compress.lean ====
section
/-! DEFINITION. COMPRESS: its CMD write and its body (46_commands.md R280, R285, R290, R293). -/

namespace Sys2Proof.Machine

/-- What COMPRESS(lat) comes to: the checks in the order of 46_commands.md R290, then the container of the source bytes. -/
def compressResult (s : State) : Except ErrCode Success :=
  match dtypeOf s.lat.dtype with
  | none => .error .unsupportedInputType
  | some d =>
    match rangeError s.plat s.lat with
    | some e => .error e
    | none =>
      compressBytes s.plat.maxDistinct d (s.mem.readAll s.lat.srcAddr.toNat s.lat.srcLen.toNat) s.lat.dstCap.toNat

/-- The body of COMPRESS as one core step: the container is written and the command succeeds, or it fails and no byte
changes (46_commands.md R290; 60_exceptions.md R330..R332; 70_reset_and_hazards.md R375). -/
def runCompress (s : State) : State :=
  match compressResult s with
  | .ok r => retire (succeed r { s with mem := s.mem.writeAll s.lat.dstAddr.toNat r.out })
  | .error e => retire (fail e s)

/-- A write of OP 0x1 to CMD: Start in IDLE, dropped in BUSY (46_commands.md R280, R281, R285). -/
def execCompress (_ign : BitVec 28) (s : State) : Host.Outcome State Fault Refusal :=
  match s.phase with
  | .busy => .next (ignoreCommand s)
  | .idle => .next (start .compress s)

end Sys2Proof.Machine
end

