-- ==== Sys2Proof/Machine/Control.lean ====
section
/-! DEFINITION. The commands that never occupy the core: NOP (46_commands.md R282), SOFT_RESET (R284) and the reserved
opcodes (R283). -/

namespace Sys2Proof.Machine

/-- NOP: nothing, in either phase (46_commands.md R282). -/
def execNop (_ign : BitVec 28) (s : State) : Host.Outcome State Fault Refusal := .next s

/-- SOFT_RESET, in either phase (46_commands.md R284). -/
def execSoftReset (_ign : BitVec 28) (s : State) : Host.Outcome State Fault Refusal := .next (resetCore s)

/-- A reserved opcode: `IllegalCommand()` in IDLE with no BUSY phase (46_commands.md R283), dropped in BUSY (R281). -/
def illegalCommand (s : State) : State :=
  match s.phase with
  | .busy => ignoreCommand s
  | .idle => fail .illegalCommand { s with regs := clearResults s.regs }

/-- RESERVED_3, OP 0x3 (46_commands.md R283). -/
def execReserved3 (_ign : BitVec 28) (s : State) : Host.Outcome State Fault Refusal := .next (illegalCommand s)

/-- RESERVED_4, OP 0x4 (46_commands.md R283). -/
def execReserved4 (_ign : BitVec 28) (s : State) : Host.Outcome State Fault Refusal := .next (illegalCommand s)

/-- RESERVED_5, OP 0x5 (46_commands.md R283). -/
def execReserved5 (_ign : BitVec 28) (s : State) : Host.Outcome State Fault Refusal := .next (illegalCommand s)

/-- RESERVED_6, OP 0x6 (46_commands.md R283). -/
def execReserved6 (_ign : BitVec 28) (s : State) : Host.Outcome State Fault Refusal := .next (illegalCommand s)

/-- RESERVED_7, OP 0x7 (46_commands.md R283). -/
def execReserved7 (_ign : BitVec 28) (s : State) : Host.Outcome State Fault Refusal := .next (illegalCommand s)

/-- RESERVED_8, OP 0x8 (46_commands.md R283). -/
def execReserved8 (_ign : BitVec 28) (s : State) : Host.Outcome State Fault Refusal := .next (illegalCommand s)

/-- RESERVED_9, OP 0x9 (46_commands.md R283). -/
def execReserved9 (_ign : BitVec 28) (s : State) : Host.Outcome State Fault Refusal := .next (illegalCommand s)

/-- RESERVED_A, OP 0xA (46_commands.md R283). -/
def execReservedA (_ign : BitVec 28) (s : State) : Host.Outcome State Fault Refusal := .next (illegalCommand s)

/-- RESERVED_B, OP 0xB (46_commands.md R283). -/
def execReservedB (_ign : BitVec 28) (s : State) : Host.Outcome State Fault Refusal := .next (illegalCommand s)

/-- RESERVED_C, OP 0xC (46_commands.md R283). -/
def execReservedC (_ign : BitVec 28) (s : State) : Host.Outcome State Fault Refusal := .next (illegalCommand s)

/-- RESERVED_D, OP 0xD (46_commands.md R283). -/
def execReservedD (_ign : BitVec 28) (s : State) : Host.Outcome State Fault Refusal := .next (illegalCommand s)

/-- RESERVED_E, OP 0xE (46_commands.md R283). -/
def execReservedE (_ign : BitVec 28) (s : State) : Host.Outcome State Fault Refusal := .next (illegalCommand s)

end Sys2Proof.Machine
end

