-- ==== Sys2Proof/Machine/Decompress.lean ====
section
/-! DEFINITION. DECOMPRESS: its CMD write and its body (46_commands.md R280, R285, R300..R302). -/

namespace Sys2Proof.Machine

/-- What DECOMPRESS(lat) comes to: the checks in the order of 46_commands.md R300, then the bytes the container stands for.
`lat.dtype` is not read (R301). -/
def decompressResult (s : State) : Except ErrCode Success :=
  match rangeError s.plat s.lat with
  | some e => .error e
  | none => decompressBytes s.plat.maxDistinct (s.mem.readAll s.lat.srcAddr.toNat s.lat.srcLen.toNat) s.lat.dstCap.toNat

/-- The errors after which the destination range may hold any bytes (60_exceptions.md R332). -/
def leavesBytes (e : ErrCode) : Bool :=
  match e with
  | .corruptPayload => true
  | .outputOverflow => true
  | .none => false
  | .unsupportedInputType => false
  | .emptyInput => false
  | .malformedContainer => false
  | .unsupportedDataType => false
  | .capacity => false
  | .busError => false
  | .illegalCommand => false
  | .bufferOverlap => false

/-- The body of DECOMPRESS as one core step (46_commands.md R300; 60_exceptions.md R330..R332; 70_reset_and_hazards.md R375). -/
def runDecompress (s : State) : State :=
  match decompressResult s with
  | .ok r => retire (succeed r { s with mem := s.mem.writeAll s.lat.dstAddr.toNat r.out })
  | .error e => if leavesBytes e then retire (fail e (scrambleDest s)) else retire (fail e s)

/-- A write of OP 0x2 to CMD: Start in IDLE, dropped in BUSY (46_commands.md R280, R281, R285). -/
def execDecompress (_ign : BitVec 28) (s : State) : Host.Outcome State Fault Refusal :=
  match s.phase with
  | .busy => .next (ignoreCommand s)
  | .idle => .next (start .decompress s)

end Sys2Proof.Machine
end

