-- ==== Sys2Proof/Machine/Bus.lean ====
section
/-! DEFINITION. Which agent moves next, and what each operation on the buses does that is no command (10_state.md R20;
46_commands.md R286; 20_memory.md R75; 70_reset_and_hazards.md R360, R370, R375). -/

namespace Sys2Proof.Machine

/-- What happens next: the core's step, nothing from outside, or the first operation of the queue. -/
inductive Move where
  | core
  | rest
  | bus (op : BusOp)
  deriving DecidableEq, Repr

/-- The core moves when it is BUSY and its latency has run out (70_reset_and_hazards.md R375); otherwise the outside world
does, if it has anything left to do (log 1, log 2). -/
def nextMove (s : State) : Move :=
  if s.phase = .busy ∧ s.wait = 0 then .core
  else match s.queue with
  | [] => .rest
  | op :: _ => .bus op

/-- The state as the next operation finds it: the operation has left the queue and one step of the latency has passed. -/
def taken (s : State) : State := { s with queue := s.queue.tail, wait := s.wait - 1 }

/-- The body of the latched command as one step (70_reset_and_hazards.md R375). -/
def coreStep (s : State) : State :=
  match s.lat.op with
  | .compress => runCompress s
  | .decompress => runDecompress s

/-- A read returns `r` to the host; nothing else changes (46_commands.md R286). -/
def reply (r : Reply) (s : State) : State := { s with replies := r :: s.replies }

/-- One round of POLL: a read of the register, and the operation again if the masked value is not the one asked for
(30_encoding.md R125). -/
def pollReg (off : BitVec 8) (mask v : Word) (s : State) : State :=
  if readWindow s .w32 off &&& mask = v then reply (.reg (readWindow s .w32 off)) s
  else { reply (.reg (readWindow s .w32 off)) s with queue := .poll off mask v :: s.queue }

/-- A byte read by the host or another agent. In the register window it is an 8-bit access and reads 0 (20_memory.md R75;
log 13). In the latched destination range during BUSY it returns a free byte, whatever the platform has there
(70_reset_and_hazards.md R370; log 15). -/
def hostRead (a : Word) (s : State) : Host.Outcome State Fault Refusal :=
  if s.plat.inWindow a.toNat then .next (reply (.mem 0) s)
  else if s.phase = .busy ∧ s.lat.inDest a.toNat then
    .next { reply (.mem (Config.freeByte s.draws a.toNat)) s with draws := s.draws + 1 }
  else if !(s.plat.memOk a.toNat) then .fault (.noMemoryAt a)
  else .next (reply (.mem (s.mem.read a.toNat)) s)

/-- A byte write by the host or another agent. In the register window it is an 8-bit access and does nothing (20_memory.md
R75; log 13). In a latched range during BUSY it has no meaning and the run is refused, whatever the platform has there
(70_reset_and_hazards.md R370; log 15). -/
def hostWrite (a : Word) (b : Byte) (s : State) : Host.Outcome State Fault Refusal :=
  if s.plat.inWindow a.toNat then .next s
  else if s.phase = .busy ∧ (s.lat.inSource a.toNat ∨ s.lat.inDest a.toNat) then .refused (.bufferWriteWhileBusy a)
  else if !(s.plat.memOk a.toNat) then .fault (.noMemoryAt a)
  else .next { s with mem := s.mem.write a.toNat b }

/-- A write to the register window that is no command; while the reset input is asserted every register holds its reset
value, so it does nothing (46_commands.md R286; 70_reset_and_hazards.md R360). -/
def hostRegWrite (w : AccessWidth) (off : BitVec 8) (v : Word) (s : State) : State :=
  if s.inReset then s else writeWindow s w off v

/-- A new level of the reset input: asserting it abandons a running command and resets the core, and so it stays until it is
released (70_reset_and_hazards.md R360; log 16). -/
def setReset (asserted : Bool) (s : State) : State :=
  match asserted with
  | true => { resetCore s with inReset := true }
  | false => { s with inReset := false }

/-- A command as it reaches the core: while the reset input is asserted a write to CMD does nothing, since the phase stays
IDLE and every register at its reset value (70_reset_and_hazards.md R360). -/
def runCommand (i : Instr) (s : State) : Host.Outcome State Fault Refusal :=
  if s.inReset then .next s else exec i s

/-- What an operation that is no command does. -/
def access (op : BusOp) (s : State) : Host.Outcome State Fault Refusal :=
  match op with
  | .regWrite w off v => .next (hostRegWrite w off v s)
  | .regRead w off => .next (reply (.reg (readWindow s w off)) s)
  | .poll off mask v => .next (pollReg off mask v s)
  | .memWrite a b => hostWrite a b s
  | .memRead a => hostRead a s
  | .reset asserted => .next (setReset asserted s)

/-! ## Host programs -/

/-- The offset of a register (10_state.md R21). -/
def offsetOf : RegName → BitVec 8
  | .id => 0x00#8
  | .version => 0x04#8
  | .caps => 0x08#8
  | .cmd => 0x0C#8
  | .mode => 0x10#8
  | .status => 0x14#8
  | .irqEn => 0x18#8
  | .errCode => 0x1C#8
  | .srcAddr => 0x20#8
  | .srcLen => 0x24#8
  | .dstAddr => 0x28#8
  | .dstCap => 0x2C#8
  | .resultLen => 0x30#8
  | .symCount => 0x34#8
  | .distinct => 0x38#8
  | .tableLen => 0x3C#8
  | .payloadBits => 0x40#8

/-- Bytes written from an address upward, one operation each. -/
def memwOps : Nat → List Byte → List BusOp
  | _, [] => []
  | a, b :: bs => .memWrite (BitVec.ofNat 32 a) b :: memwOps (a + 1) bs

/-- The bus operations of a line of a host program (30_encoding.md R125). -/
def lineOps : HostLine → List BusOp
  | .wr name v => [.regWrite .w32 (offsetOf name) v]
  | .rd name => [.regRead .w32 (offsetOf name)]
  | .poll name mask v => [.poll (offsetOf name) mask v]
  | .memw a bytes => memwOps a.toNat bytes
  | .memr a n => (List.range n).map fun i => .memRead (BitVec.ofNat 32 (a.toNat + i))
  | .comment _ => []

/-- The machine with a host program to run next, loaded from outside (30_encoding.md R125; log 1). -/
def loadProgram (lines : List HostLine) (s : State) : State := { s with queue := lines.flatMap lineOps ++ s.queue }

end Sys2Proof.Machine
end

