-- ==== Sys2Proof/Machine/Step.lean ====
section
/-! DEFINITION. One step of the machine (10_state.md R20, 70_reset_and_hazards.md R375). -/

namespace Sys2Proof.Machine

/-- One step: the core's, or the outside world's next operation. A 32-bit write to CMD is a command and runs `exec` unless the
core is held in reset; with nothing to do, one step of the latency passes and an idle core does nothing (60_exceptions.md
R347; log 18). -/
def step (s : State) : Host.Outcome State Fault Refusal :=
  match nextMove s with
  | .core => .next (coreStep s)
  | .rest => .next (taken s)
  | .bus op =>
    match commandOf op with
    | .ok i => runCommand i (taken s)
    | .error _ => access op (taken s)

/-- The state with the command whose word is `w` as the host's next operation, the core not about to move before it and the
reset input released (log 1). -/
def State.withFetchWord (s : State) (nbits w : Nat) : State :=
  { s with
    queue := .regWrite .w32 cmdOffset (BitVec.ofNat 32 (w % 2 ^ nbits)) :: s.queue
    wait := if s.wait = 0 then 1 else s.wait
    inReset := false }

end Sys2Proof.Machine
end

