-- ==== Sys2Proof/Machine/Cursor.lean ====
section
/-! DEFINITION. The container parser with its cursor PCUR, a 32-bit offset into the source buffer that goes forward from field
to field (10_state.md R48; 45_container.md R250, R252, R255). -/

namespace Sys2Proof.Machine

/-- The next `n` bytes and the cursor behind them, if they stand before `stop`; the length is checked before the read
(45_container.md R252, R253). -/
def takeField (c : List Byte) (stop n : Nat) (pcur : Word) : Option (List Byte × Word) :=
  if stop < pcur.toNat + n then none
  else some (slice c pcur.toNat (pcur.toNat + n), pcur + BitVec.ofNat 32 n)

/-- The value of a one-byte field. -/
def byteValue (field : List Byte) : Nat := (field.headD 0).toNat

/-- sym_len and sym at the cursor (45_container.md R255). -/
def cursorSym (tag : DataType) (c : List Byte) (stop : Nat) (pcur : Word) : Option (Nat × Word) :=
  match takeField c stop 1 pcur with
  | none => none
  | some (sl, p) =>
    if symLenOk tag (byteValue sl) = false then none
    else match takeField c stop (byteValue sl) p with
    | none => none
    | some (sb, p') => (readSym tag sb).map fun sym => (sym, p')

/-- cw_len and cw at the cursor (45_container.md R255). -/
def cursorCodeword (c : List Byte) (stop : Nat) (pcur : Word) : Option (BitString × Word) :=
  match takeField c stop 1 pcur with
  | none => none
  | some (cl, p) =>
    if byteValue cl = 0 then none
    else match takeField c stop (ceil8 (byteValue cl)) p with
    | none => none
    | some (cb, p') => some ((unpackBits cb).take (byteValue cl), p')

/-- One entry of the table at the cursor (45_container.md R255). -/
def cursorEntry (tag : DataType) (c : List Byte) (stop : Nat) (pcur : Word) : Option (Entry × Word) :=
  match cursorSym tag c stop pcur with
  | none => none
  | some (sym, p) => (cursorCodeword c stop p).map fun r => ({ sym := sym, cw := r.1 }, r.2)

/-- The entries from the cursor up to `stop`, at most `n` of them (45_container.md R255). -/
def cursorEntries (tag : DataType) (c : List Byte) (stop : Nat) : Nat → Word → Option (List Entry × Word)
  | 0, pcur => if stop ≤ pcur.toNat then some ([], pcur) else none
  | n + 1, pcur =>
    if stop ≤ pcur.toNat then some ([], pcur)
    else match cursorEntry tag c stop pcur with
    | none => none
    | some (e, p) => (cursorEntries tag c stop n p).map fun r => (e :: r.1, r.2)

/-- T, the table, B and the payload from the cursor on, with the cursor at the end (45_container.md R250). -/
def cursorFields (maxDistinct : Nat) (tag : DataType) (c : List Byte) (pcur : Word) : Except ErrCode (Parsed × Word) :=
  match takeField c c.length 4 pcur with
  | none => .error .malformedContainer
  | some (tb, p1) =>
    if c.length < p1.toNat + be32Inv tb then .error .malformedContainer
    else match cursorEntries tag c (p1.toNat + be32Inv tb) (be32Inv tb) p1 with
    | none => .error .malformedContainer
    | some (entries, p2) =>
      match takeField c c.length 4 p2 with
      | none => .error .malformedContainer
      | some (bb, p3) =>
        match takeField c c.length (ceil8 (be32Inv bb)) p3 with
        | none => .error .malformedContainer
        | some (payload, p4) =>
          if p4.toNat < c.length then .error .malformedContainer
          else if maxDistinct < entries.length then .error .capacity
          else if tableValid entries = false then .error .malformedContainer
          else .ok
            ({ tag := tag, entries := entries, inv := inverseTable entries, tableLen := be32Inv tb,
               payloadBits := be32Inv bb, payload := payload }, p4)

/-- `ParseContainer(c)` with PCUR, which starts at 0 (10_state.md R48, 45_container.md R250). -/
def cursorContainer (maxDistinct : Nat) (c : List Byte) : Except ErrCode (Parsed × Word) :=
  match takeField c c.length 1 0 with
  | none => .error .malformedContainer
  | some (t, p) =>
    match tagOf (t.headD 0) with
    | none => .error .unsupportedDataType
    | some tag => cursorFields maxDistinct tag c p

end Sys2Proof.Machine
end

