-- ==== Sys2Proof/Safety.lean ====
section
/-! DEFINITION. What a sound state of HUFFC is, in the terms the statements use. -/

namespace Sys2Proof.Machine

/-- The five result registers read 0 (10_state.md R34..R38). -/
def Regs.NoResult (r : Regs) : Prop :=
  r.resultLen = 0 ∧ r.symCount = 0 ∧ r.distinct = 0 ∧ r.tableLen = 0 ∧ r.payloadBits = 0

/-- What holds of a HUFFC at reset and after every step. -/
structure State.Inv (s : State) : Prop where
  /-- memory keeps its one form, all of it below 2^32 (20_memory.md R70) -/
  mem : s.mem.wf
  /-- DONE and ERR are never 1 at the same time (10_state.md R27) -/
  doneErr : ¬(s.regs.done = true ∧ s.regs.err = true)
  /-- while BUSY, DONE, ERR and ERR_CODE are as the start cleared them (46_commands.md R285, 70_reset_and_hazards.md R373) -/
  busyFlags : s.phase = .busy → s.regs.done = false ∧ s.regs.err = false ∧ s.regs.errCode = .none
  /-- while BUSY the results read 0 (70_reset_and_hazards.md R373) -/
  busyResult : s.phase = .busy → s.regs.NoResult
  /-- after an error the results read 0 and DONE is 0 (60_exceptions.md R330, 46_commands.md R302) -/
  errResult : s.regs.errCode ≠ .none → s.regs.NoResult ∧ s.regs.done = false
  /-- STATUS.ERR comes with a code (60_exceptions.md R330) -/
  errCode : s.regs.err = true → s.regs.errCode ≠ .none
  /-- while the reset input is asserted every register holds its reset value and the phase is IDLE (70_reset_and_hazards.md
  R360) -/
  heldReset : s.inReset = true → s.regs = Regs.reset ∧ s.phase = .idle
  /-- EMPTY_INPUT is never reported (60_exceptions.md R322) -/
  noEmpty : s.regs.errCode ≠ .emptyInput

/-- Memory is the same at every address outside [lo, lo + len). -/
def SameOutside (m m' : Memory) (lo len : Nat) : Prop :=
  ∀ a, ¬(lo ≤ a ∧ a < lo + len) → m'.read a = m.read a

/-- The bytes of `bs` stand from `lo` upward. -/
def HoldsBytes (m : Memory) (lo : Nat) (bs : List Byte) : Prop :=
  ∀ i, i < bs.length → m.read (lo + i) = bs.getD i 0

end Sys2Proof.Machine
end

