-- ==== Sys2Proof/Certificates/Slice0/Obligations.lean ====
section
/-! DEFINITION. The statements about HUFFC, from the numbered rules of spec/. Each docstring names the rule. -/

open Sys2Proof Sys2Proof.Machine

/-! ## The command word -/

/-- 30_encoding.md R100, R101: the decoder gives back every command from its word, its bytes and its bus operation, with
every value of the ignored bits; and each of the 2^32 words is the word of the one command it decodes to. -/
def Obligations.DecodingAndEncodingAgree : Prop :=
  (∀ i : Instr, i.wf = true →
    decodeBytes (wordBytes (encode i)) = .ok i ∧ decodeTableWord 32 (encode i).toNat = some i ∧
      commandOf (issue i) = .ok i) ∧
  (∀ w : Word, encode (decodeWord w) = w ∧ decodeBytes (wordBytes w) = .ok (decodeWord w))

/-- 30_encoding.md R101: a few words written out from the opcode map, and one byte, which is no command. That the four bytes
of the NOP word stand with bits 7:0 first is the model's choice (DESIGN CHOICE, log 12), not a rule of the spec. -/
def Obligations.OpcodeMapWordsDecode : Prop :=
  decodeWord 0x00000000#32 = .nop 0#28 ∧ decodeWord 0xFFFFFFF1#32 = .compress 0xFFFFFFF#28 ∧
    decodeWord 0x00000002#32 = .decompress 0#28 ∧ decodeWord 0x00000007#32 = .reserved7 0#28 ∧
    decodeWord 0xABCDEF3E#32 = .reservedE 0xABCDEF3#28 ∧ decodeWord 0x0000000F#32 = .softReset 0#28 ∧
    decodeBytes [0xF0#8, 0xFF#8, 0xFF#8, 0xFF#8] = .ok (.nop 0xFFFFFFF#28) ∧
    decodeBytes [0x01#8] = .error (.notOneWord 1)

/-- 46_commands.md R280: the dispatch of a write of v to CMD. -/
def Obligations.CmdWritesDispatchByOpAndPhase : Prop :=
  ∀ (v : Word) (s : State),
    exec (decodeWord v) s =
      if v.extractLsb' 0 4 = 0xF#4 then .next (resetCore s)
      else if v.extractLsb' 0 4 = 0x0#4 then .next s
      else if s.phase = .busy then .next { s with regs := { s.regs with cmdIgnored := true } }
      else if v.extractLsb' 0 4 = 0x1#4 then .next (start .compress s)
      else if v.extractLsb' 0 4 = 0x2#4 then .next (start .decompress s)
      else .next (fail .illegalCommand { s with regs := clearResults s.regs })

/-- 30_encoding.md R100: a step that finds a 32-bit write to CMD as the next operation runs the decoded command, after the
operation has left the queue and one step of a running command's latency has passed (logs 1 and 2); `withFetchWord` arranges
that. While the reset input is asserted such a write runs nothing (70_reset_and_hazards.md R360). -/
def Obligations.StepRunsTheDecodedCommand : Prop :=
  (∀ (s : State) (v : Word) (rest : List BusOp), ¬(s.phase = .busy ∧ s.wait = 0) →
    s.queue = .regWrite .w32 cmdOffset v :: rest →
    (s.inReset = false → step s = exec (decodeWord v) { s with queue := rest, wait := s.wait - 1 }) ∧
    (s.inReset = true → step s = .next { s with queue := rest, wait := s.wait - 1 })) ∧
  (∀ (s : State) (v : Word),
    step (s.withFetchWord 32 v.toNat) = exec (decodeWord v) { s with wait := s.wait - 1, inReset := false })

/-! ## Commands -/

/-- 46_commands.md R282: NOP changes nothing, whatever its ignored bits and in either phase. -/
def Obligations.NopLeavesAllStateUnchanged : Prop :=
  ∀ (v : Word) (s : State), v.extractLsb' 0 4 = 0x0#4 →
    (∃ g, decodeWord v = .nop g) ∧ exec (decodeWord v) s = .next s

/-- 46_commands.md R283: a reserved opcode in IDLE clears the results and fails with ILLEGAL_COMMAND; the phase stays IDLE
and nothing else changes. Twelve constructors, RESERVED_3 to RESERVED_E. -/
def Obligations.ReservedOpcodesFailWithIllegalCommand : Prop :=
  ∀ (g : BitVec 28) (s : State), s.phase = .idle →
    ∀ i ∈ [Instr.reserved3 g, .reserved4 g, .reserved5 g, .reserved6 g, .reserved7 g, .reserved8 g, .reserved9 g,
        .reservedA g, .reservedB g, .reservedC g, .reservedD g, .reservedE g],
      exec i s = .next
        { s with
          regs :=
            { s.regs with
              done := false, err := true, errCode := .illegalCommand, resultLen := 0, symCount := 0, distinct := 0,
              tableLen := 0, payloadBits := 0 } }

/-- 46_commands.md R281: a command write of OP 0x1..0xE in BUSY changes nothing except CMD_IGNORED. -/
def Obligations.CommandsAreDroppedWhileBusy : Prop :=
  ∀ (g : BitVec 28) (s : State), s.phase = .busy →
    ∀ i ∈ [Instr.compress g, .decompress g, .reserved3 g, .reserved4 g, .reserved5 g, .reserved6 g, .reserved7 g,
        .reserved8 g, .reserved9 g, .reservedA g, .reservedB g, .reservedC g, .reservedD g, .reservedE g],
      exec i s = .next { s with regs := { s.regs with cmdIgnored := true } }

/-- 46_commands.md R284, 70_reset_and_hazards.md R360: SOFT_RESET puts every register at its reset value and the phase at
IDLE, `irq` goes low, and memory keeps every byte except, if a command was running, those of its destination range. Asserting
the reset input does the same, and while it stays asserted no write to any offset of the window, CMD included, changes
anything; releasing it changes nothing else. The reset input as an operation of the queue is the model's form (DESIGN CHOICE,
logs 1 and 16). -/
def Obligations.ResetsRestoreEveryRegister : Prop :=
  (∀ (g : BitVec 28) (s : State), ∃ t, exec (.softReset g) s = .next t ∧
    t.regs =
      { mode := 0, done := false, err := false, cmdIgnored := false, doneIe := false, errIe := false, errCode := .none,
        srcAddr := 0, srcLen := 0, dstAddr := 0, dstCap := 0, resultLen := 0, symCount := 0, distinct := 0,
        tableLen := 0, payloadBits := 0 } ∧
    t.phase = .idle ∧ irqLevel t.regs = false ∧ t.plat = s.plat ∧ t.queue = s.queue ∧ t.replies = s.replies ∧
    (s.phase = .idle → t.mem = s.mem) ∧
    (s.phase = .busy → SameOutside s.mem t.mem s.lat.dstAddr.toNat s.lat.dstCap.toNat)) ∧
  (∀ (s : State) (rest : List BusOp), ¬(s.phase = .busy ∧ s.wait = 0) → s.queue = .reset true :: rest →
    ∃ t, step s = .next t ∧ t.regs = Regs.reset ∧ t.phase = .idle ∧ t.inReset = true ∧ irqLevel t.regs = false ∧
      t.plat = s.plat ∧ t.queue = rest ∧ t.replies = s.replies ∧ (s.phase = .idle → t.mem = s.mem) ∧
      (s.phase = .busy → SameOutside s.mem t.mem s.lat.dstAddr.toNat s.lat.dstCap.toNat)) ∧
  (∀ (s : State) (w : AccessWidth) (o : BitVec 8) (v : Word) (rest : List BusOp),
    ¬(s.phase = .busy ∧ s.wait = 0) → s.inReset = true → s.queue = .regWrite w o v :: rest →
    step s = .next { s with queue := rest, wait := s.wait - 1 }) ∧
  (∀ (s : State) (rest : List BusOp), ¬(s.phase = .busy ∧ s.wait = 0) → s.queue = .reset false :: rest →
    step s = .next { s with queue := rest, wait := s.wait - 1, inReset := false })

/-- 46_commands.md R285: Start clears DONE, ERR, ERR_CODE and the results, latches the operands and makes the phase BUSY;
CMD_IGNORED, the operand registers, IRQ_EN and memory stay. -/
def Obligations.StartLatchesTheOperands : Prop :=
  ∀ (g : BitVec 28) (s : State), s.phase = .idle →
    ∀ c ∈ [(Instr.compress g, CmdOp.compress), (.decompress g, .decompress)],
      ∃ t, exec c.1 s = .next t ∧ t.phase = .busy ∧
        t.lat =
          { op := c.2, dtype := s.regs.mode, srcAddr := s.regs.srcAddr, srcLen := s.regs.srcLen,
            dstAddr := s.regs.dstAddr, dstCap := s.regs.dstCap } ∧
        t.regs =
          { s.regs with
            done := false, err := false, errCode := .none, resultLen := 0, symCount := 0, distinct := 0, tableLen := 0,
            payloadBits := 0 } ∧
        irqLevel t.regs = false ∧ t.mem = s.mem ∧ t.plat = s.plat ∧ t.queue = s.queue ∧ t.replies = s.replies

/-- 60_exceptions.md R331 for COMPRESS (46_commands.md R290): started in IDLE on a named data type with valid ranges that
do not overlap, a COMPRESS whose source bytes have a container that fits writes that container, reports its counts, sets
DONE and returns to IDLE. Every byte outside the container keeps its value. -/
def Obligations.CompressWritesItsContainerAndSucceeds : Prop :=
  ∀ (g : BitVec 28) (s : State) (d : DataType) (r : Success),
    s.phase = .idle → dtypeOf s.regs.mode = some d →
    rangeOk s.plat s.regs.srcAddr.toNat s.regs.srcLen.toNat = true →
    rangeOk s.plat s.regs.dstAddr.toNat s.regs.dstCap.toNat = true →
    overlap s.regs.srcAddr.toNat s.regs.srcLen.toNat s.regs.dstAddr.toNat s.regs.dstCap.toNat = false →
    compressBytes s.plat.maxDistinct d (s.mem.readAll s.regs.srcAddr.toNat s.regs.srcLen.toNat) s.regs.dstCap.toNat =
      .ok r →
    ∃ t u, exec (.compress g) s = .next t ∧ step { t with wait := 0 } = .next u ∧
      HoldsBytes u.mem s.regs.dstAddr.toNat r.out ∧ SameOutside s.mem u.mem s.regs.dstAddr.toNat r.out.length ∧
      u.regs =
        { s.regs with
          done := true, err := false, errCode := .none, resultLen := BitVec.ofNat 32 r.out.length,
          symCount := BitVec.ofNat 32 r.symCount, distinct := BitVec.ofNat 32 r.distinct,
          tableLen := BitVec.ofNat 32 r.tableLen, payloadBits := BitVec.ofNat 32 r.payloadBits } ∧
      u.phase = .idle ∧ u.plat = s.plat ∧ u.queue = s.queue ∧ u.replies = s.replies

/-- 60_exceptions.md R331 for DECOMPRESS (46_commands.md R300): started in IDLE with valid ranges that do not overlap, a
DECOMPRESS of a container whose bytes fit writes them, reports its counts, sets DONE and returns to IDLE; whatever MODE
holds. Every byte outside the output keeps its value. -/
def Obligations.DecompressWritesItsBytesAndSucceeds : Prop :=
  ∀ (g : BitVec 28) (s : State) (r : Success),
    s.phase = .idle →
    rangeOk s.plat s.regs.srcAddr.toNat s.regs.srcLen.toNat = true →
    rangeOk s.plat s.regs.dstAddr.toNat s.regs.dstCap.toNat = true →
    overlap s.regs.srcAddr.toNat s.regs.srcLen.toNat s.regs.dstAddr.toNat s.regs.dstCap.toNat = false →
    decompressBytes s.plat.maxDistinct (s.mem.readAll s.regs.srcAddr.toNat s.regs.srcLen.toNat) s.regs.dstCap.toNat =
      .ok r →
    ∃ t u, exec (.decompress g) s = .next t ∧ step { t with wait := 0 } = .next u ∧
      HoldsBytes u.mem s.regs.dstAddr.toNat r.out ∧ SameOutside s.mem u.mem s.regs.dstAddr.toNat r.out.length ∧
      u.regs =
        { s.regs with
          done := true, err := false, errCode := .none, resultLen := BitVec.ofNat 32 r.out.length,
          symCount := BitVec.ofNat 32 r.symCount, distinct := BitVec.ofNat 32 r.distinct,
          tableLen := BitVec.ofNat 32 r.tableLen, payloadBits := BitVec.ofNat 32 r.payloadBits } ∧
      u.phase = .idle ∧ u.plat = s.plat ∧ u.queue = s.queue ∧ u.replies = s.replies

/-- 60_exceptions.md R330: a command that comes to an error E reports E, sets ERR, clears DONE, leaves the result registers
as the start cleared them, and returns to IDLE; no other register changes. R320, 10_state.md R33: the number that ERR_CODE
reads for each code. -/
def Obligations.AFailedCommandReportsItsError : Prop :=
  (∀ (s : State) (e : ErrCode), s.phase = .busy → s.wait = 0 →
    (s.lat.op = .compress ∧ compressResult s = .error e ∨ s.lat.op = .decompress ∧ decompressResult s = .error e) →
    ∃ u, step s = .next u ∧ u.regs = { s.regs with errCode := e, err := true, done := false } ∧ u.phase = .idle ∧
      u.plat = s.plat ∧ u.queue = s.queue ∧ u.replies = s.replies) ∧
  (∀ t : State,
    ∀ c ∈ [(ErrCode.none, 0x0#32), (.unsupportedInputType, 0x1#32), (.emptyInput, 0x2#32), (.malformedContainer, 0x3#32),
        (.unsupportedDataType, 0x4#32), (.corruptPayload, 0x5#32), (.capacity, 0x6#32), (.outputOverflow, 0x7#32),
        (.busError, 0x8#32), (.illegalCommand, 0x9#32), (.bufferOverlap, 0xA#32)],
      t.regs.errCode = c.1 → readWindow t .w32 0x1C#8 = c.2)

/-- 46_commands.md R293: a COMPRESS of an empty source with DST_CAP at least 9 writes the 9-byte container of its data type. -/
def Obligations.EmptyInputGivesTheNineByteContainer : Prop :=
  ∀ (s : State) (d : DataType), s.phase = .busy → s.wait = 0 → s.lat.op = .compress → dtypeOf s.lat.dtype = some d →
    s.lat.srcLen = 0 → rangeOk s.plat s.lat.dstAddr.toNat s.lat.dstCap.toNat = true → 9 ≤ s.lat.dstCap.toNat →
    ∃ u, step s = .next u ∧
      HoldsBytes u.mem s.lat.dstAddr.toNat [tagByte d, 0, 0, 0, 0, 0, 0, 0, 0] ∧
      SameOutside s.mem u.mem s.lat.dstAddr.toNat 9 ∧
      u.regs =
        { s.regs with
          done := true, errCode := .none, resultLen := 9, symCount := 0, distinct := 0, tableLen := 0,
          payloadBits := 0 } ∧
      u.phase = .idle

/-- 60_exceptions.md R325: when several errors apply, the code reported is the one whose check comes first: for COMPRESS in
the order of 46_commands.md R290, for DECOMPRESS in the order of R300 and of 45_container.md R250, whose structural checks all
report MALFORMED_CONTAINER: T, the table, B or the payload truncated, bytes after the payload, or a table that does not parse
(`TheParserReadsTheSerializedTable` says which do). -/
def Obligations.TheFirstFailingCheckIsReported : Prop :=
  (∀ s : State, s.phase = .busy → s.wait = 0 → s.lat.op = .compress →
    ∃ u, step s = .next u ∧
      (dtypeOf s.lat.dtype = none → u.regs.errCode = .unsupportedInputType) ∧
      (∀ d, dtypeOf s.lat.dtype = some d →
        (¬(rangeOk s.plat s.lat.srcAddr.toNat s.lat.srcLen.toNat = true ∧
            rangeOk s.plat s.lat.dstAddr.toNat s.lat.dstCap.toNat = true) → u.regs.errCode = .busError) ∧
        (rangeOk s.plat s.lat.srcAddr.toNat s.lat.srcLen.toNat = true →
          rangeOk s.plat s.lat.dstAddr.toNat s.lat.dstCap.toNat = true →
          (overlap s.lat.srcAddr.toNat s.lat.srcLen.toNat s.lat.dstAddr.toNat s.lat.dstCap.toNat = true →
            u.regs.errCode = .bufferOverlap) ∧
          (overlap s.lat.srcAddr.toNat s.lat.srcLen.toNat s.lat.dstAddr.toNat s.lat.dstCap.toNat = false →
            (d = .text → utf8Dec (s.mem.readAll s.lat.srcAddr.toNat s.lat.srcLen.toNat) = none →
              u.regs.errCode = .unsupportedInputType) ∧
            (∀ syms, symbolize d (s.mem.readAll s.lat.srcAddr.toNat s.lat.srcLen.toNat) = .ok syms →
              (s.plat.maxDistinct < (freqTable syms).length → u.regs.errCode = .capacity) ∧
              ((freqTable syms).length ≤ s.plat.maxDistinct → codewordTable (freqTable syms) = .error .capacity →
                u.regs.errCode = .capacity) ∧
              ((freqTable syms).length ≤ s.plat.maxDistinct → ∀ cw, codewordTable (freqTable syms) = .ok cw →
                (2 ^ 32 - 1 < bitCount (freqTable syms) cw → u.regs.errCode = .capacity) ∧
                (bitCount (freqTable syms) cw ≤ 2 ^ 32 - 1 →
                  (s.lat.dstCap.toNat < 9 + (serializeTable d cw).length + ceil8 (bitCount (freqTable syms) cw) →
                    u.regs.errCode = .outputOverflow) ∧
                  (9 + (serializeTable d cw).length + ceil8 (bitCount (freqTable syms) cw) ≤ s.lat.dstCap.toNat →
                    u.regs.errCode = .none ∧ u.regs.done = true)))))))) ∧
  (∀ (s : State) (c : List Byte), s.phase = .busy → s.wait = 0 → s.lat.op = .decompress →
    c = s.mem.readAll s.lat.srcAddr.toNat s.lat.srcLen.toNat →
    ∃ u, step s = .next u ∧
      (¬(rangeOk s.plat s.lat.srcAddr.toNat s.lat.srcLen.toNat = true ∧
          rangeOk s.plat s.lat.dstAddr.toNat s.lat.dstCap.toNat = true) → u.regs.errCode = .busError) ∧
      (rangeOk s.plat s.lat.srcAddr.toNat s.lat.srcLen.toNat = true →
        rangeOk s.plat s.lat.dstAddr.toNat s.lat.dstCap.toNat = true →
        (overlap s.lat.srcAddr.toNat s.lat.srcLen.toNat s.lat.dstAddr.toNat s.lat.dstCap.toNat = true →
          u.regs.errCode = .bufferOverlap) ∧
        (overlap s.lat.srcAddr.toNat s.lat.srcLen.toNat s.lat.dstAddr.toNat s.lat.dstCap.toNat = false →
          (c = [] → u.regs.errCode = .malformedContainer) ∧
          (∀ t rest, c = t :: rest →
            (2 ≤ t.toNat → u.regs.errCode = .unsupportedDataType) ∧
            (∀ tag, tagOf t = some tag →
              (c.length < 5 → u.regs.errCode = .malformedContainer) ∧
              (c.length < 5 + tableLenOf c → u.regs.errCode = .malformedContainer) ∧
              (parseTable tag (slice c 5 (5 + tableLenOf c)) = none → u.regs.errCode = .malformedContainer) ∧
              (c.length < 9 + tableLenOf c → u.regs.errCode = .malformedContainer) ∧
              (c.length ≠ 9 + tableLenOf c + ceil8 (bitLenOf c (tableLenOf c)) → u.regs.errCode = .malformedContainer) ∧
              (∀ entries, parseTable tag (slice c 5 (5 + tableLenOf c)) = some entries →
                c.length = 9 + tableLenOf c + ceil8 (bitLenOf c (tableLenOf c)) →
                (s.plat.maxDistinct < entries.length → u.regs.errCode = .capacity) ∧
                (entries.length ≤ s.plat.maxDistinct →
                  (tableValid entries = false → u.regs.errCode = .malformedContainer) ∧
                  (tableValid entries = true →
                    (unpack (c.drop (9 + tableLenOf c)) (bitLenOf c (tableLenOf c)) (inverseTable entries) =
                        .error .corruptPayload → u.regs.errCode = .corruptPayload) ∧
                    (∀ syms,
                      unpack (c.drop (9 + tableLenOf c)) (bitLenOf c (tableLenOf c)) (inverseTable entries) = .ok syms →
                      (s.lat.dstCap.toNat < (reassemble tag syms).length → u.regs.errCode = .outputOverflow) ∧
                      ((reassemble tag syms).length ≤ s.lat.dstCap.toNat →
                        u.regs.errCode = .none ∧ u.regs.done = true))))))))))

/-- 60_exceptions.md R332: what memory holds after an error. -/
def Obligations.MemoryAfterAnError : Prop :=
  (∀ s : State, s.phase = .busy → s.wait = 0 → ∃ u, step s = .next u ∧
    (u.regs.errCode ≠ .none → s.lat.op = .compress → u.mem = s.mem) ∧
    (u.regs.errCode ≠ .none → s.lat.op = .decompress → u.regs.errCode ≠ .corruptPayload →
      u.regs.errCode ≠ .outputOverflow → u.mem = s.mem) ∧
    (u.regs.errCode ≠ .none → s.lat.op = .decompress →
      SameOutside s.mem u.mem s.lat.dstAddr.toNat s.lat.dstCap.toNat)) ∧
  (∀ (v : Word) (s : State), s.phase = .idle → 3 ≤ (v.extractLsb' 0 4).toNat → (v.extractLsb' 0 4).toNat ≤ 14 →
    ∃ u, exec (decodeWord v) s = .next u ∧ u.regs.errCode = .illegalCommand ∧ u.mem = s.mem)

/-- 20_memory.md R76: a command changes no byte outside its destination range, and one that succeeds changes none but the
first RESULT_LEN of it; what it reports and writes depends on no byte outside its source range. -/
def Obligations.CommandsStayInsideTheirBuffers : Prop :=
  (∀ s : State, s.phase = .busy → s.wait = 0 → ∃ u, step s = .next u ∧
    SameOutside s.mem u.mem s.lat.dstAddr.toNat s.lat.dstCap.toNat ∧
    (u.regs.errCode = .none → SameOutside s.mem u.mem s.lat.dstAddr.toNat u.regs.resultLen.toNat ∧
      u.regs.resultLen.toNat ≤ s.lat.dstCap.toNat)) ∧
  (∀ (s : State) (m : Memory), s.phase = .busy → s.wait = 0 →
    (∀ a, s.lat.inSource a = true → m.read a = s.mem.read a) →
    ∃ u u', step s = .next u ∧ step { s with mem := m } = .next u' ∧ u'.regs = u.regs ∧
      (u.regs.errCode = .none → ∀ i, i < u.regs.resultLen.toNat →
        u'.mem.read (s.lat.dstAddr.toNat + i) = u.mem.read (s.lat.dstAddr.toNat + i)))

/-- 46_commands.md R302: a command ends with its bytes written and valid, or with an error and every result register 0;
never anything between. The premises are what a start leaves (`StartLatchesTheOperands`). -/
def Obligations.CommandsAreAllOrNothing : Prop :=
  ∀ s : State, s.phase = .busy → s.wait = 0 → s.regs.NoResult → s.regs.err = false →
    ∃ u, step s = .next u ∧ u.phase = .idle ∧
      ((u.regs.done = true ∧ u.regs.err = false ∧ u.regs.errCode = .none ∧
          ∃ r, (s.lat.op = .compress ∧ compressResult s = .ok r ∨ s.lat.op = .decompress ∧ decompressResult s = .ok r) ∧
            u.regs.resultLen = BitVec.ofNat 32 r.out.length ∧ HoldsBytes u.mem s.lat.dstAddr.toNat r.out) ∨
        (u.regs.done = false ∧ u.regs.err = true ∧ u.regs.errCode ≠ .none ∧ u.regs.NoResult))

/-- 46_commands.md R301: DECOMPRESS reads MODE at no point, neither the register nor its latched copy. -/
def Obligations.DecompressNeverReadsMode : Prop :=
  ∀ (s : State) (m d : BitVec 2), s.phase = .busy → s.wait = 0 → s.lat.op = .decompress →
    ∃ u, step s = .next u ∧
      step { s with regs := { s.regs with mode := m }, lat := { s.lat with dtype := d } } =
        .next { u with regs := { u.regs with mode := m } }

/-- 60_exceptions.md R322: EMPTY_INPUT is never reported by a command, nor by any other step. -/
def Obligations.EmptyInputIsNeverReported : Prop :=
  ∀ s t : State, step s = .next t → t.regs.errCode = .emptyInput → s.regs.errCode = .emptyInput

/-- 70_reset_and_hazards.md R371: a write to an operand register during BUSY takes effect in the register and not in the
running command, which writes the same bytes and reports the same. (`RegisterWritesActByAccessType` says that a write during
BUSY is this `writeWindow`.) -/
def Obligations.OperandWritesDoNotReachTheRunningCommand : Prop :=
  ∀ (s : State) (v : Word), s.phase = .busy → s.wait = 0 →
    ∀ o ∈ [(0x10#8, v &&& 0x3#32), (0x20#8, v), (0x24#8, v), (0x28#8, v), (0x2C#8, v)],
      ∃ u u', step s = .next u ∧ step (writeWindow s .w32 o.1 v) = .next u' ∧
        u'.mem = u.mem ∧ u'.phase = u.phase ∧ readWindow u' .w32 o.1 = o.2 ∧
        (∀ q ∈ [0x14#8, 0x1C#8, 0x30#8, 0x34#8, 0x38#8, 0x3C#8, 0x40#8], readWindow u' .w32 q = readWindow u .w32 q)

/-- 70_reset_and_hazards.md R375: a running command that nothing disturbs finishes after the steps of its latency. -/
def Obligations.ARunningCommandFinishes : Prop :=
  ∀ s : State, s.phase = .busy → s.queue = [] →
    ∃ t : State, Host.Core.run Sys2Proof.core (s.wait + 1) s = .next t ∧ t.phase = .idle ∧
      (t.regs.done = true ∧ t.regs.errCode = .none ∨ t.regs.err = true)

/-- 95_test_vectors.md P5, 70_reset_and_hazards.md R375: a command write that comes while a command runs is dropped if the
command has not finished, and is taken up after it if it has; both orders are in the model. -/
def Obligations.ACommandWriteMeetsARunningCommandInEitherOrder : Prop :=
  ∀ (s : State) (g : BitVec 28) (rest : List BusOp), s.phase = .busy → s.inReset = false →
    s.queue = issue (.decompress g) :: rest →
    (0 < s.wait → ∃ t, step s = .next t ∧ t.phase = .busy ∧ t.regs.cmdIgnored = true ∧ t.lat = s.lat ∧ t.queue = rest) ∧
    (s.wait = 0 → ∃ t u, step s = .next t ∧ t.phase = .idle ∧ t.regs.cmdIgnored = s.regs.cmdIgnored ∧
      step t = .next u ∧ u.phase = .busy ∧ u.lat.op = .decompress ∧ u.queue = rest)

/-! ## Registers and the interrupt -/

/-- 46_commands.md R287, 10_state.md R50: the STATUS read value, bit by bit, with `irq` in bit 4. -/
def Obligations.StatusReadsItsFields : Prop :=
  ∀ s : State,
    (readWindow s .w32 0x14#8).getLsbD 0 = decide (s.phase = .busy) ∧
    (readWindow s .w32 0x14#8).getLsbD 1 = s.regs.done ∧ (readWindow s .w32 0x14#8).getLsbD 2 = s.regs.err ∧
    (readWindow s .w32 0x14#8).getLsbD 3 = s.regs.cmdIgnored ∧
    (readWindow s .w32 0x14#8).getLsbD 4 = ((s.regs.done && s.regs.doneIe) || (s.regs.err && s.regs.errIe)) ∧
    ∀ i, 5 ≤ i → (readWindow s .w32 0x14#8).getLsbD i = false

/-- 46_commands.md R286, 10_state.md R21..R39: a 32-bit write of v at an offset sets RW fields to their bits of v, clears
W1C bits where v has a 1, and changes nothing else; what is read back at every offset, STATUS bit by bit; which register each
offset of R21 names. In both phases a step that finds such a write as the next operation, at any offset but CMD, does just
that with it (the queue and the latency are the model's, logs 1 and 2). A write to CMD is a command and does not come through
`writeWindow`. -/
def Obligations.RegisterWritesActByAccessType : Prop :=
  ∀ (s : State) (v : Word),
    (∀ o ∈ [0x20#8, 0x24#8, 0x28#8, 0x2C#8], readWindow (writeWindow s .w32 o v) .w32 o = v) ∧
    (∀ o ∈ [0x10#8, 0x18#8], readWindow (writeWindow s .w32 o v) .w32 o = v &&& 0x3#32) ∧
    (∀ i, 1 ≤ i → i ≤ 3 → (readWindow (writeWindow s .w32 0x14#8 v) .w32 0x14#8).getLsbD i =
      ((readWindow s .w32 0x14#8).getLsbD i && !v.getLsbD i)) ∧
    (∀ o : BitVec 8, o ∉ [0x10#8, 0x14#8, 0x18#8, 0x20#8, 0x24#8, 0x28#8, 0x2C#8] → writeWindow s .w32 o v = s) ∧
    (∀ o q : BitVec 8, q ≠ o → q ≠ 0x14#8 → readWindow (writeWindow s .w32 o v) .w32 q = readWindow s .w32 q) ∧
    (∀ (o : BitVec 8) (i : Nat), o ≠ 0x14#8 → i ≤ 3 →
      (readWindow (writeWindow s .w32 o v) .w32 0x14#8).getLsbD i = (readWindow s .w32 0x14#8).getLsbD i) ∧
    (∀ o : BitVec 8, o ≠ 0x14#8 → o ≠ 0x18#8 →
      readWindow (writeWindow s .w32 o v) .w32 0x14#8 = readWindow s .w32 0x14#8) ∧
    (readWindow (writeWindow s .w32 0x14#8 v) .w32 0x14#8).getLsbD 0 = (readWindow s .w32 0x14#8).getLsbD 0 ∧
    (∀ o : BitVec 8, (writeWindow s .w32 o v).mem = s.mem ∧ (writeWindow s .w32 o v).phase = s.phase ∧
      (writeWindow s .w32 o v).lat = s.lat ∧ (writeWindow s .w32 o v).queue = s.queue) ∧
    (readWindow s .w32 0x10#8 = s.regs.mode.setWidth 32 ∧ readWindow s .w32 0x20#8 = s.regs.srcAddr ∧
      readWindow s .w32 0x24#8 = s.regs.srcLen ∧ readWindow s .w32 0x28#8 = s.regs.dstAddr ∧
      readWindow s .w32 0x2C#8 = s.regs.dstCap ∧ readWindow s .w32 0x30#8 = s.regs.resultLen ∧
      readWindow s .w32 0x34#8 = s.regs.symCount ∧ readWindow s .w32 0x38#8 = s.regs.distinct ∧
      readWindow s .w32 0x3C#8 = s.regs.tableLen ∧ readWindow s .w32 0x40#8 = s.regs.payloadBits) ∧
    ((readWindow s .w32 0x18#8).getLsbD 0 = s.regs.doneIe ∧ (readWindow s .w32 0x18#8).getLsbD 1 = s.regs.errIe ∧
      ∀ i, 2 ≤ i → (readWindow s .w32 0x18#8).getLsbD i = false) ∧
    (∀ (o : BitVec 8) (rest : List BusOp), ¬(s.phase = .busy ∧ s.wait = 0) → s.inReset = false → o ≠ cmdOffset →
      s.queue = .regWrite .w32 o v :: rest →
      step s = .next (writeWindow { s with queue := rest, wait := s.wait - 1 } .w32 o v))

/-- 10_state.md R22, R23, R24: ID, VERSION and CAPS are constant and ignore every write. -/
def Obligations.ConstantRegistersStayAsTheyAre : Prop :=
  (∀ s : State, readWindow s .w32 0x00#8 = 0x48554643#32 ∧ readWindow s .w32 0x04#8 = 0x00010000#32 ∧
    readWindow s .w32 0x08#8 = BitVec.ofNat 32 s.plat.maxDistinct) ∧
  (∀ (s : State) (w : AccessWidth) (v : Word), writeWindow s w 0x00#8 v = s ∧ writeWindow s w 0x04#8 v = s ∧
    writeWindow s w 0x08#8 v = s) ∧
  (∀ s t : State, step s = .next t → t.plat = s.plat)

/-- 20_memory.md R75: an access of 8 or 16 bits, or at an offset that is no multiple of 4, does nothing when it is a write
and returns 0 when it is a read. -/
def Obligations.OtherWindowAccessesDoNothing : Prop :=
  ∀ (s : State) (w : AccessWidth) (o : BitVec 8) (v : Word) (rest : List BusOp),
    ¬(s.phase = .busy ∧ s.wait = 0) → (w ≠ .w32 ∨ o.toNat % 4 ≠ 0) →
    (s.queue = .regWrite w o v :: rest → step s = .next { s with queue := rest, wait := s.wait - 1 }) ∧
    (s.queue = .regRead w o :: rest →
      step s = .next { s with queue := rest, wait := s.wait - 1, replies := .reg 0 :: s.replies })

/-- 46_commands.md R286: a register read returns the value and changes nothing else; POLL reads again until it matches
(30_encoding.md R125). -/
def Obligations.RegisterReadsHaveNoSideEffect : Prop :=
  ∀ (s : State) (o : BitVec 8) (mask v : Word) (rest : List BusOp), ¬(s.phase = .busy ∧ s.wait = 0) →
    (s.queue = .regRead .w32 o :: rest →
      step s = .next { s with queue := rest, wait := s.wait - 1, replies := .reg (readWindow s .w32 o) :: s.replies }) ∧
    (s.queue = .poll o mask v :: rest →
      step s = .next
        { s with
          queue := if readWindow s .w32 o &&& mask = v then rest else .poll o mask v :: rest
          wait := s.wait - 1
          replies := .reg (readWindow s .w32 o) :: s.replies })

/-- 70_reset_and_hazards.md R374, 10_state.md R33: after a W1C of DONE or ERR the next read of STATUS sees the bit at 0, and
IRQ low if no other source is pending; ERR_CODE and the results stay. -/
def Obligations.AcknowledgingLowersTheInterrupt : Prop :=
  ∀ (s : State) (v : Word) (rest : List BusOp), ¬(s.phase = .busy ∧ s.wait = 0) → s.inReset = false →
    s.queue = .regWrite .w32 0x14#8 v :: rest →
    ∃ t, step s = .next t ∧
      (v.getLsbD 1 = true → (readWindow t .w32 0x14#8).getLsbD 1 = false) ∧
      (v.getLsbD 2 = true → (readWindow t .w32 0x14#8).getLsbD 2 = false) ∧
      (v.getLsbD 1 = true → v.getLsbD 2 = true → (readWindow t .w32 0x14#8).getLsbD 4 = false) ∧
      (v.getLsbD 1 = true → s.regs.err = false → (readWindow t .w32 0x14#8).getLsbD 4 = false) ∧
      (v.getLsbD 2 = true → s.regs.done = false → (readWindow t .w32 0x14#8).getLsbD 4 = false) ∧
      (∀ q ∈ [0x1C#8, 0x30#8, 0x34#8, 0x38#8, 0x3C#8, 0x40#8], readWindow t .w32 q = readWindow s .w32 q) ∧
      t.mem = s.mem ∧ t.phase = s.phase ∧ t.lat = s.lat

/-- 70_reset_and_hazards.md R373: while BUSY the results and ERR_CODE read 0, in every state that keeps the invariant. -/
def Obligations.ResultsReadZeroWhileBusy : Prop :=
  ∀ s : State, s.Inv → s.phase = .busy →
    ∀ o ∈ [0x1C#8, 0x30#8, 0x34#8, 0x38#8, 0x3C#8, 0x40#8], readWindow s .w32 o = 0#32

/-- 70_reset_and_hazards.md R361: what every register reads after reset, on any platform. -/
def Obligations.RegistersReadTheirResetValues : Prop :=
  ∀ (p : Platform) (o : BitVec 8),
    readWindow (State.resetOn p) .w32 o =
      (if o = 0x00#8 then 0x48554643#32 else if o = 0x04#8 then 0x00010000#32
        else if o = 0x08#8 then BitVec.ofNat 32 p.maxDistinct else 0#32) ∧
    (State.resetOn p).phase = .idle ∧ irqLevel (State.resetOn p).regs = false

/-! ## The machine as a whole -/

/-- The invariant holds right after reset, on the platform the spec leaves open. -/
def Obligations.InvariantHoldsAtReset : Prop := State.reset.Inv ∧ State.reset.plat.legal = true

/-- Every step keeps the invariant: the form of memory, DONE and ERR never together (10_state.md R27), the results and
ERR_CODE 0 while BUSY (70_reset_and_hazards.md R373), no result after an error (60_exceptions.md R330), every
register at its reset value and the phase IDLE while the reset input is asserted (70_reset_and_hazards.md R360), EMPTY_INPUT
never reported (R322). -/
def Obligations.EveryStepKeepsTheInvariant : Prop :=
  ∀ s t : State, s.Inv → step s = .next t → t.Inv

/-- 10_state.md R40: the phase becomes BUSY only by a COMPRESS or DECOMPRESS written to CMD, and IDLE only when the command
finishes or by SOFT_RESET or reset. -/
def Obligations.ThePhaseChangesOnlyAsItMay : Prop :=
  ∀ s t : State, step s = .next t →
    (s.phase = .idle → t.phase = .busy → ∃ v rest g, s.queue = .regWrite .w32 cmdOffset v :: rest ∧
      (decodeWord v = .compress g ∨ decodeWord v = .decompress g)) ∧
    (s.phase = .busy → t.phase = .idle →
      (s.wait = 0 ∧ t = coreStep s) ∨ (∃ rest, s.queue = .reset true :: rest) ∨
      (∃ v rest g, s.queue = .regWrite .w32 cmdOffset v :: rest ∧ decodeWord v = .softReset g))

/-- 20_memory.md R76, 70_reset_and_hazards.md R360, R378: a byte of memory changes only by a byte write of an agent to that
address, by a running command inside its destination range, or by abandoning one. -/
def Obligations.MemoryChangesOnlyAsItMay : Prop :=
  ∀ (s t : State) (a : Nat), step s = .next t → t.mem.read a ≠ s.mem.read a →
    (∃ w b rest, s.queue = .memWrite w b :: rest ∧ w.toNat = a ∧ t.mem.read a = b) ∨
    (s.phase = .busy ∧ s.lat.inDest a = true ∧
      (s.wait = 0 ∨ (∃ rest, s.queue = .reset true :: rest) ∨
        ∃ v rest g, s.queue = .regWrite .w32 cmdOffset v :: rest ∧ decodeWord v = .softReset g))

/-- 70_reset_and_hazards.md R370: during BUSY a write into the latched source or destination range has no meaning and the
run is refused; a read of the destination range returns some byte and changes nothing else. Both hold whether or not the
platform has memory there; an address of the register window is no memory (20_memory.md R71). -/
def Obligations.BuffersBelongToTheRunningCommand : Prop :=
  ∀ (s : State) (a : Word) (b : Byte) (rest : List BusOp),
    s.phase = .busy → 0 < s.wait → s.plat.inWindow a.toNat = false →
    (s.queue = .memWrite a b :: rest → s.lat.inSource a.toNat = true ∨ s.lat.inDest a.toNat = true →
      step s = .refused (.bufferWriteWhileBusy a)) ∧
    (s.queue = .memRead a :: rest → s.lat.inDest a.toNat = true →
      ∃ x t, step s = .next t ∧ t.replies = .mem x :: s.replies ∧ t.mem = s.mem ∧ t.regs = s.regs ∧ t.lat = s.lat ∧
        t.phase = .busy)

/-- 20_memory.md R71: outside a running command's buffers a write stores exactly the byte written and a read returns it and
changes nothing, in IDLE and, with latency left, in BUSY; a read outside the destination range, the source range included,
returns the byte of memory. -/
def Obligations.MemoryKeepsWhatAnAgentWrites : Prop :=
  (∀ (s : State) (a : Word) (b : Byte) (rest : List BusOp),
    (s.phase = .busy → 2 ≤ s.wait ∧ s.lat.inSource a.toNat = false ∧ s.lat.inDest a.toNat = false) →
    s.plat.memOk a.toNat = true → s.queue = .memWrite a b :: .memRead a :: rest →
    ∃ t u, step s = .next t ∧ step t = .next u ∧ u.replies = .mem b :: s.replies ∧ u.mem = t.mem ∧
      (∀ x, x ≠ a.toNat → t.mem.read x = s.mem.read x) ∧ t.regs = s.regs ∧ u.regs = s.regs ∧ t.phase = s.phase ∧
      u.phase = s.phase ∧ u.lat = s.lat ∧ u.queue = rest) ∧
  (∀ (s : State) (a : Word) (rest : List BusOp), ¬(s.phase = .busy ∧ s.wait = 0) →
    (s.phase = .busy → s.lat.inDest a.toNat = false) → s.plat.memOk a.toNat = true → s.queue = .memRead a :: rest →
    step s = .next
      { s with queue := rest, wait := s.wait - 1, replies := .mem (s.mem.read a.toNat) :: s.replies })

/-! ## Stages: bits, bytes and text -/

/-- 00_scope.md R8, 30_encoding.md R111: BE32 and its inverse, byte by byte. -/
def Obligations.BigEndianFieldsRoundTrip : Prop :=
  (∀ n, n < 2 ^ 32 → be32Inv (be32 n) = n ∧ (be32 n).length = 4) ∧
  (∀ b0 b1 b2 b3 : Byte,
    be32Inv [b0, b1, b2, b3] = b0.toNat * 2 ^ 24 + b1.toNat * 2 ^ 16 + b2.toNat * 2 ^ 8 + b3.toNat ∧
    be32 (be32Inv [b0, b1, b2, b3]) = [b0, b1, b2, b3])

/-- 30_encoding.md R112, 43_bit_packer.md R202: pack_bits makes ceil8(|s|) bytes, bit 8j+k of the string is bit 7-k of byte
j, and unpacking gives the string followed by between 0 and 7 zero bits. -/
def Obligations.PackedBitsStandMostSignificantFirst : Prop :=
  ∀ s : BitString,
    (packBits s).length = (s.length + 7) / 8 ∧
    (∀ j k, j < (packBits s).length → k < 8 → ((packBits s).getD j 0).getLsbD (7 - k) = s.getD (8 * j + k) false) ∧
    unpackBits (packBits s) = s ++ List.replicate (8 * ((s.length + 7) / 8) - s.length) false

/-- 30_encoding.md R120: what utf8_dec accepts is a sequence of scalar values whose encoding is the bytes. -/
def Obligations.DecodedTextIsScalarAndEncodesBack : Prop :=
  ∀ (x : List Byte) (cps : List Nat), utf8Dec x = some cps →
    utf8EncSeq cps = x ∧ (∀ cp ∈ cps, isScalar cp = true) ∧ cps.length ≤ x.length

/-- 30_encoding.md R119, R121: every sequence of scalar values is encoded in 1 to 4 bytes each, the bytes of each length being
those of R121, and decodes back. -/
def Obligations.EncodedTextDecodesBack : Prop :=
  (∀ cps : List Nat, (∀ cp ∈ cps, isScalar cp = true) →
    utf8Dec (utf8EncSeq cps) = some cps ∧ ∀ cp ∈ cps, 1 ≤ (utf8Enc cp).length ∧ (utf8Enc cp).length ≤ 4) ∧
  (∀ cp : Nat, isScalar cp = true →
    (utf8Enc cp).map BitVec.toNat =
      if cp < 0x80 then [cp]
      else if cp < 0x800 then [0xC0 + cp / 64, 0x80 + cp % 64]
      else if cp < 0x10000 then [0xE0 + cp / 4096, 0x80 + cp / 64 % 64, 0x80 + cp % 64]
      else [0xF0 + cp / 262144, 0x80 + cp / 4096 % 64, 0x80 + cp / 64 % 64, 0x80 + cp % 64])

/-! ## Stages: frequencies, tree, codewords -/

/-- 41_tree_builder.md R144: the table has one entry per distinct symbol, ascending, with its number of occurrences; the
counts sum to S; CAPACITY exactly when there are more than P_MAX_DISTINCT. R145: counted in 32 bits, the table is the same for
every sequence of at most 2^32-1 symbols. -/
def Obligations.FrequenciesAreCountsInAscendingOrder : Prop :=
  ∀ (m : Nat) (syms : List Nat),
    (freqTable syms).Pairwise (fun x y => x.1 < y.1) ∧
    (∀ s f, (s, f) ∈ freqTable syms ↔ s ∈ syms ∧ f = syms.count s) ∧
    ((freqTable syms).map Prod.snd).sum = syms.length ∧
    (m < (freqTable syms).length → countFreq m syms = .error .capacity) ∧
    ((freqTable syms).length ≤ m → countFreq m syms = .ok (freqTable syms)) ∧
    (syms.length ≤ 2 ^ 32 - 1 → storedTable (freqStore syms) = freqTable syms)

/-- 41_tree_builder.md R153: for N >= 1 the arena has 2N-1 nodes and the root is 2N-2, the only active one. -/
def Obligations.TheTreeHasTwiceAsManyNodesLessOne : Prop :=
  ∀ table : List (Nat × Nat), table ≠ [] →
    (buildTree table).nodes.length = 2 * table.length - 1 ∧ (buildTree table).active = [2 * table.length - 2] ∧
    (buildTree table).root = 2 * table.length - 2

/-- 41_tree_builder.md R154: the invariants of the tree. R145: no node frequency is above the total, and for a total of at most
2^32-1 the arena built with every frequency in 32 bits is the same. -/
def Obligations.TheTreeKeepsItsShape : Prop :=
  ∀ table : List (Nat × Nat), table ≠ [] →
    (∀ (k f l r : Nat), (buildTree table).nodes[k]? = some (Node.internal f l r) →
      l ≠ r ∧ l < k ∧ r < k ∧ f = freqAt (buildTree table).nodes l + freqAt (buildTree table).nodes r) ∧
    (∀ (k s f : Nat), (buildTree table).nodes[k]? = some (Node.leaf s f) ↔ table[k]? = some (s, f)) ∧
    freqAt (buildTree table).nodes (buildTree table).root = (table.map Prod.snd).sum ∧
    (∀ k, k < (buildTree table).root →
      ∃! p : Nat, ∃ f l r : Nat, (buildTree table).nodes[p]? = some (Node.internal f l r) ∧ (l = k ∨ r = k)) ∧
    (∀ n ∈ (buildTree table).nodes, n.freq ≤ (table.map Prod.snd).sum) ∧
    ((table.map Prod.snd).sum ≤ 2 ^ 32 - 1 → ∀ store : List (Nat × Word), storedTable store = table →
      (buildHeld store).nodes.map HeldNode.value = (buildTree table).nodes ∧
        (buildHeld store).active = (buildTree table).active)

/-- 41_tree_builder.md R150, R151, R152: each merge takes the two active nodes that come first by (freq, index), the first
of them as the left child. -/
def Obligations.EachMergeTakesTheTwoLeast : Prop :=
  ∀ (nodes : List Node) (active : List Nat), active.Nodup → 2 ≤ active.length →
    ∃ a b rest, mergeOnce { nodes := nodes, active := active } =
        { nodes := nodes ++ [.internal (freqAt nodes a + freqAt nodes b) a b], active := rest ++ [nodes.length] } ∧
      active.Perm (a :: b :: rest) ∧
      (∀ k ∈ b :: rest, freqAt nodes a < freqAt nodes k ∨ freqAt nodes a = freqAt nodes k ∧ a < k) ∧
      (∀ k ∈ rest, freqAt nodes b < freqAt nodes k ∨ freqAt nodes b = freqAt nodes k ∧ b < k)

/-- 41_tree_builder.md R155: the two-queue form builds the same arena. -/
def Obligations.TwoQueuesBuildTheSameTree : Prop :=
  ∀ table : List (Nat × Nat), buildTreeTwoQueue table = (buildTree table).nodes

/-- 42_codeword_table.md R183: for N >= 1 distinct symbols CW has exactly one entry for each; every codeword has length at
least 1, and for N >= 2 at most N-1 (41_tree_builder.md R158); for N >= 2 each is the path from the root to its symbol's leaf,
0 for left and 1 for right (R180, R182), so its length is the leaf's depth; none is a prefix of another; for N >= 2 the code is complete:
the sum of 2^-|cw| is 1, here over the common denominator 2^255, and for N = 1 it is 1/2. -/
def Obligations.CodewordsArePrefixFreeAndComplete : Prop :=
  ∀ (table : List (Nat × Nat)) (cw : List Entry), table ≠ [] → table.Pairwise (fun x y => x.1 < y.1) →
    codewordTable table = .ok cw →
    (cw.map Entry.sym).Perm (table.map Prod.fst) ∧
    (∀ e ∈ cw, 1 ≤ e.cw.length ∧ e.cw.length ≤ 255 ∧ (2 ≤ table.length → e.cw.length ≤ table.length - 1)) ∧
    (2 ≤ table.length → ∀ e ∈ cw, leafAt (buildTree table).nodes (buildTree table).root e.cw = some e.sym) ∧
    (table.length = 1 → ∀ e ∈ cw, e.cw = [false]) ∧
    cw.Pairwise (fun e f => ¬e.cw <+: f.cw ∧ ¬f.cw <+: e.cw) ∧
    (2 ≤ table.length → (cw.map fun e => 2 ^ (255 - e.cw.length)).sum = 2 ^ 255) ∧
    (table.length = 1 → (cw.map fun e => 2 ^ (255 - e.cw.length)).sum = 2 ^ 254)

/-- 41_tree_builder.md R158: with a total frequency of at most 2^32-1 no codeword is longer than 45 bits, so the check on
255 never fires. -/
def Obligations.NoCodewordIsLongerThan45Bits : Prop :=
  ∀ table : List (Nat × Nat), table ≠ [] → (∀ e ∈ table, 1 ≤ e.2) → (table.map Prod.snd).sum ≤ 2 ^ 32 - 1 →
    ∃ cw, codewordTable table = .ok cw ∧ ∀ e ∈ cw, e.cw.length ≤ 45

/-- 42_codeword_table.md R181, 43_bit_packer.md R200: a byte repeated k times, or a code point repeated k times as text, gets
the codeword [0], and its container holds k zero bits. -/
def Obligations.ASingleSymbolGetsOneZeroBit : Prop :=
  (∀ (m cap k : Nat) (b : Byte), 1 ≤ m → 1 ≤ k → k ≤ 2 ^ 32 - 1 → 13 + (k + 7) / 8 ≤ cap →
    compressBytes m .binary (List.replicate k b) cap =
      .ok
        { out := [1, 0, 0, 0, 4, 1, b, 1, 0] ++ be32 k ++ List.replicate ((k + 7) / 8) 0, symCount := k, distinct := 1,
          tableLen := 4, payloadBits := k }) ∧
  (∀ (m cap k cp : Nat), 1 ≤ m → 1 ≤ k → k ≤ 2 ^ 32 - 1 → isScalar cp = true →
    12 + (utf8Enc cp).length + (k + 7) / 8 ≤ cap →
    compressBytes m .text (utf8EncSeq (List.replicate k cp)) cap =
      .ok
        { out := [0, 0, 0, 0, BitVec.ofNat 8 (3 + (utf8Enc cp).length), BitVec.ofNat 8 (utf8Enc cp).length] ++ utf8Enc cp ++
            [1, 0] ++ be32 k ++ List.replicate ((k + 7) / 8) 0,
          symCount := k, distinct := 1, tableLen := 3 + (utf8Enc cp).length, payloadBits := k })

/-! ## Stages: packing and unpacking -/

/-- 43_bit_packer.md R201: B from the frequency table is the number of bits packed. -/
def Obligations.TheBitCountIsKnownBeforePacking : Prop :=
  ∀ (syms : List Nat) (cw : List Entry), bitCount (freqTable syms) cw = (codeBits syms cw).length

/-- 43_bit_packer.md R205: the bytes that leave the accumulator are exactly pack_bits of the codewords, and PACC never holds
more than 7 + MAX_CW_LEN bits. That the 32-bit count of 10_state.md R46 is that of the bits in the bytes that have left PACC is
the model's reading of "bits emitted so far" (DEDUCED, log 22). -/
def Obligations.ThePackersDatapathPacksTheBits : Prop :=
  ∀ (syms : List Nat) (cw : List Entry), (∀ e ∈ cw, e.cw.length ≤ 255) →
    flushPacker (packStream syms cw) = packBits (codeBits syms cw) ∧
    (packStream syms cw).pacc.length ≤ 7 ∧
    (8 * (packStream syms cw).out.length < 2 ^ 32 →
      (packStream syms cw).count.toNat = 8 * (packStream syms cw).out.length) ∧
    ∀ s, ((packStream syms cw).pacc ++ codewordOf cw s).length ≤ 7 + 255

/-- 44_bit_unpacker.md R223: stopping as soon as UACC is no prefix of any codeword changes no result. R224: the datapath that
reads payload bytes in ascending order, counts the bits it consumes in 32 bits and stops after B of them gives the result of
R220; and for a valid table of non-empty codewords so does a walk over a decode tree. That the datapath neither stops early nor
holds UACC to MAX_CW_LEN bits (10_state.md R47) is the model's choice, and the value of the count rests on
it (DESIGN CHOICE, log 25). -/
def Obligations.StoppingEarlyChangesNoResult : Prop :=
  (∀ (inv : List (BitString × Nat)) (bits : BitString), matchBitsEarly inv bits [] = matchBits inv bits []) ∧
  (∀ (payload : List Byte) (b : Nat) (inv : List (BitString × Nat)), b ≤ 2 ^ 32 - 1 →
    unpackDatapath payload b inv = unpack payload b inv ∧
      (unpackStream payload b inv).count.toNat = min b (8 * payload.length)) ∧
  (∀ (cw : List Entry) (bits : BitString), tableValid cw = true → (∀ e ∈ cw, e.cw ≠ []) →
    matchTree (decodeTree (inverseTable cw)) bits none = matchBits (inverseTable cw) bits [])

/-- 44_bit_unpacker.md R220, R221, R222: with a valid table of non-empty codewords the greedy walk gives back the symbols
packed; it succeeds exactly when the bits are a concatenation of codewords, and left-over bits are CORRUPT_PAYLOAD. -/
def Obligations.GreedyMatchingIsExact : Prop :=
  (∀ (cw : List Entry) (syms : List Nat), tableValid cw = true → (∀ e ∈ cw, e.cw ≠ []) →
    (∀ s ∈ syms, ∃ e ∈ cw, e.sym = s) →
    unpack (packBits (codeBits syms cw)) (codeBits syms cw).length (inverseTable cw) = .ok syms) ∧
  (∀ (cw : List Entry) (payload : List Byte) (b : Nat), tableValid cw = true → (∀ e ∈ cw, e.cw ≠ []) →
    (unpack payload b (inverseTable cw) = .error .corruptPayload ∧
        ¬∃ syms, (∀ s ∈ syms, ∃ e ∈ cw, e.sym = s) ∧ codeBits syms cw = (unpackBits payload).take b) ∨
      ∃ syms, unpack payload b (inverseTable cw) = .ok syms ∧ (∀ s ∈ syms, ∃ e ∈ cw, e.sym = s) ∧
        codeBits syms cw = (unpackBits payload).take b)

/-! ## Stages: the container -/

/-- 45_container.md R261: TableValid is true exactly when no two entries have the same symbol and no codeword is a prefix of
another. -/
def Obligations.TableValidMeansUniqueAndPrefixFree : Prop :=
  ∀ entries : List Entry,
    tableValid entries = true ↔
      ∀ (i j : Nat) (e f : Entry), i ≠ j → entries[i]? = some e → entries[j]? = some f → e.sym ≠ f.sym ∧ ¬e.cw <+: f.cw

/-- 45_container.md R254: a container that parses is exactly 9 + T + ceil8(B) bytes long; one with bytes after its payload
is malformed. -/
def Obligations.AContainerHasItsExactLength : Prop :=
  (∀ (m : Nat) (c : List Byte) (p : Parsed), parseContainer m c = .ok p →
    c.length = 9 + p.tableLen + (p.payloadBits + 7) / 8 ∧ p.payload.length = (p.payloadBits + 7) / 8) ∧
  (∀ (m m' : Nat) (c extra : List Byte) (p : Parsed), parseContainer m c = .ok p → extra ≠ [] →
    parseContainer m' (c ++ extra) = .error .malformedContainer)

/-- 45_container.md R241, R255: the parser reads back the table the serializer writes, in ascending order of symbol. R255, R256:
which tables parse: the empty one, and one whose first entry has a symbol field that names one symbol, a cw_len that is not 0
and all of its bytes, and whose rest parses; padding bits of the codeword may have any value (30_encoding.md R113). 10_state.md
R48: on a source of at most 2^32-1 bytes the parser that advances the 32-bit cursor PCUR from field to field gives what
`ParseContainer` gives, and leaves the cursor at the end of the source; that it starts at 0 is the model's reading (DEDUCED,
log 22). -/
def Obligations.TheParserReadsTheSerializedTable : Prop :=
  (∀ (d : DataType) (cw : List Entry),
    (∀ e ∈ cw, 1 ≤ e.cw.length ∧ e.cw.length ≤ 255 ∧
      (d = .binary → e.sym < 256) ∧ (d = .text → isScalar e.sym = true)) →
    parseTable d (serializeTable d cw) = some (sortBySym cw) ∧ (sortBySym cw).Perm cw ∧
      (sortBySym cw).Pairwise (fun e f => e.sym ≤ f.sym)) ∧
  (∀ d : DataType, parseTable d [] = some []) ∧
  (∀ (sl : Byte) (t : List Byte),
    (sl.toNat ≠ 1 → parseTable .binary (sl :: t) = none) ∧
    (¬(1 ≤ sl.toNat ∧ sl.toNat ≤ 4) → parseTable .text (sl :: t) = none)) ∧
  (∀ (d : DataType) (sl : Byte) (t : List Byte), t.length ≤ sl.toNat → parseTable d (sl :: t) = none) ∧
  (∀ (sl : Byte) (sb t : List Byte), sb.length = sl.toNat → (∀ cp, utf8Dec sb ≠ some [cp]) →
    parseTable .text (sl :: (sb ++ t)) = none) ∧
  (∀ (d : DataType) (sl cl : Byte) (sb u : List Byte), sb.length = sl.toNat →
    (cl.toNat = 0 → parseTable d (sl :: (sb ++ cl :: u)) = none) ∧
    (u.length < (cl.toNat + 7) / 8 → parseTable d (sl :: (sb ++ cl :: u)) = none)) ∧
  (∀ (cl : Byte) (cb u : List Byte), 1 ≤ cl.toNat → cb.length = (cl.toNat + 7) / 8 →
    (∀ b : Byte, parseTable .binary (1 :: b :: cl :: (cb ++ u)) =
      (parseTable .binary u).map ({ sym := b.toNat, cw := (unpackBits cb).take cl.toNat } :: ·)) ∧
    (∀ (sl : Byte) (sb : List Byte) (cp : Nat), sb.length = sl.toNat → utf8Dec sb = some [cp] →
      parseTable .text (sl :: (sb ++ cl :: (cb ++ u))) =
        (parseTable .text u).map ({ sym := cp, cw := (unpackBits cb).take cl.toNat } :: ·))) ∧
  (∀ (m : Nat) (c : List Byte), c.length ≤ 2 ^ 32 - 1 →
    (∀ e, parseContainer m c = .error e → cursorContainer m c = .error e) ∧
    (∀ p, parseContainer m c = .ok p → ∃ pcur : Word, cursorContainer m c = .ok (p, pcur) ∧ pcur.toNat = c.length))

/-- 45_container.md R242: the table and the container fit their fields and RESULT_LEN. -/
def Obligations.TheContainerFitsItsFields : Prop :=
  ∀ (m cap : Nat) (d : DataType) (x : List Byte) (r : Success), m ≤ 2 ^ 20 → compressBytes m d x cap = .ok r →
    r.tableLen ≤ m * (2 + 4 + 32) ∧ r.tableLen < 2 ^ 32 ∧ r.payloadBits < 2 ^ 32 ∧
      r.out.length = 9 + r.tableLen + (r.payloadBits + 7) / 8 ∧ r.out.length < 2 ^ 32 ∧ r.out.length ≤ cap

/-- 45_container.md R266, first sentence and its consequence: a container without its last byte is malformed. -/
def Obligations.ATruncatedContainerIsMalformed : Prop :=
  ∀ (m m' cap cap' : Nat) (d : DataType) (x : List Byte) (r : Success), m ≤ 2 ^ 20 → compressBytes m d x cap = .ok r →
    decompressBytes m' r.out.dropLast cap' = .error .malformedContainer

/-- 45_container.md R265: COMPRESS of the same bytes as the same data type writes the same container, whatever the
destination and its capacity. -/
def Obligations.CompressionIsDeterministic : Prop :=
  ∀ s s' : State, s.phase = .busy → s.wait = 0 → s'.phase = .busy → s'.wait = 0 →
    s.lat.op = .compress → s'.lat.op = .compress → s.lat.dtype = s'.lat.dtype →
    s.mem.readAll s.lat.srcAddr.toNat s.lat.srcLen.toNat = s'.mem.readAll s'.lat.srcAddr.toNat s'.lat.srcLen.toNat →
    ∃ u u', step s = .next u ∧ step s' = .next u' ∧
      (u.regs.errCode = .none → u'.regs.errCode = .none → u.regs.resultLen = u'.regs.resultLen ∧
        ∀ i, i < u.regs.resultLen.toNat →
          u.mem.read (s.lat.dstAddr.toNat + i) = u'.mem.read (s'.lat.dstAddr.toNat + i))

/-- 45_container.md R264, on bytes: what COMPRESS makes of x, DECOMPRESS makes into x again, with the same counts. -/
def Obligations.DecompressingACompressedContainerGivesTheInput : Prop :=
  ∀ (m cap cap' : Nat) (d : DataType) (x : List Byte) (r : Success), m ≤ 2 ^ 20 → compressBytes m d x cap = .ok r →
    x.length ≤ cap' →
    decompressBytes m r.out cap' =
      .ok { out := x, symCount := r.symCount, distinct := r.distinct, tableLen := r.tableLen, payloadBits := r.payloadBits }

/-- 45_container.md R264, on the machine: if a COMPRESS finishes without error, then a DECOMPRESS whose source is the bytes
it wrote, with valid ranges that do not overlap and a capacity of at least the input, finishes without error and writes
exactly the input. -/
def Obligations.TheMachineRoundTrips : Prop :=
  ∀ s u s' : State, s.phase = .busy → s.wait = 0 → s.lat.op = .compress → s.plat.legal = true →
    step s = .next u → u.regs.errCode = .none →
    s'.phase = .busy → s'.wait = 0 → s'.lat.op = .decompress → s'.plat = s.plat →
    s'.mem.readAll s'.lat.srcAddr.toNat s'.lat.srcLen.toNat =
      u.mem.readAll s.lat.dstAddr.toNat u.regs.resultLen.toNat →
    rangeError s'.plat s'.lat = none → s.lat.srcLen.toNat ≤ s'.lat.dstCap.toNat →
    ∃ u', step s' = .next u' ∧ u'.regs.errCode = .none ∧ u'.regs.done = true ∧ u'.regs.resultLen = s.lat.srcLen ∧
      HoldsBytes u'.mem s'.lat.dstAddr.toNat (s.mem.readAll s.lat.srcAddr.toNat s.lat.srcLen.toNat)
end

