-- ==== Sys2Proof/Laws/Bits.lean ====
section
/-! SUPPORT. Laws of pack_bits, unpack_bits and the bits of a byte (00_scope.md R9, 30_encoding.md R112). -/

namespace Sys2Proof.Machine

/-- As many bytes as asked for. -/
theorem packBytes_length : ∀ n s, (packBytes n s).length = n := by
  intro n; induction n with
  | zero => intro s; rfl
  | succ n ih => intro s; simp [packBytes, ih]

/-- `pack_bits` makes ceil8 bytes. -/
theorem packBits_length (s) : (packBits s).length = ceil8 s.length := packBytes_length _ _

/-- `2^(7-k)` where the bit is 1. -/
def weightAt (b : Bool) (k : Nat) : Nat := if b then 2^(7-k) else 0

theorem bits8_of_weights : ∀ b0 b1 b2 b3 b4 b5 b6 b7 : Bool,
   let b := BitVec.ofNat 8 (weightAt b0 0 + weightAt b1 1 + weightAt b2 2 + weightAt b3 3 + weightAt b4 4 + weightAt b5 5 + weightAt b6 6 + weightAt b7 7)
   bits8 b = [b0,b1,b2,b3,b4,b5,b6,b7] := by decide

/-- The bits of a packed byte are the first eight of the string, padded with zeros. -/
theorem bits8_packByte (s : BitString) : bits8 (packByte s) = (List.range 8).map (fun k => s.getD k false) := by
  have := bits8_of_weights (s.getD 0 false) (s.getD 1 false) (s.getD 2 false) (s.getD 3 false) (s.getD 4 false)
      (s.getD 5 false) (s.getD 6 false) (s.getD 7 false)
  simp only [weightAt] at this
  unfold packByte bitWeight
  rw [this]; rfl

/-- Bit `7 - k` of a byte is bit k of `bits8`. -/
theorem bits8_getLsbD (b : Byte) {k} (h : k < 8) : b.getLsbD (7 - k) = (bits8 b).getD k false := by
  rcases (by omega : k = 0 ∨ k = 1 ∨ k = 2 ∨ k = 3 ∨ k = 4 ∨ k = 5 ∨ k = 6 ∨ k = 7) with rfl | rfl | rfl | rfl | rfl | rfl | rfl | rfl <;> rfl

/-- Byte j packs the bits from 8j on. -/
theorem packBytes_getD : ∀ n s j, j < n → (packBytes n s).getD j 0 = packByte (s.drop (8*j)) := by
  intro n; induction n with
  | zero => intro s j h; omega
  | succ n ih =>
    intro s j h
    cases j with
    | zero => simp [packBytes]
    | succ j => simp only [packBytes, List.getD_cons_succ]; rw [ih _ _ (by omega), List.drop_drop]; congr 2; omega

theorem map_range_eight (s : BitString) : (List.range 8).map (fun k =>
    s.getD k false) = s.take 8 ++ List.replicate (8 - s.length) false := by
  apply List.ext_getElem
  · simp; omega
  · intro i h1 h2
    simp at h1
    simp only [List.getElem_map, List.getElem_range, List.getElem_append]
    split
    · rename_i h; simp at h; simp [List.getD_eq_getElem?_getD, h.2]
    · rename_i h; simp at h
      have : s.length ≤ i := by omega
      simp [List.getD_eq_getElem?_getD, this]

/-- Unpacking the packed bytes gives the string and its padding. -/
theorem unpack_packBytes : ∀ n s, s.length ≤ 8 * n →
    unpackBits (packBytes n s) = s ++ List.replicate (8 * n - s.length) false := by
  intro n; induction n with
  | zero => intro s h; have : s = [] := by simpa using h
            subst this; rfl
  | succ n ih =>
    intro s h
    simp only [packBytes, unpackBits, List.flatMap_cons]
    have := ih (s.drop 8) (by simp; omega)
    unfold unpackBits at this
    rw [this, bits8_packByte, map_range_eight]
    by_cases hs : 8 ≤ s.length
    · have : 8 - s.length = 0 := by omega
      rw [this]; simp only [List.replicate_zero, List.append_nil, List.length_drop]
      rw [← List.append_assoc, List.take_append_drop]; congr 2; omega
    · have h1 : s.take 8 = s := List.take_of_length_le (by omega)
      have h2 : s.drop 8 = [] := List.drop_eq_nil_of_le (by omega)
      rw [h1, h2]; simp only [List.nil_append, List.length_nil, List.append_assoc,
          List.replicate_append_replicate]; congr 2; omega

theorem le_ceil8 (n) : n ≤ 8 * ceil8 n := by unfold ceil8; omega

/-- Eight bits in front are one byte in front. -/
theorem packBits_append8 (a s : BitString) (h : a.length = 8) : packBits (a ++ s) = packByte a :: packBits s := by
  have : ceil8 (a ++ s).length = ceil8 s.length + 1 := by simp [ceil8, h]; omega
  rw [packBits, this, packBytes]
  have h1 : (a ++ s).drop 8 = s := by rw [← h]; simp
  rw [h1]
  congr 1
  unfold packByte bitWeight
  have : ∀ k, k < 8 → (a ++ s).getD k false = a.getD k false := by
    intro k hk; simp [List.getD_eq_getElem?_getD, List.getElem?_append, h, hk]
  simp only [this 0 (by decide), this 1 (by decide), this 2 (by decide), this 3 (by decide), this 4 (by decide),
      this 5 (by decide), this 6 (by decide), this 7 (by decide)]

/-- One to eight bits are one byte. -/
theorem packBits_short (s : BitString) (h0 : s ≠ []) (h : s.length ≤ 8) : packBits s = [packByte s] := by
  have : ceil8 s.length = 1 := by
    have : 0 < s.length := List.length_pos_iff.2 h0
    unfold ceil8; omega
  rw [packBits, this]; rfl

/-- Zero bits pack to zero bytes. -/
theorem packBytes_zero : ∀ n (s : BitString), (∀ b ∈ s, b = false) → packBytes n s = List.replicate n 0 := by
  intro n; induction n with
  | zero => intro s _; rfl
  | succ n ih =>
    intro s h
    have hg : ∀ k, s.getD k false = false := by
      intro k; rw [List.getD_eq_getElem?_getD]
      cases hk : s[k]? with
      | none => rfl
      | some b => exact h b (List.mem_of_getElem? hk)
    rw [packBytes, ih _ (fun b hb => h b (List.mem_of_mem_drop hb)), List.replicate_succ]
    congr 1
    simp only [packByte, bitWeight, hg]; rfl

/-- What stands before an appended part is sliced as before. -/
theorem slice_append {α : Type} (s x : List α) (lo hi) (h : hi ≤ s.length) : slice (s ++ x) lo hi = slice s lo hi := by
  unfold slice
  by_cases hlo : lo ≤ s.length
  · rw [List.drop_append_of_le_length hlo, List.take_append_of_le_length (by simp; omega)]
  · have : hi - lo = 0 := by omega
    rw [this]; simp

/-- A count in 32 bits that does not stand at its greatest value counts as the number does. -/
theorem toNat_add_one {x : Word} (h : x.toNat + 1 < 2 ^ 32) : (x + 1).toNat = x.toNat + 1 := by
  rw [BitVec.toNat_add]; exact Nat.mod_eq_of_lt (by simpa using h)

end Sys2Proof.Machine
end

