-- ==== Sys2Proof/Laws/Cursor.lean ====
section
/-! SUPPORT. The parser with its cursor reads what the parser of 45_container.md R255 reads from the bytes between the cursor
and the end of the table (10_state.md R48). -/

namespace Sys2Proof.Machine

variable {c : List Byte} {stop : Nat} {tag : DataType}

theorem slice_length (c : List Byte) {lo hi : Nat} (h : hi ≤ c.length) : (slice c lo hi).length = hi - lo := by
  simp [slice]; omega

theorem take_slice (c : List Byte) {lo mid hi : Nat} (h : mid ≤ hi) : (slice c lo hi).take (mid - lo) = slice c lo mid := by
  simp only [slice, List.take_take]; rw [Nat.min_eq_left (by omega)]

theorem drop_slice (c : List Byte) {lo mid hi : Nat} (h : lo ≤ mid) : (slice c lo hi).drop (mid - lo) = slice c mid hi := by
  simp only [slice, List.drop_take, List.drop_drop]
  rw [show lo + (mid - lo) = mid by omega, show hi - lo - (mid - lo) = hi - mid by omega]

/-- A field is read exactly when it stands before `stop`, and the cursor then stands behind it. -/
theorem takeField_cases (h32 : stop < 2 ^ 32) (n : Nat) (p : Word) :
    (stop < p.toNat + n ∧ takeField c stop n p = none) ∨
    (p.toNat + n ≤ stop ∧ ∃ q : Word, takeField c stop n p = some (slice c p.toNat (p.toNat + n), q) ∧
      q.toNat = p.toNat + n) := by
  unfold takeField
  split
  · exact .inl ⟨‹_›, rfl⟩
  · exact .inr ⟨by omega, _, rfl, by
      rw [BitVec.toNat_add, BitVec.toNat_ofNat, Nat.add_mod_mod, Nat.mod_eq_of_lt (by omega)]⟩

/-- A one-byte field is the first byte of what stands before `stop`. -/
theorem slice_cons (hc : stop ≤ c.length) {p : Nat} (h : p + 1 ≤ stop) :
    ∃ b, slice c p (p + 1) = [b] ∧ slice c p stop = b :: slice c (p + 1) stop := by
  have hlt : p < c.length := by omega
  refine ⟨getElem c p hlt, ?_, ?_⟩ <;> simp only [slice]
  · rw [Nat.add_sub_cancel_left, List.drop_eq_getElem_cons hlt]; rfl
  · rw [show stop - p = (stop - (p + 1)) + 1 by omega, List.drop_eq_getElem_cons hlt, List.take_succ_cons]

theorem slice_eq_nil (c : List Byte) {lo hi : Nat} (h : hi ≤ lo) : slice c lo hi = [] := by
  simp [slice, show hi - lo = 0 by omega]

theorem cursorSym_cases (hc : stop ≤ c.length) (h32 : stop < 2 ^ 32) (p : Word) (hp : p.toNat ≤ stop) :
    (cursorSym tag c stop p = none ∧ parseEntry tag (slice c p.toNat stop) = none) ∨
    ∃ (sym : Nat) (q : Word), cursorSym tag c stop p = some (sym, q) ∧ p.toNat < q.toNat ∧ q.toNat ≤ stop ∧
      parseEntry tag (slice c p.toNat stop) =
        match slice c q.toNat stop with
        | [] => none
        | cl :: u =>
          if cl.toNat = 0 then none
          else if u.length < ceil8 cl.toNat then none
          else some
            ({ sym := sym, cw := (unpackBits (u.take (ceil8 cl.toNat))).take cl.toNat }, u.drop (ceil8 cl.toNat)) := by
  unfold cursorSym
  rcases takeField_cases (c := c) h32 1 p with ⟨h, e⟩ | ⟨h, q, e, hq⟩ <;> rw [e]
  · exact .inl ⟨rfl, by rw [slice_eq_nil c (by omega)]; rfl⟩
  · obtain ⟨b, hb, ht⟩ := slice_cons hc h
    simp only [hb, ht, parseEntry, byteValue, List.headD_cons]
    by_cases ho : symLenOk tag b.toNat = false
    · rw [if_pos ho, if_pos ho]; exact .inl ⟨rfl, rfl⟩
    · rw [if_neg ho, if_neg ho]
      have hl := slice_length c (lo := p.toNat + 1) hc
      rcases takeField_cases (c := c) h32 b.toNat q with ⟨h2, e2⟩ | ⟨h2, r, e2, hr⟩ <;> rw [e2]
      · exact .inl ⟨rfl, by rw [if_pos (by omega)]⟩
      · rw [if_neg (by omega)]
        have ha := take_slice c (lo := p.toNat + 1) (show p.toNat + 1 + b.toNat ≤ stop by omega)
        have hd := drop_slice c (hi := stop) (show p.toNat + 1 ≤ p.toNat + 1 + b.toNat by omega)
        rw [Nat.add_sub_cancel_left] at ha hd
        rw [ha, hd, hq]
        cases hs : readSym tag (slice c (p.toNat + 1) (p.toNat + 1 + b.toNat)) with
        | none => exact .inl ⟨by simp only [hs]; rfl, rfl⟩
        | some sym => exact .inr ⟨sym, r, by simp only [hs]; rfl, by omega, by omega, by simp only [hr, hq] <;> rfl⟩

/-- One entry: the cursor goes forward, not beyond the table, and reads what `parseEntry` reads. -/
theorem cursorEntry_cases (hc : stop ≤ c.length) (h32 : stop < 2 ^ 32) (p : Word) (hp : p.toNat ≤ stop) :
    (cursorEntry tag c stop p = none ∧ parseEntry tag (slice c p.toNat stop) = none) ∨
    ∃ (e : Entry) (q : Word), cursorEntry tag c stop p = some (e, q) ∧ p.toNat < q.toNat ∧ q.toNat ≤ stop ∧
      parseEntry tag (slice c p.toNat stop) = some (e, slice c q.toNat stop) := by
  unfold cursorEntry cursorCodeword
  rcases cursorSym_cases (tag := tag) hc h32 p hp with ⟨e, h⟩ | ⟨sym, q, e, h1, h2, h⟩ <;> rw [e]
  · exact .inl ⟨rfl, h⟩
  · simp only [h]
    rcases takeField_cases (c := c) h32 1 q with ⟨h3, e3⟩ | ⟨h3, r, e3, hr⟩ <;> rw [e3]
    · exact .inl ⟨rfl, by rw [slice_eq_nil c (by omega)]⟩
    · obtain ⟨b, hb, ht⟩ := slice_cons hc h3
      simp only [hb, ht, byteValue, List.headD_cons]
      by_cases h0 : b.toNat = 0
      · rw [if_pos h0, if_pos h0]; exact .inl ⟨rfl, rfl⟩
      · rw [if_neg h0, if_neg h0]
        have hl := slice_length c (lo := q.toNat + 1) hc
        rcases takeField_cases (c := c) h32 (ceil8 b.toNat) r with ⟨h4, e4⟩ | ⟨h4, w, e4, hw⟩ <;> rw [e4]
        · exact .inl ⟨rfl, by rw [if_pos (by omega)]⟩
        · rw [if_neg (by omega)]
          have ha := take_slice c (lo := q.toNat + 1) (show q.toNat + 1 + ceil8 b.toNat ≤ stop by omega)
          have hd := drop_slice c (hi := stop) (show q.toNat + 1 ≤ q.toNat + 1 + ceil8 b.toNat by omega)
          rw [Nat.add_sub_cancel_left] at ha hd
          rw [ha, hd]
          exact .inr ⟨_, w, rfl, by omega, by omega, by rw [hr, hw, hr]⟩

/-- All entries: the cursor stops at the end of the table. -/
theorem cursorEntries_cases (hc : stop ≤ c.length) (h32 : stop < 2 ^ 32) : ∀ (n : Nat) (p : Word), p.toNat ≤ stop →
    (cursorEntries tag c stop n p = none ∧ parseEntries tag n (slice c p.toNat stop) = none) ∨
    ∃ (es : List Entry) (q : Word), cursorEntries tag c stop n p = some (es, q) ∧ q.toNat = stop ∧
      parseEntries tag n (slice c p.toNat stop) = some es := by
  intro n; induction n with
  | zero =>
    intro p hp
    unfold cursorEntries
    split
    · rw [slice_eq_nil c ‹_›]; exact .inr ⟨[], p, rfl, by omega, rfl⟩
    · obtain ⟨b, -, ht⟩ := slice_cons hc (show p.toNat + 1 ≤ stop by omega)
      rw [ht]; exact .inl ⟨rfl, rfl⟩
  | succ n ih =>
    intro p hp
    unfold cursorEntries
    split
    · rw [slice_eq_nil c ‹_›]; exact .inr ⟨[], p, rfl, by omega, rfl⟩
    · obtain ⟨b, -, ht⟩ := slice_cons hc (show p.toNat + 1 ≤ stop by omega)
      rcases cursorEntry_cases (tag := tag) hc h32 p hp with ⟨e, h⟩ | ⟨en, q, e, h1, h2, h⟩ <;> rw [e] <;>
        (rw [ht] at h ⊢; simp only [parseEntries, h])
      · exact .inl (And.intro trivial trivial)
      · rcases ih q h2 with ⟨e', h'⟩ | ⟨es, r, e', hr, h'⟩ <;> rw [e', h']
        · exact .inl ⟨rfl, rfl⟩
        · exact .inr ⟨en :: es, r, rfl, hr, rfl⟩

end Sys2Proof.Machine
end

