-- ==== Sys2Proof/Laws/Frequencies.lean ====
section
/-! SUPPORT. Laws of the frequency table (41_tree_builder.md R144). -/

namespace Sys2Proof.Machine

/-- Ascending by symbol, no symbol twice. -/
def Ascending (t : List (Nat × Nat)) : Prop := t.Pairwise (fun x y => x.1 < y.1)

/-- A bump adds no symbol but its own. -/
theorem mem_bump {s : Nat} {t : List (Nat × Nat)} {e} (h : e ∈ bump s t) : e.1 = s ∨ e ∈ t := by
  induction t with
  | nil => simp [bump] at h; simp [h]
  | cons c t ih =>
    obtain ⟨k, n⟩ := c
    simp only [bump] at h
    split at h
    · simp at h ⊢; rcases h with rfl | rfl | h <;> simp_all
    · split at h
      · simp at h; rcases h with rfl | h
        · subst_vars; simp
        · simp [h]
      · simp at h; rcases h with rfl | h
        · simp
        · rcases ih h with h | h <;> simp [h]

/-- A bump keeps the order. -/
theorem ascending_bump {s : Nat} {t : List (Nat × Nat)} (h : Ascending t) : Ascending (bump s t) := by
  induction t with
  | nil => simp [bump, Ascending]
  | cons c t ih =>
    obtain ⟨k, n⟩ := c
    have h' := List.pairwise_cons.1 h
    simp only [bump]
    split
    · rename_i hlt
      refine List.pairwise_cons.2 ⟨fun e he => ?_, h⟩
      rcases List.mem_cons.1 he with rfl | he
      · exact hlt
      · exact lt_trans hlt (h'.1 e he)
    · split
      · exact List.pairwise_cons.2 ⟨fun e he => h'.1 e he, h'.2⟩
      · refine List.pairwise_cons.2 ⟨fun e he => ?_, ih h'.2⟩
        rcases mem_bump he with h1 | h1
        · show k < e.1; omega
        · exact h'.1 e h1

/-- The count a table holds for a symbol, 0 where it has none. -/
def countIn : List (Nat × Nat) → Nat → Nat
  | [], _ => 0
  | (k, n) :: t, x => if k = x then n else countIn t x

theorem countIn_of_absent {t : List (Nat × Nat)} {x} (h : ∀ e ∈ t, e.1 ≠ x) : countIn t x = 0 := by
  induction t with
  | nil => rfl
  | cons c t ih => simp only [countIn]; rw [if_neg (h c (by simp))]; exact ih fun e he => h e (by simp [he])

/-- A bump adds one to its own symbol's count and changes no other. -/
theorem countIn_bump {s x : Nat} {t} (h : Ascending t) :
    countIn (bump s t) x = if x = s then countIn t x + 1 else countIn t x := by
  induction t with
  | nil =>
    by_cases hx : x = s
    · subst hx; simp [bump, countIn]
    · have : ¬ s = x := fun h => hx h.symm
      simp [bump, countIn, hx, this]
  | cons c t ih =>
    obtain ⟨k, n⟩ := c
    have h' := List.pairwise_cons.1 h
    have ih := ih h'.2
    simp only [bump]
    split
    · rename_i hlt
      by_cases hx : x = s
      · subst hx
        have : countIn ((k,n)::t) x = 0 := by
          apply countIn_of_absent; intro e he
          rcases List.mem_cons.1 he with rfl | he
          · show k ≠ x; omega
          · have := h'.1 e he; simp at this ⊢; omega
        rw [this]; simp [countIn]
      · have : ¬ s = x := fun h => hx h.symm
        simp [countIn, hx, this]
    · split
      · subst_vars
        by_cases hx : x = k
        · subst hx; simp [countIn]
        · have : ¬ k = x := fun h => hx h.symm
          simp [countIn, hx, this]
      · simp only [countIn]
        by_cases hk : k = x
        · subst hk
          have : ¬ k = s := by omega
          simp [this]
        · simp only [hk, if_false, ih]

/-- A bump adds the weight of its symbol once to every weighted sum. -/
theorem sum_bump {s : Nat} (t) (g : Nat → Nat) : ((bump s t).map (fun e => e.2 * g e.1)).sum = (t.map (fun e =>
    e.2 * g e.1)).sum + g s := by
  induction t with
  | nil => simp [bump]
  | cons c t ih =>
    obtain ⟨k, n⟩ := c
    simp only [bump]
    split
    · simp; omega
    · split
      · subst_vars; simp; ring
      · simp [ih]; omega

theorem foldl_bump_spec (syms : List Nat) : ∀ t, Ascending t → Ascending (syms.foldl (fun t s => bump s t) t) ∧ (∀ x,
    countIn (syms.foldl (fun t s => bump s t) t) x = countIn t x + syms.count x) ∧
   ∀ g : Nat → Nat, ((syms.foldl (fun t s => bump s t) t).map (fun e => e.2 * g e.1)).sum = (t.map (fun e =>
       e.2 * g e.1)).sum + (syms.map g).sum := by
  induction syms with
  | nil => intro t h; simp [h]
  | cons s syms ih =>
    intro t h
    obtain ⟨a, b, c⟩ := ih (bump s t) (ascending_bump h)
    refine ⟨a, fun x => ?_, fun g => ?_⟩
    · simp only [List.foldl_cons]; rw [b, countIn_bump h, List.count_cons]
      by_cases hx : x = s
      · subst hx; simp; omega
      · have : ¬ s = x := fun h => hx h.symm
        simp [hx, this]
    · simp only [List.foldl_cons]; rw [c, sum_bump]; simp; omega

/-- The table of a sequence: ascending, with the numbers of occurrences, and with the weighted sums of the sequence. -/
theorem freqTable_spec (syms : List Nat) : Ascending (freqTable syms) ∧ (∀ x,
    countIn (freqTable syms) x = syms.count x) ∧
   ∀ g : Nat → Nat, ((freqTable syms).map (fun e => e.2 * g e.1)).sum = (syms.map g).sum := by
  obtain ⟨a,b,c⟩ := foldl_bump_spec syms [] (by simp [Ascending])
  exact ⟨a, fun x => by rw [freqTable, b]; simp [countIn], fun g => by rw [freqTable, c]; simp⟩

theorem pos_bump {s t} (h : ∀ e ∈ t, 1 ≤ e.2) : ∀ e ∈ bump s t, 1 ≤ e.2 := by
  induction t with
  | nil => simp [bump]
  | cons c t ih =>
    obtain ⟨k, n⟩ := c
    have hn : 1 ≤ n := h (k, n) (by simp)
    have ht : ∀ e ∈ t, 1 ≤ e.2 := fun e he => h e (by simp [he])
    simp only [bump]
    split
    · intro e he; simp at he; rcases he with rfl | rfl | he
      · simp
      · exact hn
      · exact ht e he
    · split
      · intro e he; simp at he; rcases he with rfl | he
        · simp
        · exact ht e he
      · intro e he; simp at he; rcases he with rfl | he
        · exact hn
        · exact ih ht e he

/-- Every count is at least 1. -/
theorem freqTable_pos (syms : List Nat) : ∀ e ∈ freqTable syms, 1 ≤ e.2 := by
  have : ∀ (syms : List Nat) t, (∀ e ∈ t, 1 ≤ e.2) → ∀ e ∈ syms.foldl (fun t s => bump s t) t, 1 ≤ e.2 := by
    intro syms
    induction syms with
    | nil => intro t h; exact h
    | cons s syms ih => intro t h; exact ih _ (pos_bump h)
  exact this syms [] (by simp)

theorem countIn_of_mem {t : List (Nat × Nat)} (h : Ascending t) {s f} (hm : (s, f) ∈ t) : countIn t s = f := by
  induction t with
  | nil => simp at hm
  | cons c t ih =>
    have h' := List.pairwise_cons.1 h
    rcases List.mem_cons.1 hm with rfl | hm
    · simp [countIn]
    · have := h'.1 _ hm
      have hne : ¬ c.1 = s := by simp at this; omega
      simp only [countIn, hne, if_false]; exact ih h'.2 hm

theorem mem_of_countIn {t : List (Nat × Nat)} {s} (h : countIn t s ≠ 0) : (s, countIn t s) ∈ t := by
  induction t with
  | nil => simp [countIn] at h
  | cons c t ih =>
    obtain ⟨k, n⟩ := c
    simp only [countIn] at h ⊢
    split
    · rename_i hk; subst hk; simp
    · rename_i hk; simp only [hk, if_false] at h; simp [ih h]

/-! ## The 32-bit counters (41_tree_builder.md R145) -/

/-- The store's table after one symbol, while no more than 2^32 - 2 have been counted. -/
theorem storedTable_bumpHeld (s : Nat) : ∀ store : List (Nat × Word), ((storedTable store).map Prod.snd).sum + 1 < 2 ^ 32 →
    storedTable (bumpHeld s store) = bump s (storedTable store)
  | [], _ => rfl
  | (k, n) :: store, h => by
    have hs : storedTable ((k, n) :: store) = (k, n.toNat) :: storedTable store := rfl
    simp only [hs, List.map_cons, List.sum_cons] at h ⊢
    simp only [bumpHeld, bump]
    split
    · rfl
    · split
      · show (k, (n + 1).toNat) :: _ = _
        rw [toNat_add_one (by omega)]; rfl
      · show (k, n.toNat) :: storedTable (bumpHeld s store) = _
        rw [storedTable_bumpHeld s store (by omega)]

end Sys2Proof.Machine
end

