-- ==== Sys2Proof/Laws/Matching.lean ====
section
/-! SUPPORT. Laws of the codeword tables and the greedy walk (44_bit_unpacker.md R220, 45_container.md R261, R262). -/

namespace Sys2Proof.Machine

theorem compatible_iff {e f : Entry} : compatible e f = true ↔ e.sym ≠ f.sym ∧ ¬ e.cw <+: f.cw ∧ ¬ f.cw <+: e.cw := by
  simp [compatible, Bool.and_eq_true, and_assoc, ← List.isPrefixOf_iff_prefix]

/-- A valid table, as a relation between any two entries. -/
theorem tableValid_iff {es : List Entry} : tableValid es = true ↔ es.Pairwise (fun e f => e.sym ≠ f.sym ∧
    ¬ e.cw <+: f.cw ∧ ¬ f.cw <+: e.cw) := by
  induction es with
  | nil => simp [tableValid]
  | cons e es ih =>
    simp only [tableValid, Bool.and_eq_true, List.all_eq_true, ih, List.pairwise_cons, compatible_iff]

/-- Two entries of a valid table are the same or compatible. -/
theorem tableValid_pair {es : List Entry} (h : tableValid es = true) {e f} (he : e ∈ es) (hf : f ∈ es) :
    e = f ∨ (e.sym ≠ f.sym ∧ ¬ e.cw <+: f.cw ∧ ¬ f.cw <+: e.cw) := by
  rw [tableValid_iff] at h
  induction h with
  | nil => simp at he
  | cons h1 _ ih =>
    rcases List.mem_cons.1 he with he' | he' <;> rcases List.mem_cons.1 hf with hf' | hf'
    · exact .inl (he'.trans hf'.symm)
    · subst he'; exact .inr (h1 _ hf')
    · subst hf'; obtain ⟨a, b, c⟩ := h1 _ he'; exact .inr ⟨fun h => a h.symm, c, b⟩
    · exact ih he' hf'

/-- A valid table that is reordered stays valid. -/
theorem tableValid_perm {a b : List Entry} (h : a.Perm b) (hv : tableValid a = true) : tableValid b = true := by
  rw [tableValid_iff] at *
  exact (h.pairwise_iff (fun {x y} hxy => ⟨fun h => hxy.1 h.symm, hxy.2.2, hxy.2.1⟩)).1 hv

/-- `CW[s]` of an entry of a valid table. -/
theorem codewordOf_mem {es : List Entry} (h : tableValid es = true) {e} (he : e ∈ es) : codewordOf es e.sym = e.cw := by
  unfold codewordOf
  cases hf : es.find? (fun x => x.sym == e.sym) with
  | none => rw [List.find?_eq_none] at hf; exact absurd (hf e he) (by simp)
  | some f =>
    have h1 := List.mem_of_find?_eq_some hf
    have h2 := List.find?_some hf
    simp only [beq_iff_eq] at h2
    rcases tableValid_pair h h1 he with rfl | h3
    · rfl
    · exact absurd h2 h3.1

theorem symbolOf_some {es : List Entry} {u s} (h : symbolOf (inverseTable es) u = some s) : ∃ e ∈ es, e.cw = u ∧
    e.sym = s := by
  unfold symbolOf inverseTable at h
  rw [Option.map_eq_some_iff] at h
  obtain ⟨p, hp, rfl⟩ := h
  have h1 := List.mem_of_find?_eq_some hp
  have h2 := List.find?_some hp
  rw [List.mem_map] at h1
  obtain ⟨e, he, rfl⟩ := h1
  exact ⟨e, he, by simpa using h2, rfl⟩

theorem symbolOf_none {es : List Entry} {u} (h : symbolOf (inverseTable es) u = none) : ∀ e ∈ es, e.cw ≠ u := by
  unfold symbolOf inverseTable at h
  rw [Option.map_eq_none_iff, List.find?_eq_none] at h
  intro e he hu
  exact h (e.cw, e.sym) (List.mem_map.2 ⟨e, he, rfl⟩) (by simp [hu])

/-- `INV[cw]` of an entry of a valid table. -/
theorem symbolOf_mem {es : List Entry} (h : tableValid es = true) {e} (he : e ∈ es) :
    symbolOf (inverseTable es) e.cw = some e.sym := by
  cases hs : symbolOf (inverseTable es) e.cw with
  | none => exact absurd rfl (symbolOf_none hs e he)
  | some s =>
    obtain ⟨f, hf, h1, h2⟩ := symbolOf_some hs
    rcases tableValid_pair h hf he with rfl | h3
    · rw [h2]
    · exact absurd (h1 ▸ List.prefix_refl _) h3.2.1

/-- The walk consumes exactly one codeword and starts over. -/
theorem matchBits_codeword {es : List Entry} (h : tableValid es = true) {e} (he : e ∈ es) (rest : BitString) :
   ∀ (r u : BitString), r ≠ [] → u ++ r = e.cw → matchBits (inverseTable es)
       (r ++ rest) u = (matchBits (inverseTable es) rest []).map (e.sym :: ·) := by
  intro r; induction r with
  | nil => intro u h; exact absurd rfl h
  | cons b r ih =>
    intro u _ hu
    simp only [List.cons_append, matchBits]
    by_cases hr : r = []
    · subst hr; rw [hu, symbolOf_mem h he]; rfl
    · cases hs : symbolOf (inverseTable es) (u ++ [b]) with
      | none => exact ih (u ++ [b]) hr (by simpa using hu)
      | some s =>
        exfalso
        obtain ⟨f, hf, h1, h2⟩ := symbolOf_some hs
        have hp : f.cw <+: e.cw := by rw [h1, ← hu]; exact ⟨r, by simp⟩
        rcases tableValid_pair h hf he with rfl | h3
        · have : (u ++ [b]).length = (u ++ b :: r).length := by rw [hu, h1]
          simp at this; exact hr this
        · exact h3.2.1 hp

/-- What the walk returns are symbols of the table whose codewords make up the bits. -/
theorem matchBits_sound {es : List Entry} (h : tableValid es = true) : ∀ (bits u : BitString) (syms : List Nat),
    matchBits (inverseTable es) bits u = some syms →
   (∀ s ∈ syms, ∃ e ∈ es, e.sym = s) ∧ codeBits syms es = u ++ bits := by
  intro bits; induction bits with
  | nil =>
    intro u syms hm; simp only [matchBits] at hm; split at hm
    · cases hm; simp_all [codeBits]
    · cases hm
  | cons b bits ih =>
    intro u syms hm
    simp only [matchBits] at hm
    split at hm
    · rename_i s hs
      rw [Option.map_eq_some_iff] at hm
      obtain ⟨l, hl, rfl⟩ := hm
      obtain ⟨a, c⟩ := ih [] l hl
      obtain ⟨e, he, h1, h2⟩ := symbolOf_some hs
      refine ⟨?_, ?_⟩
      · intro x hx; rcases List.mem_cons.1 hx with rfl | hx
        · exact ⟨e, he, h2⟩
        · exact a x hx
      · have : codeBits (s :: l) es = codewordOf es s ++ codeBits l es := by simp [codeBits]
        rw [this, ← h2, codewordOf_mem h he, h1, c]; simp
    · obtain ⟨a, c⟩ := ih _ _ hm
      exact ⟨a, by rw [c]; simp⟩

/-! ## The unpacker's datapath (44_bit_unpacker.md R224) -/

/-- One bit through the datapath: what it hands on, and the count. -/
theorem takeBit_matchBits (inv : List (BitString × Nat)) (u : UnpackState) (b : Bool) (bits : BitString) :
    (matchBits inv (b :: bits) u.uacc).map (u.out ++ ·) =
      (matchBits inv bits (takeBit inv u b).uacc).map ((takeBit inv u b).out ++ ·) := by
  simp only [matchBits, takeBit]
  cases symbolOf inv (u.uacc ++ [b]) with
  | none => rfl
  | some s => cases matchBits inv bits [] <;> simp

theorem takeBit_count (inv : List (BitString × Nat)) (u : UnpackState) (b : Bool) :
    (takeBit inv u b).count = u.count + 1 := by
  unfold takeBit; split <;> rfl

/-- Bits through the datapath that stops after `n` of them. -/
theorem takeBits_spec (inv : List (BitString × Nat)) (n : Nat) (hn : n < 2 ^ 32) : ∀ (bits : BitString) (u : UnpackState),
    u.count.toNat ≤ n →
    (matchBits inv (bits.take (n - u.count.toNat)) u.uacc).map (u.out ++ ·) = (bits.foldl (takeBitUpTo inv n) u).symbols ∧
      (bits.foldl (takeBitUpTo inv n) u).count.toNat = min n (u.count.toNat + bits.length) := by
  intro bits; induction bits with
  | nil =>
    intro u hu
    refine ⟨?_, by simp; omega⟩
    simp only [List.take_nil, matchBits, List.foldl_nil, UnpackState.symbols]
    by_cases h : u.uacc = [] <;> simp [h]
  | cons b bits ih =>
    intro u hu
    rw [List.foldl_cons, List.length_cons]
    by_cases h : u.count.toNat < n
    · have hc : (takeBit inv u b).count.toNat = u.count.toNat + 1 := by
        rw [takeBit_count]; exact toNat_add_one (by omega)
      obtain ⟨ih1, ih2⟩ := ih (takeBit inv u b) (by omega)
      rw [takeBitUpTo, if_pos h]
      refine ⟨?_, by rw [ih2, hc]; omega⟩
      rw [← ih1, hc, show n - u.count.toNat = (n - (u.count.toNat + 1)) + 1 by omega, List.take_succ_cons]
      exact takeBit_matchBits inv u b _
    · obtain ⟨ih1, ih2⟩ := ih u hu
      rw [takeBitUpTo, if_neg h]
      refine ⟨?_, by rw [ih2]; omega⟩
      rw [← ih1, show n - u.count.toNat = 0 by omega, List.take_zero, List.take_zero]

/-! ## The decode tree (44_bit_unpacker.md R224) -/

/-- The subtree behind a path. -/
def DecodeTree.at : DecodeTree → BitString → DecodeTree
  | t, [] => t
  | t, b :: path => (t.child b).at path

theorem DecodeTree.at_append (t : DecodeTree) (p : BitString) (b : Bool) : t.at (p ++ [b]) = (t.at p).child b := by
  induction p generalizing t with
  | nil => rfl
  | cons c p ih => exact ih _

theorem DecodeTree.at_nothing : ∀ p : BitString, DecodeTree.nothing.at p = .nothing
  | [] => rfl
  | _ :: p => DecodeTree.at_nothing p

/-- The children of a tree in which a codeword has been put. -/
theorem DecodeTree.child_insert (s : Nat) (b c : Bool) (cw : BitString) (t : DecodeTree) :
    (DecodeTree.insert s (b :: cw) t).child c = if c = b then DecodeTree.insert s cw (t.child c) else t.child c := by
  cases b <;> cases c <;> rfl

/-- What stands behind a path once a codeword has been put into the tree. -/
theorem DecodeTree.at_insert (s : Nat) : ∀ (cw u : BitString) (t : DecodeTree),
    (u = cw → (DecodeTree.insert s cw t).at u = .symbol s) ∧
    (u ≠ cw → cw <+: u → (DecodeTree.insert s cw t).at u = .nothing) ∧
    (u ≠ cw → u <+: cw → ∃ l r, (DecodeTree.insert s cw t).at u = .branch l r) ∧
    (¬cw <+: u → ¬u <+: cw → (DecodeTree.insert s cw t).at u = t.at u)
  | [], [], t => ⟨fun _ => rfl, fun h => absurd rfl h, fun h => absurd rfl h, fun h => absurd (List.prefix_refl _) h⟩
  | [], c :: u, t =>
    ⟨fun h => absurd h (by simp), fun _ _ => DecodeTree.at_nothing u, fun _ h => absurd (List.prefix_nil.1 h) (by simp),
      fun h => absurd List.nil_prefix h⟩
  | b :: cw, [], t =>
    ⟨fun h => absurd h (by simp), fun _ h => absurd (List.prefix_nil.1 h) (by simp),
      fun _ _ => (by cases b <;> exact ⟨_, _, rfl⟩), fun _ h => absurd List.nil_prefix h⟩
  | b :: cw, c :: u, t => by
    obtain ⟨h1, h2, h3, h4⟩ := DecodeTree.at_insert s cw u (t.child c)
    simp only [DecodeTree.at, DecodeTree.child_insert, List.cons_prefix_cons, List.cons.injEq]
    by_cases h : c = b
    · subst h
      simpa using ⟨h1, h2, h3, h4⟩
    · have h' : ¬b = c := fun e => h e.symm
      simp [h, h']

/-- The match test of the decode tree is that of the table (44_bit_unpacker.md R224). -/
theorem decodeTree_at {es : List Entry} (h : tableValid es = true) (u : BitString) (s : Nat) :
    (decodeTree (inverseTable es)).at u = .symbol s ↔ symbolOf (inverseTable es) u = some s := by
  induction es with
  | nil => simp [inverseTable, decodeTree, DecodeTree.at_nothing, symbolOf]
  | cons e es ih =>
    simp only [tableValid, Bool.and_eq_true, List.all_eq_true] at h
    obtain ⟨hc, hv⟩ := h
    have hd : decodeTree (inverseTable (e :: es)) = DecodeTree.insert e.sym e.cw (decodeTree (inverseTable es)) := rfl
    have hs : symbolOf (inverseTable (e :: es)) u =
        if e.cw = u then some e.sym else symbolOf (inverseTable es) u := by
      simp only [symbolOf, inverseTable, List.map_cons, List.find?_cons]
      by_cases h : e.cw = u
      · simp [h]
      · rw [show (e.cw == u) = false by simpa using h, if_neg h]
    have hno : (∀ f ∈ es, f.cw ≠ u) → symbolOf (inverseTable es) u ≠ some s := fun hf hx => by
      obtain ⟨f, hm, he, _⟩ := symbolOf_some hx; exact hf f hm he
    obtain ⟨h1, h2, h3, h4⟩ := DecodeTree.at_insert e.sym e.cw u (decodeTree (inverseTable es))
    rw [hd, hs]
    by_cases he : e.cw = u
    · rw [h1 he.symm, if_pos he]; simp
    · rw [if_neg he]
      have he' : u ≠ e.cw := fun x => he x.symm
      by_cases hp : e.cw <+: u
      · rw [h2 he' hp]
        refine ⟨fun x => (by cases x), fun x => absurd x (hno fun f hf hx => ?_)⟩
        exact (compatible_iff.1 (hc f hf)).2.1 (hx ▸ hp)
      · by_cases hq : u <+: e.cw
        · obtain ⟨l, r, hb⟩ := h3 he' hq
          rw [hb]
          refine ⟨fun x => (by cases x), fun x => absurd x (hno fun f hf hx => ?_)⟩
          exact (compatible_iff.1 (hc f hf)).2.2 (hx ▸ hq)
        · rw [h4 hp hq]; exact ih hv

/-- The walk over the decode tree keeps step with the greedy walk, behind any bits that have matched nothing. -/
theorem matchTree_eq {es : List Entry} (h : tableValid es = true) : ∀ (bits u : BitString),
    matchTree (decodeTree (inverseTable es)) bits
        (if u = [] then none else some ((decodeTree (inverseTable es)).at u)) = matchBits (inverseTable es) bits u := by
  intro bits; induction bits with
  | nil => intro u; by_cases hu : u = [] <;> simp [hu, matchTree, matchBits]
  | cons b bits ih =>
    intro u
    have hpos : ((if u = [] then none else some ((decodeTree (inverseTable es)).at u)).getD
        (decodeTree (inverseTable es))).child b = (decodeTree (inverseTable es)).at (u ++ [b]) := by
      rw [DecodeTree.at_append]; by_cases hu : u = [] <;> simp [hu, DecodeTree.at]
    have hn := ih (u ++ [b])
    rw [if_neg (by simp)] at hn
    simp only [matchTree, matchBits, hpos]
    cases hs : symbolOf (inverseTable es) (u ++ [b]) with
    | some s =>
      rw [(decodeTree_at h _ s).2 hs]
      have := ih []
      simp only [if_true] at this
      simp only [this]
    | none =>
      cases hx : (decodeTree (inverseTable es)).at (u ++ [b]) with
      | symbol s => rw [(decodeTree_at h _ s).1 hx] at hs; cases hs
      | nothing => rw [hx] at hn; exact hn
      | branch l r => rw [hx] at hn; exact hn

end Sys2Proof.Machine
end

