-- ==== Sys2Proof/Laws/Memory.lean ====
section
/-! SUPPORT. The laws of memory: a read after a write gives the value written, a write leaves every other address alone,
and every operation keeps the one form. -/

namespace Sys2Proof.Machine

namespace Memory

theorem listed?_write (m : Memory) (a b : Nat) (v : Byte) :
    (m.write a v).listed? b = if b = a then some v else m.listed? b := by
  induction m with
  | nil => simp [write, listed?]
  | cons c m ih =>
    obtain ⟨k, w⟩ := c
    simp only [write]
    split
    · simp [listed?]
    · split
      · subst_vars; by_cases h : b = k <;> simp [listed?, h]
      · by_cases h : b = k
        · subst h; have : b ≠ a := fun h => by omega
          simp [listed?, this]
        · simp [listed?, h, ih]

/-- A read after a write to the same address gives the byte written. -/
@[simp] theorem read_write_self (m : Memory) (a : Nat) (v : Byte) : (m.write a v).read a = v := by
  simp [read, listed?_write]

/-- A write leaves every other address alone. -/
theorem read_write_other (m : Memory) {a b : Nat} (v : Byte) (h : b ≠ a) : (m.write a v).read b = m.read b := by
  simp [read, listed?_write, h]

theorem mem_write {m : Memory} {a : Nat} {v : Byte} {c : Host.Cell} (h : c ∈ m.write a v) : c = (a, v) ∨ c ∈ m := by
  induction m with
  | nil => simpa [write] using h
  | cons d m ih =>
    obtain ⟨k, w⟩ := d
    simp only [write] at h
    split at h
    · simpa using h
    · split at h
      · simp at h; tauto
      · simp only [List.mem_cons] at h ⊢; tauto

/-- A write below 2^32 keeps the form. -/
theorem wf_write {m : Memory} {a : Nat} (v : Byte) (h : m.wf) (ha : a < 2 ^ 32) : (m.write a v).wf := by
  refine ⟨?_, fun c hc => ?_⟩
  · induction m with
    | nil => simp [write]
    | cons d m ih =>
      obtain ⟨k, w⟩ := d
      obtain ⟨hp, hb⟩ := h
      rw [List.pairwise_cons] at hp
      have hm : wf m := ⟨hp.2, fun c hc => hb c (List.mem_cons_of_mem _ hc)⟩
      simp only [write]
      split
      · rename_i hlt
        refine List.pairwise_cons.2 ⟨fun c hc => ?_, List.pairwise_cons.2 hp⟩
        rcases List.mem_cons.1 hc with rfl | hc
        · exact hlt
        · exact lt_trans hlt (hp.1 c hc)
      · split
        · rename_i h2; subst h2; exact List.pairwise_cons.2 hp
        · refine List.pairwise_cons.2 ⟨fun c hc => ?_, ih hm⟩
          rcases mem_write hc with rfl | hc
          · show k < a; omega
          · exact hp.1 c hc
  · rcases mem_write hc with rfl | hc
    · exact ha
    · exact h.2 c hc

theorem read_writeAll_outside (bs : List Byte) : ∀ (m : Memory) (lo a : Nat), ¬(lo ≤ a ∧ a < lo + bs.length) →
    (m.writeAll lo bs).read a = m.read a := by
  induction bs with
  | nil => intros; rfl
  | cons b bs ih =>
    intro m lo a h
    simp only [List.length_cons] at h
    rw [writeAll, ih _ _ _ (by omega), read_write_other _ _ (by omega)]

theorem read_writeAll_inside (bs : List Byte) : ∀ (m : Memory) (lo i : Nat), i < bs.length →
    (m.writeAll lo bs).read (lo + i) = bs.getD i 0 := by
  induction bs with
  | nil => intro _ _ _ h; simp at h
  | cons b bs ih =>
    intro m lo i h
    cases i with
    | zero => rw [writeAll, read_writeAll_outside _ _ _ _ (by omega)]; simp
    | succ i =>
      have := ih (m.write lo b) (lo + 1) i (by simpa using h)
      simpa [writeAll, Nat.add_assoc, Nat.add_comm 1 i] using this

theorem wf_writeAll (bs : List Byte) : ∀ (m : Memory) (lo : Nat), m.wf → lo + bs.length ≤ 2 ^ 32 → (m.writeAll lo bs).wf := by
  induction bs with
  | nil => intro m lo h _; exact h
  | cons b bs ih =>
    intro m lo h hl
    simp only [List.length_cons] at hl
    exact ih _ _ (wf_write b h (by omega)) (by omega)

theorem read_scramble_outside (d : Nat) : ∀ (len : Nat) (m : Memory) (lo a : Nat), ¬(lo ≤ a ∧ a < lo + len) →
    (m.scramble d lo len).read a = m.read a := by
  intro len
  induction len with
  | zero => intros; rfl
  | succ n ih =>
    intro m lo a h
    rw [scramble, ih _ _ _ (by omega)]
    split
    · exact read_write_other _ _ (by omega)
    · rfl

theorem wf_scramble (d : Nat) : ∀ (len : Nat) (m : Memory) (lo : Nat), m.wf → (m.scramble d lo len).wf := by
  intro len
  induction len with
  | zero => intro m lo h; exact h
  | succ n ih =>
    intro m lo h
    refine ih _ _ ?_
    split
    · exact wf_write _ h ‹_›
    · exact h

theorem wf_nil : wf [] := ⟨List.Pairwise.nil, fun _ h => by simp at h⟩

@[simp] theorem length_readAll (m : Memory) (a n : Nat) : (m.readAll a n).length = n := by simp [readAll]

end Memory

/-- Bytes written stand in memory, and nothing else changes. -/
theorem writeAll_spec (m : Memory) (lo : Nat) (bs : List Byte) :
    HoldsBytes (m.writeAll lo bs) lo bs ∧ SameOutside m (m.writeAll lo bs) lo bs.length :=
  ⟨fun i h => Memory.read_writeAll_inside bs m lo i h, fun a h => Memory.read_writeAll_outside bs m lo a h⟩

/-- A scrambled range changes nothing outside itself. -/
theorem scramble_spec (d : Nat) (m : Memory) (lo len : Nat) : SameOutside m (m.scramble d lo len) lo len :=
  fun a h => Memory.read_scramble_outside d len m lo a h

end Sys2Proof.Machine
end

