-- ==== Sys2Proof/Laws/State.lean ====
section
/-! SUPPORT. One lemma per field and update of the state, so that no proof unfolds a record update. -/

namespace Sys2Proof.Machine

variable (s : State) (r : Regs) (op : CmdOp) (e : ErrCode) (q : Success) (x : Reply) (v : Word)

@[simp] theorem start_plat : (start op s).plat = s.plat := rfl
@[simp] theorem start_regs : (start op s).regs = clearResults s.regs := rfl
@[simp] theorem start_phase : (start op s).phase = .busy := rfl
@[simp] theorem start_lat : (start op s).lat = latchOperands op s.regs := rfl
@[simp] theorem start_stores : (start op s).stores = Stores.empty := rfl
@[simp] theorem start_mem : (start op s).mem = s.mem := rfl
@[simp] theorem start_inReset : (start op s).inReset = s.inReset := rfl
@[simp] theorem start_queue : (start op s).queue = s.queue := rfl
@[simp] theorem start_replies : (start op s).replies = s.replies := rfl
@[simp] theorem start_wait : (start op s).wait = Config.latency s.draws := rfl
@[simp] theorem start_draws : (start op s).draws = s.draws + 1 := rfl

@[simp] theorem fail_plat : (fail e s).plat = s.plat := rfl
@[simp] theorem fail_regs : (fail e s).regs = { s.regs with errCode := e, err := true, done := false } := rfl
@[simp] theorem fail_phase : (fail e s).phase = .idle := rfl
@[simp] theorem fail_lat : (fail e s).lat = s.lat := rfl
@[simp] theorem fail_stores : (fail e s).stores = s.stores := rfl
@[simp] theorem fail_mem : (fail e s).mem = s.mem := rfl
@[simp] theorem fail_inReset : (fail e s).inReset = s.inReset := rfl
@[simp] theorem fail_queue : (fail e s).queue = s.queue := rfl
@[simp] theorem fail_replies : (fail e s).replies = s.replies := rfl
@[simp] theorem fail_wait : (fail e s).wait = s.wait := rfl
@[simp] theorem fail_draws : (fail e s).draws = s.draws := rfl

@[simp] theorem succeed_plat : (succeed q s).plat = s.plat := rfl
@[simp] theorem succeed_regs : (succeed q s).regs = { s.regs with
      resultLen := BitVec.ofNat 32 q.out.length, symCount := BitVec.ofNat 32 q.symCount,
      distinct := BitVec.ofNat 32 q.distinct, tableLen := BitVec.ofNat 32 q.tableLen,
      payloadBits := BitVec.ofNat 32 q.payloadBits, errCode := .none, done := true } := rfl
@[simp] theorem succeed_phase : (succeed q s).phase = .idle := rfl
@[simp] theorem succeed_lat : (succeed q s).lat = s.lat := rfl
@[simp] theorem succeed_stores : (succeed q s).stores = s.stores := rfl
@[simp] theorem succeed_mem : (succeed q s).mem = s.mem := rfl
@[simp] theorem succeed_inReset : (succeed q s).inReset = s.inReset := rfl
@[simp] theorem succeed_queue : (succeed q s).queue = s.queue := rfl
@[simp] theorem succeed_replies : (succeed q s).replies = s.replies := rfl
@[simp] theorem succeed_wait : (succeed q s).wait = s.wait := rfl
@[simp] theorem succeed_draws : (succeed q s).draws = s.draws := rfl

@[simp] theorem retire_plat : (retire s).plat = s.plat := rfl
@[simp] theorem retire_regs : (retire s).regs = s.regs := rfl
@[simp] theorem retire_phase : (retire s).phase = s.phase := rfl
@[simp] theorem retire_lat : (retire s).lat = Config.freeLatched s.draws := rfl
@[simp] theorem retire_stores : (retire s).stores = Config.freeStores s.draws := rfl
@[simp] theorem retire_mem : (retire s).mem = s.mem := rfl
@[simp] theorem retire_inReset : (retire s).inReset = s.inReset := rfl
@[simp] theorem retire_queue : (retire s).queue = s.queue := rfl
@[simp] theorem retire_replies : (retire s).replies = s.replies := rfl
@[simp] theorem retire_wait : (retire s).wait = 0 := rfl
@[simp] theorem retire_draws : (retire s).draws = s.draws + 1 := rfl

@[simp] theorem scrambleDest_plat : (scrambleDest s).plat = s.plat := rfl
@[simp] theorem scrambleDest_regs : (scrambleDest s).regs = s.regs := rfl
@[simp] theorem scrambleDest_phase : (scrambleDest s).phase = s.phase := rfl
@[simp] theorem scrambleDest_lat : (scrambleDest s).lat = s.lat := rfl
@[simp] theorem scrambleDest_stores : (scrambleDest s).stores = s.stores := rfl
@[simp] theorem scrambleDest_mem : (scrambleDest s).mem = Memory.scramble s.draws s.mem s.lat.dstAddr.toNat s.lat.dstCap.toNat := rfl
@[simp] theorem scrambleDest_inReset : (scrambleDest s).inReset = s.inReset := rfl
@[simp] theorem scrambleDest_queue : (scrambleDest s).queue = s.queue := rfl
@[simp] theorem scrambleDest_replies : (scrambleDest s).replies = s.replies := rfl
@[simp] theorem scrambleDest_wait : (scrambleDest s).wait = s.wait := rfl
@[simp] theorem scrambleDest_draws : (scrambleDest s).draws = s.draws + 1 := rfl

@[simp] theorem ignoreCommand_plat : (ignoreCommand s).plat = s.plat := rfl
@[simp] theorem ignoreCommand_regs : (ignoreCommand s).regs = { s.regs with cmdIgnored := true } := rfl
@[simp] theorem ignoreCommand_phase : (ignoreCommand s).phase = s.phase := rfl
@[simp] theorem ignoreCommand_lat : (ignoreCommand s).lat = s.lat := rfl
@[simp] theorem ignoreCommand_stores : (ignoreCommand s).stores = s.stores := rfl
@[simp] theorem ignoreCommand_mem : (ignoreCommand s).mem = s.mem := rfl
@[simp] theorem ignoreCommand_inReset : (ignoreCommand s).inReset = s.inReset := rfl
@[simp] theorem ignoreCommand_queue : (ignoreCommand s).queue = s.queue := rfl
@[simp] theorem ignoreCommand_replies : (ignoreCommand s).replies = s.replies := rfl
@[simp] theorem ignoreCommand_wait : (ignoreCommand s).wait = s.wait := rfl
@[simp] theorem ignoreCommand_draws : (ignoreCommand s).draws = s.draws := rfl

@[simp] theorem taken_plat : (taken s).plat = s.plat := rfl
@[simp] theorem taken_regs : (taken s).regs = s.regs := rfl
@[simp] theorem taken_phase : (taken s).phase = s.phase := rfl
@[simp] theorem taken_lat : (taken s).lat = s.lat := rfl
@[simp] theorem taken_stores : (taken s).stores = s.stores := rfl
@[simp] theorem taken_mem : (taken s).mem = s.mem := rfl
@[simp] theorem taken_inReset : (taken s).inReset = s.inReset := rfl
@[simp] theorem taken_queue : (taken s).queue = s.queue.tail := rfl
@[simp] theorem taken_replies : (taken s).replies = s.replies := rfl
@[simp] theorem taken_wait : (taken s).wait = s.wait - 1 := rfl
@[simp] theorem taken_draws : (taken s).draws = s.draws := rfl

@[simp] theorem reply_plat : (reply x s).plat = s.plat := rfl
@[simp] theorem reply_regs : (reply x s).regs = s.regs := rfl
@[simp] theorem reply_phase : (reply x s).phase = s.phase := rfl
@[simp] theorem reply_lat : (reply x s).lat = s.lat := rfl
@[simp] theorem reply_stores : (reply x s).stores = s.stores := rfl
@[simp] theorem reply_mem : (reply x s).mem = s.mem := rfl
@[simp] theorem reply_inReset : (reply x s).inReset = s.inReset := rfl
@[simp] theorem reply_queue : (reply x s).queue = s.queue := rfl
@[simp] theorem reply_replies : (reply x s).replies = x :: s.replies := rfl
@[simp] theorem reply_wait : (reply x s).wait = s.wait := rfl
@[simp] theorem reply_draws : (reply x s).draws = s.draws := rfl

@[simp] theorem clearResults_mode : (clearResults r).mode = r.mode := rfl
@[simp] theorem clearResults_done : (clearResults r).done = false := rfl
@[simp] theorem clearResults_err : (clearResults r).err = false := rfl
@[simp] theorem clearResults_cmdIgnored : (clearResults r).cmdIgnored = r.cmdIgnored := rfl
@[simp] theorem clearResults_doneIe : (clearResults r).doneIe = r.doneIe := rfl
@[simp] theorem clearResults_errIe : (clearResults r).errIe = r.errIe := rfl
@[simp] theorem clearResults_errCode : (clearResults r).errCode = .none := rfl
@[simp] theorem clearResults_srcAddr : (clearResults r).srcAddr = r.srcAddr := rfl
@[simp] theorem clearResults_srcLen : (clearResults r).srcLen = r.srcLen := rfl
@[simp] theorem clearResults_dstAddr : (clearResults r).dstAddr = r.dstAddr := rfl
@[simp] theorem clearResults_dstCap : (clearResults r).dstCap = r.dstCap := rfl
@[simp] theorem clearResults_resultLen : (clearResults r).resultLen = 0 := rfl
@[simp] theorem clearResults_symCount : (clearResults r).symCount = 0 := rfl
@[simp] theorem clearResults_distinct : (clearResults r).distinct = 0 := rfl
@[simp] theorem clearResults_tableLen : (clearResults r).tableLen = 0 := rfl
@[simp] theorem clearResults_payloadBits : (clearResults r).payloadBits = 0 := rfl

@[simp] theorem writeStatus_mode : (writeStatus v r).mode = r.mode := rfl
@[simp] theorem writeStatus_done : (writeStatus v r).done = (r.done && !v.getLsbD 1) := rfl
@[simp] theorem writeStatus_err : (writeStatus v r).err = (r.err && !v.getLsbD 2) := rfl
@[simp] theorem writeStatus_cmdIgnored : (writeStatus v r).cmdIgnored = (r.cmdIgnored && !v.getLsbD 3) := rfl
@[simp] theorem writeStatus_doneIe : (writeStatus v r).doneIe = r.doneIe := rfl
@[simp] theorem writeStatus_errIe : (writeStatus v r).errIe = r.errIe := rfl
@[simp] theorem writeStatus_errCode : (writeStatus v r).errCode = r.errCode := rfl
@[simp] theorem writeStatus_srcAddr : (writeStatus v r).srcAddr = r.srcAddr := rfl
@[simp] theorem writeStatus_srcLen : (writeStatus v r).srcLen = r.srcLen := rfl
@[simp] theorem writeStatus_dstAddr : (writeStatus v r).dstAddr = r.dstAddr := rfl
@[simp] theorem writeStatus_dstCap : (writeStatus v r).dstCap = r.dstCap := rfl
@[simp] theorem writeStatus_resultLen : (writeStatus v r).resultLen = r.resultLen := rfl
@[simp] theorem writeStatus_symCount : (writeStatus v r).symCount = r.symCount := rfl
@[simp] theorem writeStatus_distinct : (writeStatus v r).distinct = r.distinct := rfl
@[simp] theorem writeStatus_tableLen : (writeStatus v r).tableLen = r.tableLen := rfl
@[simp] theorem writeStatus_payloadBits : (writeStatus v r).payloadBits = r.payloadBits := rfl

@[simp] theorem writeIrqEn_mode : (writeIrqEn v r).mode = r.mode := rfl
@[simp] theorem writeIrqEn_done : (writeIrqEn v r).done = r.done := rfl
@[simp] theorem writeIrqEn_err : (writeIrqEn v r).err = r.err := rfl
@[simp] theorem writeIrqEn_cmdIgnored : (writeIrqEn v r).cmdIgnored = r.cmdIgnored := rfl
@[simp] theorem writeIrqEn_doneIe : (writeIrqEn v r).doneIe = v.getLsbD 0 := rfl
@[simp] theorem writeIrqEn_errIe : (writeIrqEn v r).errIe = v.getLsbD 1 := rfl
@[simp] theorem writeIrqEn_errCode : (writeIrqEn v r).errCode = r.errCode := rfl
@[simp] theorem writeIrqEn_srcAddr : (writeIrqEn v r).srcAddr = r.srcAddr := rfl
@[simp] theorem writeIrqEn_srcLen : (writeIrqEn v r).srcLen = r.srcLen := rfl
@[simp] theorem writeIrqEn_dstAddr : (writeIrqEn v r).dstAddr = r.dstAddr := rfl
@[simp] theorem writeIrqEn_dstCap : (writeIrqEn v r).dstCap = r.dstCap := rfl
@[simp] theorem writeIrqEn_resultLen : (writeIrqEn v r).resultLen = r.resultLen := rfl
@[simp] theorem writeIrqEn_symCount : (writeIrqEn v r).symCount = r.symCount := rfl
@[simp] theorem writeIrqEn_distinct : (writeIrqEn v r).distinct = r.distinct := rfl
@[simp] theorem writeIrqEn_tableLen : (writeIrqEn v r).tableLen = r.tableLen := rfl
@[simp] theorem writeIrqEn_payloadBits : (writeIrqEn v r).payloadBits = r.payloadBits := rfl

@[simp] theorem resetOn_plat (p : Platform) : (State.resetOn p).plat = p := rfl
@[simp] theorem resetOn_regs (p : Platform) : (State.resetOn p).regs = Regs.reset := rfl
@[simp] theorem resetOn_phase (p : Platform) : (State.resetOn p).phase = .idle := rfl
@[simp] theorem resetOn_lat (p : Platform) : (State.resetOn p).lat = Latched.atReset := rfl
@[simp] theorem resetOn_stores (p : Platform) : (State.resetOn p).stores = Stores.empty := rfl
@[simp] theorem resetOn_mem (p : Platform) : (State.resetOn p).mem = [] := rfl
@[simp] theorem resetOn_inReset (p : Platform) : (State.resetOn p).inReset = false := rfl
@[simp] theorem resetOn_queue (p : Platform) : (State.resetOn p).queue = [] := rfl
@[simp] theorem resetOn_replies (p : Platform) : (State.resetOn p).replies = [] := rfl
@[simp] theorem resetOn_wait (p : Platform) : (State.resetOn p).wait = 0 := rfl
@[simp] theorem resetOn_draws (p : Platform) : (State.resetOn p).draws = 0 := rfl

/-! ## What a window write leaves alone -/

@[simp] theorem writeWindow_plat (w : AccessWidth) (off : BitVec 8) : (writeWindow s w off v).plat = s.plat := by
  cases w <;> simp only [writeWindow]; split <;> rfl
@[simp] theorem writeWindow_phase (w : AccessWidth) (off : BitVec 8) : (writeWindow s w off v).phase = s.phase := by
  cases w <;> simp only [writeWindow]; split <;> rfl
@[simp] theorem writeWindow_lat (w : AccessWidth) (off : BitVec 8) : (writeWindow s w off v).lat = s.lat := by
  cases w <;> simp only [writeWindow]; split <;> rfl
@[simp] theorem writeWindow_stores (w : AccessWidth) (off : BitVec 8) : (writeWindow s w off v).stores = s.stores := by
  cases w <;> simp only [writeWindow]; split <;> rfl
@[simp] theorem writeWindow_mem (w : AccessWidth) (off : BitVec 8) : (writeWindow s w off v).mem = s.mem := by
  cases w <;> simp only [writeWindow]; split <;> rfl
@[simp] theorem writeWindow_inReset (w : AccessWidth) (off : BitVec 8) : (writeWindow s w off v).inReset = s.inReset := by
  cases w <;> simp only [writeWindow]; split <;> rfl
@[simp] theorem writeWindow_queue (w : AccessWidth) (off : BitVec 8) : (writeWindow s w off v).queue = s.queue := by
  cases w <;> simp only [writeWindow]; split <;> rfl
@[simp] theorem writeWindow_replies (w : AccessWidth) (off : BitVec 8) : (writeWindow s w off v).replies = s.replies := by
  cases w <;> simp only [writeWindow]; split <;> rfl
@[simp] theorem writeWindow_wait (w : AccessWidth) (off : BitVec 8) : (writeWindow s w off v).wait = s.wait := by
  cases w <;> simp only [writeWindow]; split <;> rfl
@[simp] theorem writeWindow_draws (w : AccessWidth) (off : BitVec 8) : (writeWindow s w off v).draws = s.draws := by
  cases w <;> simp only [writeWindow]; split <;> rfl

/-! ## What a reset of the core leaves and sets -/

@[simp] theorem resetCore_plat : (resetCore s).plat = s.plat := by
  unfold resetCore; split <;> rfl
@[simp] theorem resetCore_regs : (resetCore s).regs = Regs.reset := by
  unfold resetCore; split <;> rfl
@[simp] theorem resetCore_phase : (resetCore s).phase = .idle := by
  unfold resetCore; split <;> rfl
@[simp] theorem resetCore_inReset : (resetCore s).inReset = s.inReset := by
  unfold resetCore; split <;> rfl
@[simp] theorem resetCore_queue : (resetCore s).queue = s.queue := by
  unfold resetCore; split <;> rfl
@[simp] theorem resetCore_replies : (resetCore s).replies = s.replies := by
  unfold resetCore; split <;> rfl
@[simp] theorem resetCore_wait : (resetCore s).wait = 0 := by
  unfold resetCore; split <;> rfl

theorem resetCore_mem_idle (h : s.phase = .idle) : (resetCore s).mem = s.mem := by
  simp [resetCore, h]

theorem resetCore_mem_busy (h : s.phase = .busy) :
    (resetCore s).mem = Memory.scramble s.draws s.mem s.lat.dstAddr.toNat s.lat.dstCap.toNat := by
  simp [resetCore, h]

/-! ## What the level of the reset input leaves and sets -/

theorem setReset_true : setReset true s = { resetCore s with inReset := true } := rfl
theorem setReset_false : setReset false s = { s with inReset := false } := rfl
@[simp] theorem setReset_inReset (b : Bool) : (setReset b s).inReset = b := by cases b <;> rfl
@[simp] theorem setReset_plat (b : Bool) : (setReset b s).plat = s.plat := by cases b <;> simp [setReset]
@[simp] theorem setReset_queue (b : Bool) : (setReset b s).queue = s.queue := by cases b <;> simp [setReset]
@[simp] theorem setReset_replies (b : Bool) : (setReset b s).replies = s.replies := by cases b <;> simp [setReset]

/-! ## What a register write through the bus leaves and sets -/

theorem hostRegWrite_released (w : AccessWidth) (off : BitVec 8) (h : s.inReset = false) :
    hostRegWrite w off v s = writeWindow s w off v := by simp [hostRegWrite, h]
theorem hostRegWrite_asserted (w : AccessWidth) (off : BitVec 8) (h : s.inReset = true) :
    hostRegWrite w off v s = s := by simp [hostRegWrite, h]

end Sys2Proof.Machine
end

