-- ==== Sys2Proof/Laws/Step.lean ====
section
/-! SUPPORT. Everything a step can do, said once: who moves, and which of the shared operations the next state comes from. -/

namespace Sys2Proof.Machine

/-- The bytes of a word decode as the word itself. -/
theorem decodeBytes_wordBytes (w : Word) : decodeBytes (wordBytes w) = .ok (decodeWord w) := by
  have h : (w.extractLsb' 24 8 ++ w.extractLsb' 16 8 ++ w.extractLsb' 8 8 ++ w.extractLsb' 0 8 : BitVec 32) = w := by
    ext i hi
    simp only [BitVec.getElem_append, BitVec.getElem_extractLsb', BitVec.getLsbD_eq_getElem hi, Nat.zero_add]
    split
    · rfl
    · split
      · rw [Nat.add_sub_cancel' (by omega), BitVec.getLsbD_eq_getElem hi]
      · split
        · rw [show 16 + (i - 8 - 8) = i by omega, BitVec.getLsbD_eq_getElem hi]
        · rw [show 24 + (i - 8 - 8 - 8) = i by omega, BitVec.getLsbD_eq_getElem hi]
  show Except.ok (decodeWord _) = Except.ok (decodeWord w)
  rw [h]

/-- A 32-bit write to CMD is the command its word decodes to. -/
theorem commandOf_cmdWrite (v : Word) : commandOf (.regWrite .w32 cmdOffset v) = .ok (decodeWord v) := by
  simp [commandOf, decodeBytes_wordBytes]

/-- A command is a 32-bit write to CMD. -/
theorem commandOf_ok {op : BusOp} {i : Instr} (h : commandOf op = .ok i) :
    ∃ v, op = .regWrite .w32 cmdOffset v ∧ i = decodeWord v := by
  cases op with
  | regWrite w off v =>
    cases w <;> simp only [commandOf] at h
    · cases h
    · cases h
    · split at h
      · subst_vars; rw [decodeBytes_wordBytes] at h; exact ⟨v, rfl, by cases h; rfl⟩
      · cases h
  | _ => cases h

/-- What a command can do: nothing, CMD_IGNORED, a start, ILLEGAL_COMMAND or a reset of the core. -/
theorem exec_cases (i : Instr) (s : State) :
    (∃ g, i = .nop g ∧ exec i s = .next s) ∨
    (s.phase = .busy ∧ exec i s = .next (ignoreCommand s)) ∨
    (∃ g, i = .compress g ∧ s.phase = .idle ∧ exec i s = .next (start .compress s)) ∨
    (∃ g, i = .decompress g ∧ s.phase = .idle ∧ exec i s = .next (start .decompress s)) ∨
    (s.phase = .idle ∧ exec i s = .next (fail .illegalCommand { s with regs := clearResults s.regs })) ∨
    (∃ g, i = .softReset g ∧ exec i s = .next (resetCore s)) := by
  cases i with
  | nop g => exact .inl ⟨g, rfl, rfl⟩
  | softReset g => exact .inr (.inr (.inr (.inr (.inr ⟨g, rfl, rfl⟩))))
  | compress g =>
    cases h : s.phase
    · exact .inr (.inr (.inl ⟨g, rfl, rfl, by simp [exec, execCompress, h]⟩))
    · exact .inr (.inl ⟨rfl, by simp [exec, execCompress, h]⟩)
  | decompress g =>
    cases h : s.phase
    · exact .inr (.inr (.inr (.inl ⟨g, rfl, rfl, by simp [exec, execDecompress, h]⟩)))
    · exact .inr (.inl ⟨rfl, by simp [exec, execDecompress, h]⟩)
  | _ g =>
    cases h : s.phase
    · exact .inr (.inr (.inr (.inr (.inl ⟨rfl, by
        simp [exec, execReserved3, execReserved4, execReserved5, execReserved6, execReserved7, execReserved8, execReserved9,
          execReservedA, execReservedB, execReservedC, execReservedD, execReservedE, illegalCommand, h]⟩))))
    · exact .inr (.inl ⟨rfl, by
        simp [exec, execReserved3, execReserved4, execReserved5, execReserved6, execReserved7, execReserved8, execReserved9,
          execReservedA, execReservedB, execReservedC, execReservedD, execReservedE, illegalCommand, h]⟩)

/-- Every command ends in a next state. -/
theorem exec_next (i : Instr) (s : State) : ∃ t, exec i s = .next t := by
  rcases exec_cases i s with ⟨_, _, h⟩ | ⟨_, h⟩ | ⟨_, _, _, h⟩ | ⟨_, _, _, h⟩ | ⟨_, h⟩ | ⟨_, _, h⟩ <;> exact ⟨_, h⟩

/-- A command runs, or does nothing because the reset input is asserted. -/
theorem runCommand_cases (i : Instr) (s : State) :
    (s.inReset = true ∧ runCommand i s = .next s) ∨ (s.inReset = false ∧ runCommand i s = exec i s) := by
  cases h : s.inReset
  · exact .inr ⟨rfl, by simp [runCommand, h]⟩
  · exact .inl ⟨rfl, by simp [runCommand, h]⟩

/-- A register write through the bus does what the window does with it, or nothing while the reset input is asserted. -/
theorem hostRegWrite_cases (w : AccessWidth) (off : BitVec 8) (v : Word) (s : State) :
    (s.inReset = true ∧ hostRegWrite w off v s = s) ∨ (s.inReset = false ∧ hostRegWrite w off v s = writeWindow s w off v) := by
  cases h : s.inReset
  · exact .inr ⟨rfl, hostRegWrite_released s v w off h⟩
  · exact .inl ⟨rfl, hostRegWrite_asserted s v w off h⟩

/-- What an operation that is no command can do when it ends in a next state. -/
theorem access_cases {op : BusOp} {s t : State} (h : access op s = .next t) :
    (∃ w off v, op = .regWrite w off v ∧ t = hostRegWrite w off v s) ∨
    (∃ w off, op = .regRead w off ∧ t = reply (.reg (readWindow s w off)) s) ∨
    (∃ off mask v, op = .poll off mask v ∧ t = pollReg off mask v s) ∨
    (∃ a b, op = .memWrite a b ∧ (t = s ∨ t = { s with mem := s.mem.write a.toNat b }) ∧
      (s.phase = .busy → s.lat.inDest a.toNat = true ∨ s.lat.inSource a.toNat = true → t = s)) ∨
    (∃ a x, op = .memRead a ∧ (t = reply (.mem x) s ∨ t = { reply (.mem x) s with draws := s.draws + 1 })) ∨
    (∃ b, op = .reset b ∧ t = setReset b s) := by
  cases op with
  | regWrite w off v => cases h; exact .inl ⟨w, off, v, rfl, rfl⟩
  | regRead w off => cases h; exact .inr (.inl ⟨w, off, rfl, rfl⟩)
  | poll off mask v => cases h; exact .inr (.inr (.inl ⟨off, mask, v, rfl, rfl⟩))
  | reset b => cases h; exact .inr (.inr (.inr (.inr (.inr ⟨b, rfl, rfl⟩))))
  | memWrite a b =>
    refine .inr (.inr (.inr (.inl ⟨a, b, rfl, ?_⟩)))
    simp only [access, hostWrite] at h
    split at h
    · cases h; exact ⟨.inl rfl, fun _ _ => rfl⟩
    · split at h
      · cases h
      · rename_i hb; split at h
        · cases h
        · cases h
          exact ⟨.inr rfl, fun hp hr => absurd ⟨hp, hr.symm⟩ hb⟩
  | memRead a =>
    refine .inr (.inr (.inr (.inr (.inl ?_))))
    simp only [access, hostRead] at h
    split at h
    · cases h; exact ⟨a, _, rfl, .inl rfl⟩
    · split at h
      · cases h; exact ⟨a, _, rfl, .inr rfl⟩
      · split at h
        · cases h
        · cases h; exact ⟨a, _, rfl, .inl rfl⟩

/-- Who moves in a step, and what the next state comes from. -/
theorem step_cases {s t : State} (h : step s = .next t) :
    (s.phase = .busy ∧ s.wait = 0 ∧ t = coreStep s) ∨
    (¬(s.phase = .busy ∧ s.wait = 0) ∧ s.queue = [] ∧ t = taken s) ∨
    (∃ v rest, ¬(s.phase = .busy ∧ s.wait = 0) ∧ s.queue = .regWrite .w32 cmdOffset v :: rest ∧
      runCommand (decodeWord v) (taken s) = .next t) ∨
    (∃ op rest r, ¬(s.phase = .busy ∧ s.wait = 0) ∧ s.queue = op :: rest ∧ commandOf op = .error r ∧
      access op (taken s) = .next t) := by
  simp only [step, nextMove] at h
  split at h
  · rename_i hm
    split at hm
    · rename_i hc; cases h; exact .inl ⟨hc.1, hc.2, rfl⟩
    · split at hm <;> cases hm
  · rename_i hm
    split at hm
    · cases hm
    · rename_i hc; split at hm
      · rename_i hq; cases h; exact .inr (.inl ⟨hc, hq, rfl⟩)
      · cases hm
  · rename_i op hm
    split at hm
    · cases hm
    · rename_i hc; split at hm
      · cases hm
      · rename_i op' rest hq; cases hm
        cases hd : commandOf op with
        | ok i =>
          obtain ⟨v, rfl, rfl⟩ := commandOf_ok hd
          rw [hd] at h
          exact .inr (.inr (.inl ⟨v, rest, hc, hq, h⟩))
        | error r =>
          rw [hd] at h
          exact .inr (.inr (.inr ⟨op, rest, r, hc, hq, hd, h⟩))

/-- The core's step is a success that writes its bytes, or a failure that leaves memory, or a failure of DECOMPRESS that
leaves any bytes in the destination range. -/
theorem coreStep_cases (s : State) :
    (∃ r, (s.lat.op = .compress ∧ compressResult s = .ok r ∨ s.lat.op = .decompress ∧ decompressResult s = .ok r) ∧
      coreStep s = retire (succeed r { s with mem := s.mem.writeAll s.lat.dstAddr.toNat r.out })) ∨
    (∃ e, (s.lat.op = .compress ∧ compressResult s = .error e ∨
        s.lat.op = .decompress ∧ decompressResult s = .error e ∧ leavesBytes e = false) ∧
      coreStep s = retire (fail e s)) ∨
    (∃ e, s.lat.op = .decompress ∧ decompressResult s = .error e ∧ leavesBytes e = true ∧
      coreStep s = retire (fail e (scrambleDest s))) := by
  cases ho : s.lat.op with
  | compress =>
    cases hr : compressResult s with
    | ok r => exact .inl ⟨r, .inl ⟨rfl, rfl⟩, by simp [coreStep, ho, runCompress, hr]⟩
    | error e => exact .inr (.inl ⟨e, .inl ⟨rfl, rfl⟩, by simp [coreStep, ho, runCompress, hr]⟩)
  | decompress =>
    cases hr : decompressResult s with
    | ok r => exact .inl ⟨r, .inr ⟨rfl, rfl⟩, by simp [coreStep, ho, runDecompress, hr]⟩
    | error e =>
      cases hl : leavesBytes e with
      | false => exact .inr (.inl ⟨e, .inr ⟨rfl, rfl, hl⟩, by simp [coreStep, ho, runDecompress, hr, hl]⟩)
      | true => exact .inr (.inr ⟨e, rfl, rfl, hl, by simp [coreStep, ho, runDecompress, hr, hl]⟩)

end Sys2Proof.Machine
end

