-- ==== Sys2Proof/Laws/PerInstr.lean ====
section
/-! SUPPORT. The opcode map, command by command: under the mask 0x0000000F every word of a command is the match value of
its row of spec/opcode_table.json (30_encoding.md R101). -/

namespace Sys2Proof.Laws.OpcodeRow

/-- Mask and match of the instruction's row, and the decoder agrees with it (30_encoding.md R101). -/
def Statement (i : Instr) : Prop := encode i &&& 0x0000000F#32 = (opcode i).setWidth 32 ∧ opcode (decodeWord (encode i)) = opcode i

theorem masked (g : BitVec 28) (o : BitVec 4) : ((g ++ o : BitVec (28 + 4)) : Word) &&& 0x0000000F#32 = o.setWidth 32 := by
  apply BitVec.eq_of_toNat_eq
  have ho : o.toNat < 16 := o.isLt
  rw [BitVec.toNat_and, BitVec.toNat_append, BitVec.toNat_setWidth]
  rw [show (0x0000000F#32).toNat = 2 ^ 4 - 1 from rfl, Nat.and_two_pow_sub_one_eq_mod,
    ← Nat.shiftLeft_add_eq_or_of_lt ho, Nat.shiftLeft_eq]
  omega

theorem lowBits (g : BitVec 28) (o : BitVec 4) (j : Nat) (h : j < 4) :
    ((g ++ o : BitVec (28 + 4)) : Word).getLsbD j = o.getLsbD j := by
  rw [BitVec.getLsbD_append, if_pos h]

theorem nop (g : BitVec 28) : Statement (.nop g) :=
  ⟨masked g _, by
    simp only [decodeWord, encode, Instr.ign, opcode, lowBits _ _ 0 (by decide), lowBits _ _ 1 (by decide),
      lowBits _ _ 2 (by decide), lowBits _ _ 3 (by decide)]
    rfl⟩

theorem compress (g : BitVec 28) : Statement (.compress g) :=
  ⟨masked g _, by
    simp only [decodeWord, encode, Instr.ign, opcode, lowBits _ _ 0 (by decide), lowBits _ _ 1 (by decide),
      lowBits _ _ 2 (by decide), lowBits _ _ 3 (by decide)]
    rfl⟩

theorem decompress (g : BitVec 28) : Statement (.decompress g) :=
  ⟨masked g _, by
    simp only [decodeWord, encode, Instr.ign, opcode, lowBits _ _ 0 (by decide), lowBits _ _ 1 (by decide),
      lowBits _ _ 2 (by decide), lowBits _ _ 3 (by decide)]
    rfl⟩

theorem reserved3 (g : BitVec 28) : Statement (.reserved3 g) :=
  ⟨masked g _, by
    simp only [decodeWord, encode, Instr.ign, opcode, lowBits _ _ 0 (by decide), lowBits _ _ 1 (by decide),
      lowBits _ _ 2 (by decide), lowBits _ _ 3 (by decide)]
    rfl⟩

theorem reserved4 (g : BitVec 28) : Statement (.reserved4 g) :=
  ⟨masked g _, by
    simp only [decodeWord, encode, Instr.ign, opcode, lowBits _ _ 0 (by decide), lowBits _ _ 1 (by decide),
      lowBits _ _ 2 (by decide), lowBits _ _ 3 (by decide)]
    rfl⟩

theorem reserved5 (g : BitVec 28) : Statement (.reserved5 g) :=
  ⟨masked g _, by
    simp only [decodeWord, encode, Instr.ign, opcode, lowBits _ _ 0 (by decide), lowBits _ _ 1 (by decide),
      lowBits _ _ 2 (by decide), lowBits _ _ 3 (by decide)]
    rfl⟩

theorem reserved6 (g : BitVec 28) : Statement (.reserved6 g) :=
  ⟨masked g _, by
    simp only [decodeWord, encode, Instr.ign, opcode, lowBits _ _ 0 (by decide), lowBits _ _ 1 (by decide),
      lowBits _ _ 2 (by decide), lowBits _ _ 3 (by decide)]
    rfl⟩

theorem reserved7 (g : BitVec 28) : Statement (.reserved7 g) :=
  ⟨masked g _, by
    simp only [decodeWord, encode, Instr.ign, opcode, lowBits _ _ 0 (by decide), lowBits _ _ 1 (by decide),
      lowBits _ _ 2 (by decide), lowBits _ _ 3 (by decide)]
    rfl⟩

theorem reserved8 (g : BitVec 28) : Statement (.reserved8 g) :=
  ⟨masked g _, by
    simp only [decodeWord, encode, Instr.ign, opcode, lowBits _ _ 0 (by decide), lowBits _ _ 1 (by decide),
      lowBits _ _ 2 (by decide), lowBits _ _ 3 (by decide)]
    rfl⟩

theorem reserved9 (g : BitVec 28) : Statement (.reserved9 g) :=
  ⟨masked g _, by
    simp only [decodeWord, encode, Instr.ign, opcode, lowBits _ _ 0 (by decide), lowBits _ _ 1 (by decide),
      lowBits _ _ 2 (by decide), lowBits _ _ 3 (by decide)]
    rfl⟩

theorem reservedA (g : BitVec 28) : Statement (.reservedA g) :=
  ⟨masked g _, by
    simp only [decodeWord, encode, Instr.ign, opcode, lowBits _ _ 0 (by decide), lowBits _ _ 1 (by decide),
      lowBits _ _ 2 (by decide), lowBits _ _ 3 (by decide)]
    rfl⟩

theorem reservedB (g : BitVec 28) : Statement (.reservedB g) :=
  ⟨masked g _, by
    simp only [decodeWord, encode, Instr.ign, opcode, lowBits _ _ 0 (by decide), lowBits _ _ 1 (by decide),
      lowBits _ _ 2 (by decide), lowBits _ _ 3 (by decide)]
    rfl⟩

theorem reservedC (g : BitVec 28) : Statement (.reservedC g) :=
  ⟨masked g _, by
    simp only [decodeWord, encode, Instr.ign, opcode, lowBits _ _ 0 (by decide), lowBits _ _ 1 (by decide),
      lowBits _ _ 2 (by decide), lowBits _ _ 3 (by decide)]
    rfl⟩

theorem reservedD (g : BitVec 28) : Statement (.reservedD g) :=
  ⟨masked g _, by
    simp only [decodeWord, encode, Instr.ign, opcode, lowBits _ _ 0 (by decide), lowBits _ _ 1 (by decide),
      lowBits _ _ 2 (by decide), lowBits _ _ 3 (by decide)]
    rfl⟩

theorem reservedE (g : BitVec 28) : Statement (.reservedE g) :=
  ⟨masked g _, by
    simp only [decodeWord, encode, Instr.ign, opcode, lowBits _ _ 0 (by decide), lowBits _ _ 1 (by decide),
      lowBits _ _ 2 (by decide), lowBits _ _ 3 (by decide)]
    rfl⟩

theorem softReset (g : BitVec 28) : Statement (.softReset g) :=
  ⟨masked g _, by
    simp only [decodeWord, encode, Instr.ign, opcode, lowBits _ _ 0 (by decide), lowBits _ _ 1 (by decide),
      lowBits _ _ 2 (by decide), lowBits _ _ 3 (by decide)]
    rfl⟩

end Sys2Proof.Laws.OpcodeRow
end

