-- ==== Sys2Proof/Laws/Ranges.lean ====
section
/-! SUPPORT. What the range checks mean, and what a command may do to memory once they have passed. -/

namespace Sys2Proof.Machine

/-- A valid range ends at or below 2^32, or is empty (20_memory.md R72). -/
theorem rangeOk_bound {p : Platform} {a n : Nat} (h : rangeOk p a n = true) : n = 0 ∨ a + n ≤ 2 ^ 32 := by
  simp only [rangeOk, Bool.or_eq_true, Bool.and_eq_true, decide_eq_true_eq] at h
  exact h.imp_right And.left

/-- Every byte of a valid range is ordinary memory (20_memory.md R72). -/
theorem rangeOk_memOk {p : Platform} {a n i : Nat} (h : rangeOk p a n = true) (hi : i < n) : p.memOk (a + i) = true := by
  simp only [rangeOk, Bool.or_eq_true, Bool.and_eq_true, decide_eq_true_eq] at h
  rcases h with h | ⟨_, h⟩
  · omega
  · exact List.all_eq_true.1 h i (List.mem_range.2 hi)

/-- No range check failed: both ranges are valid and they do not overlap. -/
theorem rangeError_none {p : Platform} {l : Latched} : rangeError p l = none ↔
    rangeOk p l.srcAddr.toNat l.srcLen.toNat = true ∧ rangeOk p l.dstAddr.toNat l.dstCap.toNat = true ∧
      overlap l.srcAddr.toNat l.srcLen.toNat l.dstAddr.toNat l.dstCap.toNat = false := by
  unfold rangeError
  cases rangeOk p l.srcAddr.toNat l.srcLen.toNat <;> cases rangeOk p l.dstAddr.toNat l.dstCap.toNat <;>
    cases overlap l.srcAddr.toNat l.srcLen.toNat l.dstAddr.toNat l.dstCap.toNat <;> simp

/-- The range checks give BUS_ERROR or BUFFER_OVERLAP and nothing else. -/
theorem rangeError_codes {p : Platform} {l : Latched} {e : ErrCode} (h : rangeError p l = some e) :
    e = .busError ∨ e = .bufferOverlap := by
  unfold rangeError at h
  split at h
  · exact .inl (Option.some.inj h).symm
  · split at h
    · exact .inr (Option.some.inj h).symm
    · cases h

/-- A successful COMPRESS passed its checks in order. -/
theorem compressResult_ok {s : State} {r : Success} (h : compressResult s = .ok r) :
    ∃ d, dtypeOf s.lat.dtype = some d ∧ rangeError s.plat s.lat = none ∧
      compressBytes s.plat.maxDistinct d (s.mem.readAll s.lat.srcAddr.toNat s.lat.srcLen.toNat) s.lat.dstCap.toNat = .ok r := by
  unfold compressResult at h
  split at h
  · cases h
  · rename_i d hd
    split at h
    · cases h
    · rename_i hr; exact ⟨d, hd, hr, h⟩

/-- A successful DECOMPRESS passed its checks in order. -/
theorem decompressResult_ok {s : State} {r : Success} (h : decompressResult s = .ok r) :
    rangeError s.plat s.lat = none ∧
      decompressBytes s.plat.maxDistinct (s.mem.readAll s.lat.srcAddr.toNat s.lat.srcLen.toNat) s.lat.dstCap.toNat = .ok r := by
  unfold decompressResult at h
  split at h
  · cases h
  · rename_i hr; exact ⟨hr, h⟩

/-- A successful DECOMPRESS fits its destination (46_commands.md R300). -/
theorem decompressBytes_fits {m cap : Nat} {c : List Byte} {r : Success} (h : decompressBytes m c cap = .ok r) :
    r.out.length ≤ cap := by
  unfold decompressBytes at h
  split at h
  · cases h
  · split at h
    · cases h
    · split at h
      · cases h
      · rename_i hc; cases h; exact Nat.le_of_not_lt hc

/-- Two memories that agree on a range give the same bytes there. -/
theorem readAll_congr {m m' : Memory} {a n : Nat} (h : ∀ i, i < n → m'.read (a + i) = m.read (a + i)) :
    m'.readAll a n = m.readAll a n :=
  List.map_congr_left fun i hi => h i (List.mem_range.1 hi)

end Sys2Proof.Machine
end

