-- ==== Sys2Proof/Laws/Utf8.lean ====
section
/-! SUPPORT. Laws of UTF-8: the rows as arithmetic, one code point decoded or encoded (30_encoding.md R119..R121). -/

namespace Sys2Proof.Machine

theorem inRange_iff {b : Byte} {lo hi} : inRange b lo hi = true ↔ lo ≤ b.toNat ∧ b.toNat ≤ hi := by
  simp [inRange]

/-- A two-byte row's code point as arithmetic. -/
theorem codePoint2_eq (b1 b2 : Byte) : codePoint2 b1 b2 = (b1.toNat % 32) * 64 + b2.toNat % 64 := by
  unfold codePoint2
  rw [show (0x1F:Nat) = 2^5-1 from rfl, show (0x3F:Nat) = 2^6-1 from rfl, Nat.and_two_pow_sub_one_eq_mod,
      Nat.and_two_pow_sub_one_eq_mod,
    ← Nat.shiftLeft_add_eq_or_of_lt (Nat.mod_lt _ (by decide)), Nat.shiftLeft_eq]

/-- A three-byte row's code point as arithmetic. -/
theorem codePoint3_eq (b1 b2 b3 : Byte) :
    codePoint3 b1 b2 b3 = (b1.toNat % 16) * 4096 + (b2.toNat % 64) * 64 + b3.toNat % 64 := by
  unfold codePoint3
  rw [show (0x0F:Nat) = 2^4-1 from rfl, show (0x3F:Nat) = 2^6-1 from rfl, Nat.and_two_pow_sub_one_eq_mod,
      Nat.and_two_pow_sub_one_eq_mod, Nat.and_two_pow_sub_one_eq_mod]
  have h2 : b2.toNat % 2^6 < 2^6 := Nat.mod_lt _ (by decide)
  have h3 : b3.toNat % 2^6 < 2^6 := Nat.mod_lt _ (by decide)
  rw [Nat.or_assoc, ← Nat.shiftLeft_add_eq_or_of_lt h3, Nat.shiftLeft_eq (b2.toNat % 2^6),
    ← Nat.shiftLeft_add_eq_or_of_lt (by omega), Nat.shiftLeft_eq]
  omega

/-- A four-byte row's code point as arithmetic. -/
theorem codePoint4_eq (b1 b2 b3 b4 : Byte) :
    codePoint4 b1 b2 b3 b4 = (b1.toNat % 8) * 262144 + (b2.toNat % 64) * 4096 + (b3.toNat % 64) * 64 + b4.toNat % 64 := by
  unfold codePoint4
  rw [show (0x07:Nat) = 2^3-1 from rfl, show (0x3F:Nat) = 2^6-1 from rfl, Nat.and_two_pow_sub_one_eq_mod,
      Nat.and_two_pow_sub_one_eq_mod, Nat.and_two_pow_sub_one_eq_mod, Nat.and_two_pow_sub_one_eq_mod]
  have h2 : b2.toNat % 2^6 < 2^6 := Nat.mod_lt _ (by decide)
  have h3 : b3.toNat % 2^6 < 2^6 := Nat.mod_lt _ (by decide)
  have h4 : b4.toNat % 2^6 < 2^6 := Nat.mod_lt _ (by decide)
  have e1 : (b3.toNat % 2^6) <<< 6 ||| b4.toNat % 2^6 = (b3.toNat % 2^6) * 2^6 + b4.toNat % 2^6 := by
    rw [← Nat.shiftLeft_add_eq_or_of_lt h4, Nat.shiftLeft_eq]
  have e2 : (b2.toNat % 2^6) <<< 12 ||| ((b3.toNat % 2^6) * 2^6 + b4.toNat % 2^6) = (b2.toNat % 2^6) * 2^12 + ((b3.toNat % 2^6) * 2^6 + b4.toNat % 2^6) := by
    rw [← Nat.shiftLeft_add_eq_or_of_lt (by omega), Nat.shiftLeft_eq]
  rw [Nat.or_assoc, Nat.or_assoc, e1, e2, ← Nat.shiftLeft_add_eq_or_of_lt (by omega), Nat.shiftLeft_eq]
  omega

/-- Or is a sum where the bits do not meet. -/
theorem or_eq_add_of_lt {a b k : Nat} (h : b < 2^k) (ha : a % 2^k = 0) : a ||| b = a + b := by
  have : a = (a / 2^k) <<< k := by rw [Nat.shiftLeft_eq]; have := Nat.div_add_mod a (2^k); rw [ha] at this; linarith
  rw [this, ← Nat.shiftLeft_add_eq_or_of_lt h]

/-- The encoder as arithmetic. -/
theorem utf8Enc_eq (cp : Nat) (h : cp ≤ 0x10FFFF) : utf8Enc cp =
  if cp ≤ 0x7F then [BitVec.ofNat 8 cp]
  else if cp ≤ 0x7FF then [BitVec.ofNat 8 (192 + cp / 64), BitVec.ofNat 8 (128 + cp % 64)]
  else if cp ≤ 0xFFFF then [BitVec.ofNat 8 (224 + cp / 4096), BitVec.ofNat 8 (128 + cp / 64 % 64),
      BitVec.ofNat 8 (128 + cp % 64)]
  else [BitVec.ofNat 8 (240 + cp / 262144), BitVec.ofNat 8 (128 + cp / 4096 % 64),
      BitVec.ofNat 8 (128 + cp / 64 % 64), BitVec.ofNat 8 (128 + cp % 64)] := by
  have a1 : ∀ x, x &&& 0x3F = x % 64 := fun x => Nat.and_two_pow_sub_one_eq_mod x 6
  have a2 : ∀ x, 0x80 ||| (x % 64) = 128 + x % 64 := fun x => or_eq_add_of_lt (k := 6) (Nat.mod_lt _ (by decide))
      (by decide)
  unfold utf8Enc
  simp only [a1, a2, Nat.shiftRight_eq_div_pow, Nat.reducePow]
  split
  · rfl
  · split
    · rw [or_eq_add_of_lt (k := 5) (a := 0xC0) (by omega) (by decide)]
    · split
      · rw [or_eq_add_of_lt (k := 4) (a := 0xE0) (by omega) (by decide)]
      · rw [or_eq_add_of_lt (k := 3) (a := 0xF0) (by omega) (by decide)]

theorem ofNat_eq_of_toNat {b : Byte} {n : Nat} (h : n = b.toNat) : BitVec.ofNat 8 n = b := by
  subst h; simp

/-- The three-byte rows as bounds. -/
theorem threeByteRow_iff {b1 b2 b3 : Byte} : threeByteRow b1 b2 b3 = true ↔
  ((b1.toNat = 0xE0 ∧ 0xA0 ≤ b2.toNat ∧ b2.toNat ≤ 0xBF) ∨ (0xE1 ≤ b1.toNat ∧ b1.toNat ≤ 0xEC ∧ 0x80 ≤ b2.toNat ∧
      b2.toNat ≤ 0xBF) ∨
   (b1.toNat = 0xED ∧ 0x80 ≤ b2.toNat ∧ b2.toNat ≤ 0x9F) ∨ (0xEE ≤ b1.toNat ∧ b1.toNat ≤ 0xEF ∧ 0x80 ≤ b2.toNat ∧
       b2.toNat ≤ 0xBF)) ∧ 0x80 ≤ b3.toNat ∧ b3.toNat ≤ 0xBF := by
  simp only [threeByteRow, Bool.and_eq_true, Bool.or_eq_true, inRange_iff]; omega

/-- The four-byte rows as bounds. -/
theorem fourByteRow_iff {b1 b2 b3 b4 : Byte} : fourByteRow b1 b2 b3 b4 = true ↔
  ((b1.toNat = 0xF0 ∧ 0x90 ≤ b2.toNat ∧ b2.toNat ≤ 0xBF) ∨ (0xF1 ≤ b1.toNat ∧ b1.toNat ≤ 0xF3 ∧ 0x80 ≤ b2.toNat ∧
      b2.toNat ≤ 0xBF) ∨
   (b1.toNat = 0xF4 ∧ 0x80 ≤ b2.toNat ∧ b2.toNat ≤ 0x8F)) ∧ (0x80 ≤ b3.toNat ∧ b3.toNat ≤ 0xBF) ∧ 0x80 ≤ b4.toNat ∧
       b4.toNat ≤ 0xBF := by
  simp only [fourByteRow, Bool.and_eq_true, Bool.or_eq_true, inRange_iff]; omega

theorem isScalar_iff {cp} : isScalar cp = true ↔ cp ≤ 0x10FFFF ∧ ¬(0xD800 ≤ cp ∧ cp ≤ 0xDFFF) := by
  simp only [isScalar, Bool.and_eq_true, decide_eq_true_eq, Bool.not_eq_true', Bool.and_eq_false_iff,
      decide_eq_false_iff_not]
  omega

/-- The decoder on a first byte and the rest. -/
theorem utf8Dec_cons (b1 : Byte) (t1 : List Byte) : utf8Dec (b1 :: t1) =
    if inRange b1 0x00 0x7F then (utf8Dec t1).map (b1.toNat :: ·)
    else match t1 with
    | [] => none
    | b2 :: t2 =>
      if inRange b1 0xC2 0xDF && inRange b2 0x80 0xBF then (utf8Dec t2).map (codePoint2 b1 b2 :: ·)
      else match t2 with
      | [] => none
      | b3 :: t3 =>
        if threeByteRow b1 b2 b3 then (utf8Dec t3).map (codePoint3 b1 b2 b3 :: ·)
        else match t3 with
        | [] => none
        | b4 :: t4 =>
          if fourByteRow b1 b2 b3 b4 then (utf8Dec t4).map (codePoint4 b1 b2 b3 b4 :: ·)
          else none := by rw [utf8Dec.eq_def]; all_goals rfl

/-- The decoder reads one encoded scalar value and goes on behind it. -/
theorem utf8Dec_utf8Enc_append (cp : Nat) (h : isScalar cp = true) (t : List Byte) :
    utf8Dec (utf8Enc cp ++ t) = (utf8Dec t).map (cp :: ·) := by
  rw [isScalar_iff] at h
  have tn : ∀ n, n < 256 → (BitVec.ofNat 8 n).toNat = n := fun n hn => by simp; omega
  rw [utf8Enc_eq _ h.1]
  split
  · simp only [List.singleton_append]
    rw [utf8Dec_cons, if_pos (by rw [inRange_iff, tn _ (by omega)]; omega), tn _ (by omega)]
  · split
    · have t1 := tn (192 + cp/64) (by omega)
      have t2 := tn (128 + cp%64) (by omega)
      simp only [List.cons_append, List.nil_append]
      rw [utf8Dec_cons, if_neg (by rw [inRange_iff, t1]; omega)]
      simp only
      rw [if_pos (by rw [Bool.and_eq_true, inRange_iff, inRange_iff, t1, t2]; omega), codePoint2_eq, t1, t2]
      have : (192 + cp/64) % 32 * 64 + (128 + cp%64) % 64 = cp := by omega
      rw [this]
    · split
      · have t1 := tn (224 + cp/4096) (by omega)
        have t2 := tn (128 + cp/64%64) (by omega)
        have t3 := tn (128 + cp%64) (by omega)
        simp only [List.cons_append, List.nil_append]
        rw [utf8Dec_cons, if_neg (by rw [inRange_iff, t1]; omega)]
        simp only
        rw [if_neg (by rw [Bool.and_eq_true, inRange_iff, inRange_iff, t1, t2]; omega),
            if_pos (by rw [threeByteRow_iff, t1, t2, t3]; omega), codePoint3_eq, t1, t2, t3]
        have : (224 + cp/4096) % 16 * 4096 + (128 + cp/64%64) % 64 * 64 + (128 + cp%64) % 64 = cp := by omega
        rw [this]
      · have t1 := tn (240 + cp/262144) (by omega)
        have t2 := tn (128 + cp/4096%64) (by omega)
        have t3 := tn (128 + cp/64%64) (by omega)
        have t4 := tn (128 + cp%64) (by omega)
        simp only [List.cons_append, List.nil_append]
        rw [utf8Dec_cons, if_neg (by rw [inRange_iff, t1]; omega)]
        simp only
        rw [if_neg (by rw [Bool.and_eq_true, inRange_iff, inRange_iff, t1, t2]; omega),
            if_neg (by rw [threeByteRow_iff, t1, t2, t3]; omega),
            if_pos (by rw [fourByteRow_iff, t1, t2, t3, t4]; omega), codePoint4_eq, t1, t2, t3, t4]
        have : (240 + cp/262144) % 8 * 262144 + (128 + cp/4096%64) % 64 * 4096 + (128 + cp/64%64) % 64 * 64 +
            (128 + cp%64) % 64 = cp := by omega
        rw [this]

end Sys2Proof.Machine
end

