-- ==== Sys2Proof/Laws/Tables.lean ====
section
/-! SUPPORT. Laws of the serialized table and of the container's fields (30_encoding.md R110..R118, 45_container.md R240,
R241, R250, R255). -/

namespace Sys2Proof.Machine

/-- An entry a table of the data type may hold. -/
def EntryOk (d : DataType) (e : Entry) : Prop := 1 ≤ e.cw.length ∧ e.cw.length ≤ 255 ∧ (d = .binary → e.sym < 256) ∧
    (d = .text → isScalar e.sym = true)

theorem utf8Enc_length (cp : Nat) : 1 ≤ (utf8Enc cp).length ∧ (utf8Enc cp).length ≤ 4 := by
  unfold utf8Enc; split <;> [skip; split <;> [skip; split]] <;> simp

/-- The symbol field has an allowed length and reads back. -/
theorem symBytes_spec {d e} (h : EntryOk d e) : symLenOk d (symBytes d e.sym).length = true ∧
    (symBytes d e.sym).length ≤ 4 ∧ readSym d (symBytes d e.sym) = some e.sym := by
  cases d with
  | binary =>
    refine ⟨rfl, by simp [symBytes], ?_⟩
    have := h.2.2.1 rfl
    simp [symBytes, readSym]; omega
  | text =>
    have hs := h.2.2.2 rfl
    have hl := utf8Enc_length e.sym
    refine ⟨?_, hl.2, ?_⟩
    · simp [symLenOk, symBytes, hl.1, hl.2]
    · have := utf8Dec_utf8Enc_append e.sym hs []
      simp only [List.append_nil] at this
      simp [readSym, symBytes, this, utf8Dec]

theorem toNat_ofNat_byte {n} (h : n < 256) : (BitVec.ofNat 8 n).toNat = n := by simp; omega

/-- The order of the table is a reordering. -/
theorem insertBySym_perm (e : Entry) (es) : (insertBySym e es).Perm (e :: es) := by
  induction es with
  | nil => exact List.Perm.refl _
  | cons f fs ih =>
    simp only [insertBySym]; split
    · exact List.Perm.refl _
    · exact (List.Perm.cons f ih).trans (List.Perm.swap e f fs)

theorem sortBySym_perm (es) : (sortBySym es).Perm es := by
  induction es with
  | nil => exact List.Perm.refl _
  | cons e es ih => exact (insertBySym_perm e _).trans (List.Perm.cons e ih)

theorem insertBySym_sorted (e : Entry) (es) (h : es.Pairwise (fun e f => e.sym ≤ f.sym)) :
    (insertBySym e es).Pairwise (fun e f => e.sym ≤ f.sym) := by
  induction es with
  | nil => simp [insertBySym]
  | cons f fs ih =>
    have h' := List.pairwise_cons.1 h
    simp only [insertBySym]; split
    · rename_i hle
      refine List.pairwise_cons.2 ⟨fun g hg => ?_, h⟩
      rcases List.mem_cons.1 hg with rfl | hg
      · exact hle
      · exact hle.trans (h'.1 g hg)
    · refine List.pairwise_cons.2 ⟨fun g hg => ?_, ih h'.2⟩
      rcases List.mem_cons.1 ((insertBySym_perm e fs).mem_iff.1 hg) with rfl | hg
      · omega
      · exact h'.1 g hg

/-- The order of the table is ascending. -/
theorem sortBySym_sorted (es) : (sortBySym es).Pairwise (fun e f => e.sym ≤ f.sym) := by
  induction es with
  | nil => exact List.Pairwise.nil
  | cons e es ih => exact insertBySym_sorted e _ ih

/-- An entry takes at most 38 bytes. -/
theorem entryBytes_length_le {d e} (h : EntryOk d e) : (entryBytes d e).length ≤ 38 := by
  have h1 := (symBytes_spec h).2.1
  have h2 := h.2.1
  simp only [entryBytes, List.length_append, packBits_length, List.length_cons, List.length_nil]
  unfold ceil8; omega

theorem flatMap_entryBytes_length_le {d} : ∀ es : List Entry, (∀ e ∈ es, EntryOk d e) →
    (es.flatMap (entryBytes d)).length ≤ 38 * es.length := by
  intro es; induction es with
  | nil => intro _; simp
  | cons e es ih =>
    intro h
    have := entryBytes_length_le (h e (by simp))
    have := ih fun e he => h e (by simp [he])
    simp only [List.flatMap_cons, List.length_append, List.length_cons]; omega

/-- A container of the serializer has 9 + T + ceil8(B) bytes. -/
theorem serializeContainer_length (d t b s) :
    (serializeContainer d t b (packBits s)).length = 9 + t.length + ceil8 s.length := by
  simp [serializeContainer, packBits_length, be32]; omega

theorem tagOf_tagByte (d) : tagOf (tagByte d) = some d := by cases d <;> rfl

/-- A parsed container passed every check. -/
theorem parseContainer_ok {m : Nat} {c : List Byte} {p : Parsed} (h : parseContainer m c = .ok p) :
    ∃ t rest tag entries, c = t :: rest ∧ tagOf t = some tag ∧
   parseTable tag (slice c 5 (5 + tableLenOf c)) = some entries ∧
       c.length = 9 + tableLenOf c + ceil8 (bitLenOf c (tableLenOf c)) ∧ entries.length ≤ m ∧
       tableValid entries = true ∧
   p =
     { tag := tag, entries := entries, inv := inverseTable entries, tableLen := tableLenOf c,
       payloadBits := bitLenOf c (tableLenOf c), payload := c.drop (9 + tableLenOf c) } := by
  unfold parseContainer at h
  split at h
  · cases h
  · rename_i t rest
    split at h
    · cases h
    · rename_i tag htag
      unfold parseFields at h
      split at h
      · cases h
      split at h
      · cases h
      split at h
      · cases h
      rename_i entries hent
      split at h
      · cases h
      split at h
      · cases h
      split at h
      · cases h
      split at h
      · cases h
      split at h
      · cases h
      cases h
      refine ⟨t, rest, tag, entries, rfl, htag, hent, by omega, by omega, by simp_all, rfl⟩

/-- A container whose table reads and that goes on behind its payload is malformed. -/
theorem parseContainer_long {m : Nat} {t rest tag} (htag : tagOf t = some tag) (entries)
    (h1 : parseTable tag (slice (t :: rest) 5 (5 + tableLenOf (t :: rest))) = some entries)
  (hl : 9 + tableLenOf (t :: rest) + ceil8 (bitLenOf (t :: rest) (tableLenOf (t :: rest))) < (t :: rest).length) :
      parseContainer m (t :: rest) = .error .malformedContainer := by
  simp only [parseContainer, htag, parseFields, h1]
  rw [if_neg (by omega), if_neg (by omega), if_neg (by omega), if_neg (by omega), if_pos (by omega)]

end Sys2Proof.Machine
end

