-- ==== Sys2Proof/Laws/Results.lean ====
section
/-! SUPPORT. What a step and a command come to: who moves, the core's step in each case, and which codes can be reported
(46_commands.md R290, R300; 60_exceptions.md R330, R331). -/

namespace Sys2Proof.Machine

/-- The host's next operation, when the core does not move. -/
theorem step_bus {s : State} {op rest} (h : ¬(s.phase = .busy ∧ s.wait = 0)) (hq : s.queue = op :: rest) :
    step s = match commandOf op with
    | .ok i => runCommand i { s with queue := rest, wait := s.wait - 1 }
    | .error _ => access op { s with queue := rest, wait := s.wait - 1 } := by
  unfold step nextMove
  rw [if_neg h, hq]
  simp only [taken, hq, List.tail_cons]
  all_goals (cases commandOf op <;> rfl)

/-- The core's move. -/
theorem step_core {s : State} (h : s.phase = .busy) (hw : s.wait = 0) : step s = .next (coreStep s) := by
  unfold step nextMove
  rw [if_pos ⟨h, hw⟩]

/-- A run of one step more. -/
theorem run_succ {k} {s t : State} (h : step s = .next t) :
    Host.Core.run Sys2Proof.core (k+1) s = Host.Core.run Sys2Proof.core k t := by
  have h' : Sys2Proof.core.step s = .next t := h
  simp only [Host.Core.run, h']

/-- A failing command's registers. -/
theorem coreStep_error_regs {s : State} {e} (h : s.lat.op = .compress ∧
    compressResult s = .error e ∨ s.lat.op = .decompress ∧ decompressResult s = .error e) :
   (coreStep s).regs = { s.regs with errCode := e, err := true, done := false } := by
  rcases coreStep_cases s with ⟨r, hr, _⟩ | ⟨e', hr, hc⟩ | ⟨e', h1, h2, h3, hc⟩
  · rcases h with ⟨a, b⟩ | ⟨a, b⟩ <;> rcases hr with ⟨c, d⟩ | ⟨c, d⟩ <;> simp_all
  · have : e' = e := by rcases h with ⟨a, b⟩ | ⟨a, b⟩ <;> rcases hr with ⟨c, d⟩ | ⟨c, d, _⟩ <;> simp_all
    subst this; rw [hc]; rfl
  · have : e' = e := by rcases h with ⟨a, b⟩ | ⟨a, b⟩ <;> simp_all
    subst this; rw [hc]; rfl

/-- A succeeding command's state. -/
theorem coreStep_ok {s : State} {r} (h : s.lat.op = .compress ∧ compressResult s = .ok r ∨ s.lat.op = .decompress ∧
    decompressResult s = .ok r) :
   coreStep s = retire (succeed r { s with mem := s.mem.writeAll s.lat.dstAddr.toNat r.out }) := by
  rcases coreStep_cases s with ⟨r', hr, hc⟩ | ⟨e', hr, hc⟩ | ⟨e', h1, h2, h3, hc⟩
  · have : r' = r := by rcases h with ⟨a, b⟩ | ⟨a, b⟩ <;> rcases hr with ⟨c, d⟩ | ⟨c, d⟩ <;> simp_all
    subst this; exact hc
  · rcases h with ⟨a, b⟩ | ⟨a, b⟩ <;> rcases hr with ⟨c, d⟩ | ⟨c, d, _⟩ <;> simp_all
  · rcases h with ⟨a, b⟩ | ⟨a, b⟩ <;> simp_all

/-- A failing COMPRESS changes nothing but what `fail` and `retire` say. -/
theorem coreStep_compress_error {s : State} {e} (h : s.lat.op = .compress) (h2 : compressResult s = .error e) :
    coreStep s = retire (fail e s) := by
  simp only [coreStep, h, runCompress, h2]

/-- A failing DECOMPRESS leaves its destination range alone, or any bytes in it. -/
theorem coreStep_decompress_error {s : State} {e} (h : s.lat.op = .decompress) (h2 : decompressResult s = .error e) :
    coreStep s = if leavesBytes e then retire (fail e (scrambleDest s)) else retire (fail e s) := by
  simp only [coreStep, h, runDecompress, h2]

/-- An invalid range is BUS_ERROR. -/
theorem rangeError_bus {p : Platform} {l : Latched} (h : ¬(rangeOk p l.srcAddr.toNat l.srcLen.toNat = true ∧
            rangeOk p l.dstAddr.toNat l.dstCap.toNat = true)) : rangeError p l = some .busError := by
  unfold rangeError; rw [← Bool.and_eq_true] at h; simp only [Bool.not_eq_true] at h; rw [h]; rfl

/-- Overlapping valid ranges are BUFFER_OVERLAP. -/
theorem rangeError_overlap {p : Platform} {l : Latched} (h : rangeOk p l.srcAddr.toNat l.srcLen.toNat = true) (h2 :
            rangeOk p l.dstAddr.toNat l.dstCap.toNat = true)
                (h3 : overlap l.srcAddr.toNat l.srcLen.toNat l.dstAddr.toNat l.dstCap.toNat = true) :
                rangeError p l = some .bufferOverlap := by
  unfold rangeError; rw [h, h2, h3]; rfl

theorem codewordTable_codes {t e} (h : codewordTable t = .error e) : e = .capacity := by
  unfold codewordTable at h
  split at h
  · cases h
  · unfold deriveCodewords at h; split at h <;> cases h; rfl

/-- The codes of COMPRESS behind its range checks. -/
theorem compressBytes_codes {m d x cap e} (h : compressBytes m d x cap = .error e) :
    e = .unsupportedInputType ∨ e = .capacity ∨ e = .outputOverflow := by
  unfold compressBytes at h
  split at h
  · rename_i e' he; cases h
    unfold symbolize at he
    split at he
    · cases he
    · split at he <;> cases he; simp
  · split at h
    · rename_i e' he; cases h; unfold countFreq at he; split at he <;> cases he; simp
    · unfold compressCounted at h
      split at h
      · rename_i e' he; cases h; simp [codewordTable_codes he]
      · split at h
        · cases h; simp
        · split at h
          · cases h; simp
          · split at h
            · rename_i e' he; cases h; unfold pack at he; split at he <;> cases he; simp
            · cases h

/-- The codes of COMPRESS. -/
theorem compressResult_codes {s e} (h : compressResult s = .error e) :
    e = .unsupportedInputType ∨ e = .capacity ∨ e = .outputOverflow ∨ e = .busError ∨ e = .bufferOverlap := by
  unfold compressResult at h
  split at h
  · cases h; simp
  · split at h
    · rename_i hr; cases h; rcases rangeError_codes hr with h | h <;> simp [h]
    · rcases compressBytes_codes h with h | h | h <;> simp [h]

/-- The codes of the parser. -/
theorem parseContainer_codes {m c e} (h : parseContainer m c = .error e) :
    e = .malformedContainer ∨ e = .unsupportedDataType ∨ e = .capacity := by
  unfold parseContainer at h
  split at h
  · cases h; simp
  · split at h
    · cases h; simp
    · unfold parseFields at h
      repeat' split at h
      all_goals (first | (cases h; simp) | cases h)

theorem decompressBytes_codes {m c cap e} (h : decompressBytes m c cap = .error e) :
    e = .malformedContainer ∨ e = .unsupportedDataType ∨ e = .capacity ∨ e = .corruptPayload ∨ e = .outputOverflow := by
  unfold decompressBytes at h
  split at h
  · rename_i he; cases h; rcases parseContainer_codes he with h | h | h <;> simp [h]
  · split at h
    · rename_i he; cases h; unfold unpack at he; split at he <;> cases he; simp
    · split at h <;> cases h; simp

/-- The codes of DECOMPRESS. -/
theorem decompressResult_codes {s e} (h : decompressResult s = .error e) :
    e = .malformedContainer ∨ e = .unsupportedDataType ∨ e = .capacity ∨ e = .corruptPayload ∨ e = .outputOverflow ∨
      e = .busError ∨ e = .bufferOverlap := by
  unfold decompressResult at h
  split at h
  · rename_i hr; cases h; rcases rangeError_codes hr with h | h <;> simp [h]
  · rcases decompressBytes_codes h with h | h | h | h | h <;> simp [h]

/-- No command reports NO_ERROR or EMPTY_INPUT as its error. -/
theorem error_code_ne {s : State} {e} (h : s.lat.op = .compress ∧
    compressResult s = .error e ∨ s.lat.op = .decompress ∧ decompressResult s = .error e) : e ≠ .none ∧
    e ≠ .emptyInput := by
  rcases h with ⟨_, h⟩ | ⟨_, h⟩
  · rcases compressResult_codes h with h | h | h | h | h <;> simp [h]
  · rcases decompressResult_codes h with h | h | h | h | h | h | h <;> simp [h]

/-- A COMPRESS that succeeds passed every check, and what it returns. -/
theorem compressBytes_ok {m d x cap r} (h : compressBytes m d x cap = .ok r) : ∃ syms cw, symbolize d x = .ok syms ∧
    (freqTable syms).length ≤ m ∧ codewordTable (freqTable syms) = .ok cw ∧
   bitCount (freqTable syms) cw ≤ 2^32-1 ∧
       containerLen (serializeTable d cw).length (bitCount (freqTable syms) cw) ≤ cap ∧
   r =
     { out := serializeContainer d (serializeTable d cw) (bitCount (freqTable syms) cw) (packBits (codeBits syms cw)),
       symCount := syms.length, distinct := (freqTable syms).length,
       tableLen := (serializeTable d cw).length, payloadBits := bitCount (freqTable syms) cw } := by
  unfold compressBytes at h
  split at h
  · cases h
  · rename_i syms hs
    unfold countFreq at h
    split at h
    · cases h
    · rename_i t ht
      split at ht
      · cases ht
      · rename_i hm; cases ht
        unfold compressCounted at h
        split at h
        · cases h
        · rename_i cw hcw
          split at h
          · cases h
          · rename_i hb
            split at h
            · cases h
            · rename_i hc
              unfold pack at h
              split at h
              · cases h
              · rename_i hp; split at hp
                · cases hp
                · cases hp; cases h
                  have hM : Config.maxField = 2^32-1 := rfl
                  exact ⟨syms, cw, hs, by omega, hcw, by omega, by omega, rfl⟩

/-- A result length that fits DST_CAP is not wrapped. -/
theorem toNat_resultLen {s : State} {r : Success} (h : r.out.length ≤ s.lat.dstCap.toNat) :
    (BitVec.ofNat 32 r.out.length).toNat = r.out.length := by
  rw [BitVec.toNat_ofNat, Nat.mod_eq_of_lt]; have := s.lat.dstCap.isLt; omega

/-- What a command comes to depends on no byte outside its source range. -/
theorem result_congr (s : State) (m : Memory) (h : ∀ a, s.lat.inSource a = true → m.read a = s.mem.read a) :
   compressResult { s with mem := m } = compressResult s ∧
       decompressResult { s with mem := m } = decompressResult s := by
  have hr : m.readAll s.lat.srcAddr.toNat s.lat.srcLen.toNat = s.mem.readAll s.lat.srcAddr.toNat s.lat.srcLen.toNat := by
    apply readAll_congr; intro i hi; apply h; simp [Latched.inSource, hi]
  constructor
  · unfold compressResult; simp only [hr]
  · unfold decompressResult; simp only [hr]

/-- Bytes written read back as one piece. -/
theorem readAll_writeAll (m : Memory) (lo) (bs : List Byte) : (m.writeAll lo bs).readAll lo bs.length = bs := by
  apply List.ext_getElem
  · simp
  · intro i h1 h2
    simp [Memory.readAll]
    rw [Memory.read_writeAll_inside _ _ _ _ h2]
    simp [List.getD_eq_getElem?_getD, List.getElem?_eq_getElem h2]

/-- Bit i of a register field of one bit. -/
theorem bitAt_getLsbD (b n i) (h : n < 32): (bitAt b n).getLsbD i = (b && decide (i = n)) := by
  unfold bitAt; cases b
  · simp
  · simp [BitVec.getLsbD_one]; by_cases h : i = n <;> simp [h] <;> omega

/-- A register stands at its offset only. -/
theorem regAt_offset {o n} (h : regAt o = some n) : o = offsetOf n := by
  unfold regAt at h
  have : ∀ m, o.toNat = m → m < 256 → o = BitVec.ofNat 8 m := by
    intro m hm hlt; apply BitVec.eq_of_toNat_eq; simp; omega
  split at h <;> (rename_i hx; first | (cases h; done) | (cases h; exact this _ hx (by decide)))

/-- No register stands at an offset that is no multiple of 4. -/
theorem regAt_unaligned {o : BitVec 8} (h : o.toNat % 4 ≠ 0) : regAt o = none := by
  cases hn : regAt o with
  | none => rfl
  | some n => have := regAt_offset hn; subst this; exact absurd (by cases n <;> rfl) h

/-- An address of the latched destination range. -/
theorem inDest_iff {l : Latched} {a} : l.inDest a = true ↔ l.dstAddr.toNat ≤ a ∧
    a < l.dstAddr.toNat + l.dstCap.toNat := by simp [Latched.inDest]

/-- Ordinary memory lies outside the register window. -/
theorem memOk_not_inWindow {p : Platform} {a} (h : p.memOk a = true) : p.inWindow a = false := by
  simp only [Platform.memOk, Bool.and_eq_true, Bool.not_eq_true'] at h; exact h.1.2

end Sys2Proof.Machine
end

