-- ==== Sys2Proof/Laws/Trees.lean ====
section
/-! SUPPORT. Laws of the tree builder: what a merge takes, the invariant of its loop, and the forest of binary trees the
active nodes stand for, whose codewords the walk lists (41_tree_builder.md R150..R158,
    42_codeword_table.md R180..R183). -/

namespace Sys2Proof.Machine

/-- Node j comes before node k or is k, by the key (freq, arena index). -/
def NotAfter (nodes : List Node) (j k : Nat) :
    Prop := freqAt nodes j < freqAt nodes k ∨ freqAt nodes j = freqAt nodes k ∧ j ≤ k

theorem comesBefore_iff {nodes j k} : comesBefore nodes j k = true ↔ freqAt nodes j < freqAt nodes k ∨ freqAt nodes j = freqAt nodes k ∧ j < k := by
  simp [comesBefore]

/-- The least of a list, as the loop finds it. -/
theorem leastOf_spec (nodes) : ∀ js best, leastOf nodes best js ∈ best :: js ∧ ∀ k ∈ best :: js,
    NotAfter nodes (leastOf nodes best js) k := by
  intro js; induction js with
  | nil => intro best; simp [leastOf, NotAfter]
  | cons j js ih =>
    intro best
    simp only [leastOf]
    obtain ⟨a, b⟩ := ih (if comesBefore nodes j best then j else best)
    refine ⟨?_, ?_⟩
    · rcases List.mem_cons.1 a with h | h
      · rw [h]; split <;> simp
      · exact List.mem_cons_of_mem _ (List.mem_cons_of_mem _ h)
    · have hb := b _ (List.mem_cons_self)
      intro k hk
      have h0 : k = best ∨ k = j ∨ k ∈ js := by simpa using hk
      rcases h0 with rfl | rfl | h
      · split at hb
        · rename_i hc; rw [comesBefore_iff] at hc; rw [if_pos (comesBefore_iff.2 hc)]; unfold NotAfter at *; omega
        · rename_i hc; rw [if_neg hc]; exact hb
      · split at hb
        · rename_i hc; rw [if_pos hc]; exact hb
        · rename_i hc; rw [if_neg hc]; rw [comesBefore_iff] at hc; unfold NotAfter at *; omega
      · exact b k (List.mem_cons_of_mem _ h)

/-- Taking the least of a list. -/
theorem takeLeast_spec {nodes} {l : List Nat} (h : l ≠ []) : ∃ a, takeLeast nodes l = some (a, l.erase a) ∧ a ∈ l ∧
    ∀ k ∈ l, NotAfter nodes a k := by
  cases l with
  | nil => exact absurd rfl h
  | cons k ks => exact ⟨_, rfl, (leastOf_spec nodes ks k).1, (leastOf_spec nodes ks k).2⟩

/-- One merge: the node taken first, the node taken second, and the rest. -/
theorem mergeOnce_spec {nodes active} (hd : active.Nodup) (hl : 2 ≤ active.length) : ∃ a b rest,
    mergeOnce { nodes := nodes, active := active } =
        { nodes := nodes ++ [.internal (freqAt nodes a + freqAt nodes b) a b], active := rest ++ [nodes.length] } ∧
      active.Perm (a :: b :: rest) ∧ (∀ k ∈ b :: rest, NotAfter nodes a k) ∧ (∀ k ∈ rest, NotAfter nodes b k) := by
  obtain ⟨a, h1, h2, h3⟩ := takeLeast_spec (nodes := nodes) (l := active) (by rintro rfl; simp at hl)
  have hp := List.perm_cons_erase h2
  have hl2 : (active.erase a).length = active.length - 1 := List.length_erase_of_mem h2
  obtain ⟨b, g1, g2, g3⟩ := takeLeast_spec (nodes := nodes) (l := active.erase a)
      (by rintro h; rw [h] at hl2; simp at hl2; omega)
  have hq := List.perm_cons_erase g2
  refine ⟨a, b, (active.erase a).erase b, by simp only [mergeOnce, h1, g1], hp.trans (hq.cons a), ?_, ?_⟩
  · intro k hk; exact h3 k (hp.mem_iff.2 (List.mem_cons_of_mem _ (hq.mem_iff.2 hk)))
  · intro k hk; exact g3 k (hq.mem_iff.2 (List.mem_cons_of_mem _ hk))

/-- What holds of NODE and ACTIVE after j merges (41_tree_builder.md R150..R154). -/
structure TreeInv (table : List (Nat × Nat)) (j : Nat) (t : Arena) : Prop where
  len : t.nodes.length = table.length + j
  act : t.active.length + j = table.length
  nodup : t.active.Nodup
  bound : ∀ k ∈ t.active, k < t.nodes.length
  last : 0 < j → ∃ rest, t.active = rest ++ [t.nodes.length - 1]
  leaf : ∀ (k s f : Nat), t.nodes[k]? = some (Node.leaf s f) ↔ table[k]? = some (s, f)
  inner : ∀ (k f l r : Nat), t.nodes[k]? = some (Node.internal f l r) → l ≠ r ∧ l < k ∧ r < k ∧
      f = freqAt t.nodes l + freqAt t.nodes r
  parent : ∀ (k f l r : Nat), t.nodes[k]? = some (Node.internal f l r) → l ∉ t.active ∧ r ∉ t.active
  some_par : ∀ k, k < t.nodes.length → k ∉ t.active → ∃ p f l r : Nat, t.nodes[p]? = some (Node.internal f l r) ∧
      (l = k ∨ r = k)
  uniq : ∀ (k p f l r p' f' l' r' : Nat), t.nodes[p]? = some (Node.internal f l r) → (l = k ∨ r = k) →
      t.nodes[p']? = some (Node.internal f' l' r') → (l' = k ∨ r' = k) → p = p'
  sum : (t.active.map (freqAt t.nodes)).sum = (table.map Prod.snd).sum
  mono : ∀ (k f l r : Nat), t.nodes[k]? = some (Node.internal f l r) → ∀ x ∈ t.active,
      freqAt t.nodes l ≤ freqAt t.nodes x ∧ freqAt t.nodes r ≤ freqAt t.nodes x


theorem freqAt_append {nodes x : List Node} {k} (h : k < nodes.length) : freqAt (nodes ++ x) k = freqAt nodes k := by
  unfold freqAt; rw [List.getElem?_append_left h]

theorem freqAt_last {nodes : List Node} {n} : freqAt (nodes ++ [n]) nodes.length = n.freq := by
  unfold freqAt; simp

theorem getElem?_append_singleton {nodes : List Node} {n x k} (h : (nodes ++ [n])[k]? = some x) : (k < nodes.length ∧
    nodes[k]? = some x) ∨ (k = nodes.length ∧ x = n) := by
  rcases lt_trichotomy k nodes.length with h1 | h1 | h1
  · rw [List.getElem?_append_left h1] at h; exact .inl ⟨h1, h⟩
  · subst h1; rw [List.getElem?_append_right (le_refl _)] at h; simp at h; exact .inr ⟨rfl, h.symm⟩
  · rw [List.getElem?_append_right (by omega)] at h
    have : k - nodes.length ≠ 0 := by omega
    rw [List.getElem?_eq_none (by simp; omega)] at h; cases h

theorem lt_of_getElem? {nodes : List Node} {x k} (h : nodes[k]? = some x) :
    k < nodes.length := (List.getElem?_eq_some_iff.1 h).1

theorem treeInv_leafArena (table : List (Nat × Nat)) : TreeInv table 0 (leafArena table) := by
  have hno : ∀ (k f l r : Nat), (leafArena table).nodes[k]? ≠ some (Node.internal f l r) := by
    intro k f l r; simp [leafArena]
  refine ⟨by simp [leafArena], by simp [leafArena], List.nodup_range, by simp [leafArena], by simp, ?_,
      fun k f l r h => absurd h (hno _ _ _ _), fun k f l r h => absurd h (hno _ _ _ _), ?_,
      fun k p f l r _ _ _ _ h => absurd h (hno _ _ _ _), ?_, fun k f l r h => absurd h (hno _ _ _ _)⟩
  · intro k s f; simp [leafArena]
  · intro k hk h; exfalso; apply h; simp [leafArena] at *; exact hk
  · congr 1
    apply List.ext_getElem
    · simp [leafArena]
    · intro i h1 h2; simp [leafArena, freqAt, Node.freq]
      simp [leafArena] at h1
      rw [List.getElem?_eq_getElem h1]; rfl

/-- A merge keeps the invariant. -/
theorem treeInv_mergeOnce {table j t} (h : TreeInv table j t) (hl : 2 ≤ t.active.length) : TreeInv table (j + 1)
    (mergeOnce t) := by
  obtain ⟨a, b, rest, h1, h2, h3, h4⟩ := mergeOnce_spec (nodes := t.nodes) h.nodup hl
  have hn := h2.nodup h.nodup
  rw [show mergeOnce t = _ from h1]
  have ha : a ∈ t.active := h2.mem_iff.2 (by simp)
  have hb : b ∈ t.active := h2.mem_iff.2 (by simp)
  have hr : ∀ k ∈ rest, k ∈ t.active := fun k hk => h2.mem_iff.2 (by simp [hk])
  have hab : a ≠ b := fun h => (List.nodup_cons.1 hn).1 (h ▸ List.mem_cons_self)
  have har : a ∉ rest := fun h => (List.nodup_cons.1 hn).1 (List.mem_cons_of_mem _ h)
  have hbr : b ∉ rest := fun h => (List.nodup_cons.1 (List.nodup_cons.1 hn).2).1 h
  have hlen := h2.length_eq
  simp only [List.length_cons] at hlen
  have ka := h.bound a ha
  have kb := h.bound b hb
  have hfr : ∀ k < t.nodes.length, ∀ x, freqAt (t.nodes ++ [x]) k = freqAt t.nodes k := fun k hk x => freqAt_append hk
  constructor
  · simp [h.len]; omega
  · have := h.act; simp; omega
  · simp only
    rw [List.nodup_append]
    refine ⟨(List.nodup_cons.1 (List.nodup_cons.1 hn).2).2, by simp, ?_⟩
    intro x hx y hy; simp at hy; have := h.bound x (hr x hx); omega
  · intro k hk; simp only [List.mem_append, List.mem_singleton, List.length_append, List.length_cons,
        List.length_nil] at hk ⊢
    rcases hk with hk | rfl
    · have := h.bound k (hr k hk); omega
    · omega
  · intro _; exact ⟨rest, by simp⟩
  · intro k s f
    rw [← h.leaf k s f]
    constructor
    · intro hg; rcases getElem?_append_singleton hg with ⟨_, hg⟩ | ⟨_, hg⟩
      · exact hg
      · cases hg
    · intro hg; simp only; rw [List.getElem?_append_left (lt_of_getElem? hg)]; exact hg
  · intro k f l r hg
    rcases getElem?_append_singleton hg with ⟨hk, hg⟩ | ⟨hk, hg⟩
    · obtain ⟨x, y, z, w⟩ := h.inner k f l r hg
      refine ⟨x, y, z, ?_⟩
      simp only; rw [hfr _ (by omega), hfr _ (by omega)]; exact w
    · cases hg
      refine ⟨hab, by omega, by omega, ?_⟩
      simp only; rw [hfr _ ka, hfr _ kb]
  · intro k f l r hg
    simp only [List.mem_append, List.mem_singleton, not_or]
    rcases getElem?_append_singleton hg with ⟨hk, hg⟩ | ⟨hk, hg⟩
    · obtain ⟨x, y⟩ := h.parent k f l r hg
      obtain ⟨_, y2, z2, _⟩ := h.inner k f l r hg
      exact ⟨⟨fun h => x (hr _ h), by omega⟩, fun h => y (hr _ h), by omega⟩
    · cases hg
      exact ⟨⟨har, by omega⟩, hbr, by omega⟩
  · intro k hk hna
    simp only [List.mem_append, List.mem_singleton, not_or, List.length_append, List.length_cons,
        List.length_nil] at hna hk
    by_cases hka : k ∈ t.active
    · have := h2.mem_iff.1 hka
      simp only [List.mem_cons] at this
      refine ⟨t.nodes.length, _, a, b, by simp; rfl, ?_⟩
      rcases this with rfl | rfl | h
      · exact .inl rfl
      · exact .inr rfl
      · exact absurd h hna.1
    · obtain ⟨p, f, l, r, hp, hx⟩ := h.some_par k (by omega) hka
      exact ⟨p, f, l, r, by simp only; rw [List.getElem?_append_left (lt_of_getElem? hp)]; exact hp, hx⟩
  · intro k p f l r p' f' l' r' hp hx hp' hx'
    rcases getElem?_append_singleton hp with ⟨hk, hg⟩ | ⟨hk, hg⟩ <;> rcases getElem?_append_singleton hp' with ⟨hk',
        hg'⟩ | ⟨hk', hg'⟩
    · exact h.uniq k p f l r p' f' l' r' hg hx hg' hx'
    · cases hg'; obtain ⟨x, y⟩ := h.parent p f l r hg
      exfalso; rcases hx with rfl | rfl <;> rcases hx' with rfl | rfl <;> contradiction
    · cases hg; obtain ⟨x, y⟩ := h.parent p' f' l' r' hg'
      exfalso; rcases hx with rfl | rfl <;> rcases hx' with rfl | rfl <;> contradiction
    · omega
  · have hs := h.sum
    rw [(h2.map (freqAt t.nodes)).sum_eq] at hs
    simp only [List.map_cons, List.sum_cons] at hs
    simp only [List.map_append, List.map_cons, List.map_nil, List.sum_append, List.sum_cons, List.sum_nil,
        freqAt_last, Node.freq]
    have : rest.map (freqAt (t.nodes ++ [Node.internal (freqAt t.nodes a + freqAt t.nodes b) a b])) = rest.map (freqAt t.nodes) :=
      List.map_congr_left fun k hk => hfr _ (h.bound k (hr k hk)) _
    rw [this]; omega
  · intro k f l r hg x hx
    simp only [List.mem_append, List.mem_singleton] at hx
    have hle : freqAt t.nodes a ≤ freqAt t.nodes b := by have := h3 b (by simp); unfold NotAfter at this; omega
    have hf := fun k hk => hfr k hk (Node.internal (freqAt t.nodes a + freqAt t.nodes b) a b)
    have hlast : freqAt (t.nodes ++ [Node.internal (freqAt t.nodes a + freqAt t.nodes b) a b]) t.nodes.length = freqAt t.nodes a + freqAt t.nodes b := freqAt_last
    rcases getElem?_append_singleton hg with ⟨hk, hg⟩ | ⟨hk, hg⟩
    · obtain ⟨_, y, z, _⟩ := h.inner k f l r hg
      simp only [hf l (by omega), hf r (by omega)]
      rcases hx with hx | rfl
      · rw [hf x (h.bound x (hr x hx))]; exact h.mono k f l r hg x (hr x hx)
      · rw [hlast]
        have := h.mono k f l r hg a ha; omega
    · cases hg
      simp only [hf a ka, hf b kb]
      rcases hx with hx | rfl
      · rw [hf x (h.bound x (hr x hx))]
        have := h4 x hx; unfold NotAfter at this; omega
      · rw [hlast]; omega

theorem mergeTimes_succ : ∀ n t, mergeTimes (n + 1) t = mergeOnce (mergeTimes n t) := by
  intro n; induction n with
  | zero => intro t; rfl
  | succ n ih => intro t; rw [mergeTimes, ih]; rfl

/-- The invariant after j merges. -/
theorem treeInv_mergeTimes (table : List (Nat × Nat)) : ∀ j, j + 1 ≤ table.length →
    TreeInv table j (mergeTimes j (leafArena table)) := by
  intro j; induction j with
  | zero => intro _; exact treeInv_leafArena table
  | succ j ih =>
    intro hj
    have h := ih (by omega)
    rw [mergeTimes_succ]
    exact treeInv_mergeOnce h (by have := h.act; omega)

/-- A binary tree with symbols and frequencies at its leaves. -/
inductive BinTree where
  | leaf (s f : Nat)
  | node (l r : BinTree)

namespace BinTree
/-- The sum of the leaves' frequencies. -/
def w : BinTree → Nat
  | leaf _ f => f
  | node l r => l.w + r.w
/-- The leaves, left to right. -/
def leaves : BinTree → List (Nat × Nat)
  | leaf s f => [(s, f)]
  | node l r => l.leaves ++ r.leaves
/-- The length of the longest path. -/
def depth : BinTree → Nat
  | leaf _ _ => 0
  | node l r => max l.depth r.depth + 1
/-- The leaves' codewords behind a path (42_codeword_table.md R180). -/
def codes : BinTree → BitString → List Entry
  | leaf s _, p => [{ sym := s, cw := p }]
  | node l r, p => l.codes (p ++ [false]) ++ r.codes (p ++ [true])
/-- The children of a tree weigh no more than its sibling. -/
def kids : BinTree → BinTree → Prop
  | leaf _ _, _ => True
  | node a b, y => a.w ≤ y.w ∧ b.w ≤ y.w
/-- Every node's children weigh no more than its sibling, as in every Huffman tree. -/
def good : BinTree → Prop
  | leaf _ _ => True
  | node l r => l.good ∧ r.good ∧ kids l r ∧ kids r l
end BinTree

/-- An arena index stands for a tree. -/
inductive Stands (nodes : List Node) : Nat → BinTree → Prop where
  | leaf {k s f} : nodes[k]? = some (Node.leaf s f) → Stands nodes k (.leaf s f)
  | node {k f a b l r} : nodes[k]? = some (Node.internal f a b) → f = freqAt nodes a + freqAt nodes b → a < k →
      b < k → Stands nodes a l → Stands nodes b r → Stands nodes k (.node l r)

theorem Stands.w {nodes k t} (h : Stands nodes k t) : freqAt nodes k = t.w := by
  induction h with
  | leaf h => simp [freqAt, h, Node.freq, BinTree.w]
  | node h hf _ _ _ _ ih1 ih2 => simp [freqAt, h, Node.freq, BinTree.w]; rw [hf, ih1, ih2]

theorem Stands.lt {nodes k t} (h : Stands nodes k t) : k < nodes.length := by
  cases h with
  | leaf h => exact lt_of_getElem? h
  | node h => exact lt_of_getElem? h

theorem Stands.append {nodes k t} (x : List Node) (h : Stands nodes k t) : Stands (nodes ++ x) k t := by
  induction h with
  | leaf h => exact .leaf (by rw [List.getElem?_append_left (lt_of_getElem? h)]; exact h)
  | node h hf h1 h2 _ _ ih1 ih2 =>
    have := lt_of_getElem? h
    exact .node (by rw [List.getElem?_append_left this]; exact h)
      (by rw [freqAt_append (by omega), freqAt_append (by omega)]; exact hf) h1 h2 ih1 ih2

theorem Stands.walk {nodes k t} (h : Stands nodes k t) : ∀ n, k < n → ∀ p,
    Sys2Proof.Machine.walk nodes n k p = t.codes p := by
  induction h with
  | leaf h => intro n hn p; cases n with
    | zero => omega
    | succ n => simp [Sys2Proof.Machine.walk, h, BinTree.codes]
  | node h hf h1 h2 _ _ ih1 ih2 => intro n hn p; cases n with
    | zero => omega
    | succ n => simp [Sys2Proof.Machine.walk, h, BinTree.codes, ih1 n (by omega), ih2 n (by omega)]

theorem Stands.kids {nodes k t x y} (h : Stands nodes k t) (hy : Stands nodes x y) (hm : ∀ (f l r : Nat),
    nodes[k]? = some (Node.internal f l r) → freqAt nodes l ≤ freqAt nodes x ∧ freqAt nodes r ≤ freqAt nodes x) :
    t.kids y := by
  cases h with
  | leaf h => trivial
  | node h hf h1 h2 h3 h4 =>
    obtain ⟨p, q⟩ := hm _ _ _ h
    rw [h3.w, hy.w] at p; rw [h4.w, hy.w] at q
    exact ⟨p, q⟩

/-- The active nodes stand for good trees whose leaves together are the frequency table. -/
def Forest (nodes : List Node) (active : List Nat) (table : List (Nat × Nat)) : Prop :=
  ∃ F : Nat → BinTree, (∀ k ∈ active, Stands nodes k (F k) ∧ (F k).good) ∧ (active.flatMap fun k =>
      (F k).leaves).Perm table

theorem forest_leafArena (table : List (Nat × Nat)) :
    Forest (leafArena table).nodes (leafArena table).active table := by
  refine ⟨fun k => .leaf (table.getD k (0,0)).1 (table.getD k (0,0)).2, fun k hk => ⟨.leaf ?_, trivial⟩, ?_⟩
  · simp [leafArena] at hk ⊢
    rw [List.getElem?_eq_getElem hk]; simp
  · have : (leafArena table).active.flatMap (fun k =>
        (BinTree.leaf (table.getD k (0,0)).1 (table.getD k (0,0)).2).leaves) = table := by
      simp only [leafArena, BinTree.leaves]
      rw [← List.map_eq_flatMap]
      apply List.ext_getElem
      · simp
      · intro i h1 h2; simp [List.getD_eq_getElem?_getD, List.getElem?_eq_getElem h2]
    rw [this]

theorem forest_mergeOnce {table j t} (h : TreeInv table j t) (hl : 2 ≤ t.active.length)
    (hf : Forest t.nodes t.active table) : Forest (mergeOnce t).nodes (mergeOnce t).active table := by
  obtain ⟨a, b, rest, h1, h2, h3, h4⟩ := mergeOnce_spec (nodes := t.nodes) h.nodup hl
  have hn := h2.nodup h.nodup
  rw [show mergeOnce t = _ from h1]
  obtain ⟨F, hF, hp⟩ := hf
  have ha : a ∈ t.active := h2.mem_iff.2 (by simp)
  have hb : b ∈ t.active := h2.mem_iff.2 (by simp)
  have hr : ∀ k ∈ rest, k ∈ t.active := fun k hk => h2.mem_iff.2 (by simp [hk])
  have ka := h.bound a ha
  have kb := h.bound b hb
  refine ⟨fun k => if k = t.nodes.length then .node (F a) (F b) else F k, fun k hk => ?_, ?_⟩
  · simp only [List.mem_append, List.mem_singleton] at hk
    rcases hk with hk | rfl
    · have := h.bound k (hr k hk)
      simp only; rw [if_neg (by omega)]
      exact ⟨(hF k (hr k hk)).1.append _, (hF k (hr k hk)).2⟩
    · simp only [if_true]
      have ra := (hF a ha).1
      have rb := (hF b hb).1
      refine ⟨.node (by simp; rfl) ?_ ka kb (ra.append _) (rb.append _), (hF a ha).2, (hF b hb).2, ?_, ?_⟩
      · rw [freqAt_append ka, freqAt_append kb]
      · exact ra.kids rb fun f l r hg => h.mono a f l r hg b hb
      · exact rb.kids ra fun f l r hg => h.mono b f l r hg a ha
  · refine List.Perm.trans ?_ hp
    have e1 : (t.active.flatMap fun k => (F k).leaves).Perm ((a :: b :: rest).flatMap fun k =>
        (F k).leaves) := h2.flatMap_right _
    refine List.Perm.trans ?_ e1.symm
    simp only [List.flatMap_append, List.flatMap_cons, List.flatMap_nil, if_true, List.append_nil, BinTree.leaves]
    have : (rest.flatMap fun k => (if k = t.nodes.length then BinTree.node (F a)
        (F b) else F k).leaves) = rest.flatMap fun k => (F k).leaves := by
      have : ∀ k ∈ rest, (if k = t.nodes.length then BinTree.node (F a)
          (F b) else F k).leaves = (F k).leaves := fun k hk => by
        have := h.bound k (hr k hk); rw [if_neg (by omega)]
      rw [List.flatMap_def, List.flatMap_def, List.map_congr_left this]
    rw [this, ← List.append_assoc (F a).leaves]
    exact List.perm_append_comm

theorem forest_mergeTimes (table : List (Nat × Nat)) : ∀ j, j + 1 ≤ table.length →
    Forest (mergeTimes j (leafArena table)).nodes (mergeTimes j (leafArena table)).active table := by
  intro j; induction j with
  | zero => intro _; exact forest_leafArena table
  | succ j ih =>
    intro hj
    have h := treeInv_mergeTimes table j (by omega)
    rw [mergeTimes_succ]
    exact forest_mergeOnce h (by have := h.act; omega) (ih (by omega))

/-! ## The codewords of a tree -/
namespace BinTree
theorem codes_sym (t : BinTree) : ∀ p, (t.codes p).map Entry.sym = t.leaves.map Prod.fst := by
  induction t with
  | leaf s f => intro p; rfl
  | node l r ih1 ih2 => intro p; simp [codes, leaves, ih1, ih2]

theorem codes_prefix (t : BinTree) : ∀ p e, e ∈ t.codes p → p <+: e.cw ∧ e.cw.length ≤ p.length + t.depth := by
  induction t with
  | leaf s f => intro p e he; simp [codes] at he; subst he; simp
  | node l r ih1 ih2 =>
    intro p e he
    simp only [codes, List.mem_append] at he
    rcases he with he | he
    · obtain ⟨a, b⟩ := ih1 _ _ he
      exact ⟨(List.prefix_append _ _).trans a, by simp [depth] at *; omega⟩
    · obtain ⟨a, b⟩ := ih2 _ _ he
      exact ⟨(List.prefix_append _ _).trans a, by simp [depth] at *; omega⟩

theorem pre_diff {p u v : BitString} {x y : Bool} (h : x ≠ y) (h1 : p ++ [x] <+: u) (h2 : p ++ [y] <+: v) :
    ¬ u <+: v := by
  intro h3
  have h4 := h1.trans h3
  obtain ⟨s, hs⟩ := h4
  obtain ⟨s', hs'⟩ := h2
  rw [← hs'] at hs
  simp at hs
  exact h hs.1

/-- No codeword of a tree is a prefix of another. -/
theorem codes_free (t : BinTree) : ∀ p, (t.codes p).Pairwise (fun e f => ¬e.cw <+: f.cw ∧ ¬f.cw <+: e.cw) := by
  induction t with
  | leaf s f => intro p; simp [codes]
  | node l r ih1 ih2 =>
    intro p
    simp only [codes]
    rw [List.pairwise_append]
    refine ⟨ih1 _, ih2 _, fun e he f hf => ?_⟩
    have a := (codes_prefix l _ e he).1
    have b := (codes_prefix r _ f hf).1
    exact ⟨pre_diff (by simp) a b, pre_diff (by simp) b a⟩

/-- The codewords of a tree fill the code space behind its path. -/
theorem codes_kraft (t : BinTree) (n : Nat) : ∀ p, p.length + t.depth ≤ n → ((t.codes p).map fun e =>
    2 ^ (n - e.cw.length)).sum = 2 ^ (n - p.length) := by
  induction t with
  | leaf s f => intro p _; simp [codes]
  | node l r ih1 ih2 =>
    intro p h
    simp only [depth] at h
    simp only [codes, List.map_append, List.sum_append]
    rw [ih1 _ (by simp; omega), ih2 _ (by simp; omega)]
    simp only [List.length_append, List.length_cons, List.length_nil]
    rw [show n - p.length = (n - (p.length + (0 + 1))) + 1 by omega, pow_succ]; omega

theorem codes_depth (t : BinTree) : ∀ p, ∃ e ∈ t.codes p, e.cw.length = p.length + t.depth := by
  induction t with
  | leaf s f => intro p; simp [codes, depth]
  | node l r ih1 ih2 =>
    intro p
    simp only [codes, depth, List.mem_append]
    rcases le_total l.depth r.depth with hd | hd
    · obtain ⟨e, he, h⟩ := ih2 (p ++ [true])
      exact ⟨e, .inr he, by rw [h, max_eq_right hd]; simp; omega⟩
    · obtain ⟨e, he, h⟩ := ih1 (p ++ [false])
      exact ⟨e, .inl he, by rw [h, max_eq_left hd]; simp; omega⟩

theorem depth_lt (t : BinTree) : t.depth + 1 ≤ t.leaves.length := by
  induction t with
  | leaf s f => simp [depth, leaves]
  | node l r ih1 ih2 => simp only [depth, leaves, List.length_append]; omega

theorem w_eq (t : BinTree) : t.w = (t.leaves.map Prod.snd).sum := by
  induction t with
  | leaf s f => simp [w, leaves]
  | node l r ih1 ih2 => simp [w, leaves, ih1, ih2]

theorem w_pos (t : BinTree) (h : ∀ e ∈ t.leaves, 1 ≤ e.2) : 1 ≤ t.w := by
  induction t with
  | leaf s f => simpa [leaves, w] using h
  | node l r ih1 ih2 =>
    have := ih1 fun e he => h e (by simp [leaves, he])
    simp only [w]; omega

/-- A good tree of depth d weighs at least the Fibonacci number F(d + 2) (41_tree_builder.md R158). -/
theorem fib_le (t : BinTree) (h : ∀ e ∈ t.leaves, 1 ≤ e.2) (hg : t.good) : Nat.fib (t.depth + 2) ≤ t.w ∧
    ∀ y : BinTree, 1 ≤ y.w → t.kids y → Nat.fib (t.depth + 1) ≤ y.w := by
  induction t with
  | leaf s f => have := w_pos _ h; exact ⟨by simpa [depth, Nat.fib] using this, fun y hy _ => by simpa [depth] using hy⟩
  | node l r ih1 ih2 =>
    obtain ⟨g1, g2, g3, g4⟩ := hg
    have hl : ∀ e ∈ l.leaves, 1 ≤ e.2 := fun e he => h e (by simp [leaves, he])
    have hr : ∀ e ∈ r.leaves, 1 ≤ e.2 := fun e he => h e (by simp [leaves, he])
    obtain ⟨i1, j1⟩ := ih1 hl g1
    obtain ⟨i2, j2⟩ := ih2 hr g2
    have k1 := j1 r (w_pos _ hr) g3
    have k2 := j2 l (w_pos _ hl) g4
    have f1 : Nat.fib (l.depth + 1 + 2) = Nat.fib (l.depth + 1) + Nat.fib (l.depth + 2) := Nat.fib_add_two
    have f2 : Nat.fib (r.depth + 1 + 2) = Nat.fib (r.depth + 1) + Nat.fib (r.depth + 2) := Nat.fib_add_two
    simp only [depth, w]
    rcases le_total l.depth r.depth with hd | hd
    · rw [max_eq_right hd]
      refine ⟨by omega, fun y hy hk => ?_⟩
      exact i2.trans hk.2
    · rw [max_eq_left hd]
      refine ⟨by omega, fun y hy hk => ?_⟩
      exact i1.trans hk.1
end BinTree

/-- The codeword table of a non-empty frequency table. -/
theorem codewordTable_of_ne_nil {table : List (Nat × Nat)} (h : table ≠ []) :
    codewordTable table = deriveCodewords (buildTree table).nodes (buildTree table).root := by
  cases table with
  | nil => exact absurd rfl h
  | cons a b => rfl

theorem deriveCodewords_ok {nodes root cw} (h : deriveCodewords nodes root = .ok cw) :
    cw = treeCodewords nodes root ∧ ∀ e ∈ cw, e.cw.length ≤ 255 := by
  unfold deriveCodewords at h
  split at h
  · cases h
  · rename_i hc; cases h
    refine ⟨rfl, fun e he => ?_⟩
    have hM : Config.maxCwLen = 255 := rfl
    simp only [List.any_eq_true, not_exists, not_and, decide_eq_true_eq] at hc
    have := hc e he; omega

/-! ## The two queues -/

/-- Strictly ascending by key. -/
def SortedByKey (nodes : List Node) (l : List Nat) : Prop := l.Pairwise (fun x y => comesBefore nodes x y = true)

theorem notAfter_of_comesBefore {nodes a b} (h : comesBefore nodes a b = true) : NotAfter nodes a b
    := by rw [comesBefore_iff] at h; unfold NotAfter; omega

theorem insertByKey_perm (nodes k) (l : List Nat) : (insertByKey nodes k l).Perm (k :: l) := by
  induction l with
  | nil => exact List.Perm.refl _
  | cons j js ih =>
    simp only [insertByKey]; split
    · exact List.Perm.refl _
    · exact (List.Perm.cons j ih).trans (List.Perm.swap k j js)

theorem insertByKey_sorted {nodes k} {l : List Nat} (h : SortedByKey nodes l) (hk : k ∉ l) :
    SortedByKey nodes (insertByKey nodes k l) := by
  induction l with
  | nil => exact List.pairwise_singleton _ _
  | cons j js ih =>
    have h' := List.pairwise_cons.1 h
    simp only [insertByKey]; split
    · rename_i hc
      refine List.pairwise_cons.2 ⟨fun x hx => ?_, h⟩
      rcases List.mem_cons.1 hx with rfl | hx
      · exact hc
      · have := h'.1 x hx; rw [comesBefore_iff] at *; omega
    · rename_i hc
      refine List.pairwise_cons.2 ⟨fun x hx => ?_, ih h'.2 (fun h => hk (List.mem_cons_of_mem _ h))⟩
      rcases List.mem_cons.1 ((insertByKey_perm nodes k js).mem_iff.1 hx) with rfl | hx
      · have : x ≠ j := fun h => hk (h ▸ List.mem_cons_self)
        rw [comesBefore_iff] at *; omega
      · exact h'.1 x hx

theorem foldr_insertByKey {nodes} : ∀ l : List Nat, l.Nodup → SortedByKey nodes (l.foldr (insertByKey nodes) []) ∧
    (l.foldr (insertByKey nodes) []).Perm l := by
  intro l; induction l with
  | nil => intro _; exact ⟨List.Pairwise.nil, List.Perm.refl _⟩
  | cons a l ih =>
    intro h
    obtain ⟨x, y⟩ := ih (List.nodup_cons.1 h).2
    exact ⟨insertByKey_sorted x (fun hm => (List.nodup_cons.1 h).1 (y.mem_iff.1 hm)),
        (insertByKey_perm _ _ _).trans (y.cons a)⟩

/-- The head taken is the least of both queues. -/
theorem takeHead_spec {q : TwoQueues} (h1 : SortedByKey q.nodes q.leaves) (h2 : SortedByKey q.nodes q.inner)
    (h3 : ∀ x ∈ q.leaves, ∀ y ∈ q.inner, x < y) (h4 : q.leaves ++ q.inner ≠ []) :
   ∃ x q', takeHead q = some (x, q') ∧ q'.nodes = q.nodes ∧ q'.leaves.Sublist q.leaves ∧ q'.inner.Sublist q.inner ∧
       (q.leaves ++ q.inner).Perm (x :: (q'.leaves ++ q'.inner)) ∧
     ∀ y ∈ q.leaves ++ q.inner, NotAfter q.nodes x y := by
  obtain ⟨nodes, L, I⟩ := q
  simp only at *
  cases L with
  | nil =>
    cases I with
    | nil => simp at h4
    | cons i is =>
      refine ⟨i, ⟨nodes, [], is⟩, rfl, rfl, by simp, by simp, List.Perm.refl _, ?_⟩
      intro y hy
      rcases List.mem_cons.1 hy with rfl | hy
      · unfold NotAfter; omega
      · exact notAfter_of_comesBefore ((List.pairwise_cons.1 h2).1 y hy)
  | cons l ls =>
    have hl : ∀ y ∈ l :: ls, NotAfter nodes l y := by
      intro y hy; rcases List.mem_cons.1 hy with rfl | hy
      · unfold NotAfter; omega
      · exact notAfter_of_comesBefore ((List.pairwise_cons.1 h1).1 y hy)
    cases I with
    | nil => exact ⟨l, ⟨nodes, ls, []⟩, rfl, rfl, by simp, by simp, List.Perm.refl _, by simpa using hl⟩
    | cons i is =>
      have hi : ∀ y ∈ i :: is, NotAfter nodes i y := by
        intro y hy; rcases List.mem_cons.1 hy with rfl | hy
        · unfold NotAfter; omega
        · exact notAfter_of_comesBefore ((List.pairwise_cons.1 h2).1 y hy)
      have hli := h3 l (by simp) i (by simp)
      by_cases hc : freqAt nodes i < freqAt nodes l
      · refine ⟨i, ⟨nodes, l :: ls, is⟩, by simp [takeHead, hc], rfl, by simp, by simp, List.perm_middle, ?_⟩
        intro y hy
        rcases List.mem_append.1 hy with hy | hy
        · have := hl y hy; unfold NotAfter at *; omega
        · exact hi y hy
      · refine ⟨l, ⟨nodes, ls, i :: is⟩, by simp [takeHead, hc], rfl, by simp, by simp, List.Perm.refl _, ?_⟩
        intro y hy
        rcases List.mem_append.1 hy with hy | hy
        · exact hl y hy
        · have := hi y hy; unfold NotAfter at *; omega

theorem mergeHeadsTimes_succ : ∀ n t, mergeHeadsTimes (n + 1) t = mergeHeads (mergeHeadsTimes n t) := by
  intro n; induction n with
  | zero => intro t; rfl
  | succ n ih => intro t; rw [mergeHeadsTimes, ih]; rfl

/-! ## Codewords as paths, and frequencies in 32 bits -/

/-- Every codeword leads to its symbol's leaf (42_codeword_table.md R183). -/
theorem Stands.leafAt {nodes k t} (h : Stands nodes k t) : ∀ (p : BitString), ∀ e ∈ t.codes p,
    ∃ path, e.cw = p ++ path ∧ Sys2Proof.Machine.leafAt nodes k path = some e.sym := by
  induction h with
  | leaf h =>
    intro p e he
    simp only [BinTree.codes, List.mem_singleton] at he
    subst he
    exact ⟨[], by simp, by simp [Sys2Proof.Machine.leafAt, h]⟩
  | node h hf h1 h2 _ _ ih1 ih2 =>
    intro p e he
    simp only [BinTree.codes, List.mem_append] at he
    rcases he with he | he
    · obtain ⟨path, a, b⟩ := ih1 _ e he
      exact ⟨false :: path, by simp [a], by simp [Sys2Proof.Machine.leafAt, h, b]⟩
    · obtain ⟨path, a, b⟩ := ih2 _ e he
      exact ⟨true :: path, by simp [a], by simp [Sys2Proof.Machine.leafAt, h, b]⟩

/-- What a held arena stands for. -/
def HeldArena.value (t : HeldArena) : Arena := { nodes := t.nodes.map HeldNode.value, active := t.active }

theorem toNat_heldFreqAt (nodes : List HeldNode) (k : Nat) :
    (heldFreqAt nodes k).toNat = freqAt (nodes.map HeldNode.value) k := by
  unfold heldFreqAt freqAt
  rw [List.getElem?_map]
  cases h : nodes[k]? with
  | none => rfl
  | some n => cases n <;> rfl

/-- A merge in 32 bits, as long as the total frequency fits (41_tree_builder.md R145). -/
theorem value_mergeHeld {t : HeldArena} (hl : 2 ≤ t.active.length)
    (hs : (t.active.map (freqAt t.value.nodes)).sum < 2 ^ 32) : (mergeHeld t).value = mergeOnce t.value := by
  obtain ⟨a, h1, h2, -⟩ := takeLeast_spec (nodes := t.value.nodes) (l := t.active) (by rintro h; simp [h] at hl)
  have hp := List.perm_cons_erase h2
  have hl2 : (t.active.erase a).length = t.active.length - 1 := List.length_erase_of_mem h2
  obtain ⟨b, g1, g2, -⟩ := takeLeast_spec (nodes := t.value.nodes) (l := t.active.erase a)
      (by rintro h; rw [h] at hl2; simp at hl2; omega)
  have hq := List.perm_cons_erase g2
  have hsum : freqAt t.value.nodes a + freqAt t.value.nodes b < 2 ^ 32 := by
    rw [((hp.trans (hq.cons a)).map (freqAt t.value.nodes)).sum_eq] at hs
    simp only [List.map_cons, List.sum_cons] at hs; omega
  have hab : (heldFreqAt t.nodes a + heldFreqAt t.nodes b).toNat = freqAt t.value.nodes a + freqAt t.value.nodes b := by
    rw [BitVec.toNat_add, toNat_heldFreqAt, toNat_heldFreqAt]; exact Nat.mod_eq_of_lt hsum
  have e1 : mergeOnce t.value = Arena.mk
      (t.value.nodes ++ [.internal (freqAt t.value.nodes a + freqAt t.value.nodes b) a b])
      ((t.active.erase a).erase b ++ [t.value.nodes.length]) := by
    unfold mergeOnce
    rw [show t.value.active = t.active from rfl, h1]; simp only [g1]
  have e2 : mergeHeld t = HeldArena.mk (t.nodes ++ [.internal (heldFreqAt t.nodes a + heldFreqAt t.nodes b) a b])
      ((t.active.erase a).erase b ++ [t.nodes.length]) := by
    unfold mergeHeld
    rw [show t.nodes.map HeldNode.value = t.value.nodes from rfl, h1]; simp only [g1]
  rw [e1, e2]
  simp only [HeldArena.value, List.map_append, List.map_cons, List.map_nil, HeldNode.value, List.length_map]
  rw [hab]; rfl

theorem mergeHeldTimes_succ : ∀ n t, mergeHeldTimes (n + 1) t = mergeHeld (mergeHeldTimes n t) := by
  intro n; induction n with
  | zero => intro t; rfl
  | succ n ih => intro t; rw [mergeHeldTimes, ih]; rfl

theorem value_heldLeafArena (store : List (Nat × Word)) : (heldLeafArena store).value = leafArena (storedTable store) := by
  simp [HeldArena.value, heldLeafArena, leafArena, storedTable, HeldNode.value]

/-- j merges in 32 bits, as long as the total frequency fits (41_tree_builder.md R145). -/
theorem value_mergeHeldTimes (store : List (Nat × Word)) (hs : ((storedTable store).map Prod.snd).sum < 2 ^ 32) :
    ∀ j, j + 1 ≤ store.length →
      (mergeHeldTimes j (heldLeafArena store)).value = mergeTimes j (leafArena (storedTable store)) := by
  intro j; induction j with
  | zero => intro _; exact value_heldLeafArena store
  | succ j ih =>
    intro hj
    have hl : (storedTable store).length = store.length := List.length_map _
    have h := treeInv_mergeTimes (storedTable store) j (by omega)
    have hv := ih (by omega)
    rw [← hv] at h
    rw [mergeHeldTimes_succ, mergeTimes_succ, ← hv]
    exact value_mergeHeld (by have := h.act; simp only [HeldArena.value] at this; omega) (by
      have := h.sum; simp only [HeldArena.value] at this ⊢; omega)

/-- No node is heavier than the whole table (41_tree_builder.md R145). -/
theorem freq_le_total (table : List (Nat × Nat)) : ∀ j, j + 1 ≤ table.length →
    ∀ n ∈ (mergeTimes j (leafArena table)).nodes, n.freq ≤ (table.map Prod.snd).sum := by
  intro j; induction j with
  | zero =>
    intro _ n hn
    obtain ⟨e, he, rfl⟩ := List.mem_map.1 hn
    exact List.single_le_sum (by simp) _ (List.mem_map_of_mem he)
  | succ j ih =>
    intro hj n hn
    have h := treeInv_mergeTimes table j (by omega)
    obtain ⟨a, b, rest, h1, h2, -, -⟩ := mergeOnce_spec (nodes := (mergeTimes j (leafArena table)).nodes) h.nodup
      (by have := h.act; omega)
    rw [mergeTimes_succ, show mergeOnce (mergeTimes j (leafArena table)) = _ from h1, List.mem_append,
      List.mem_singleton] at hn
    rcases hn with hn | rfl
    · exact ih (by omega) n hn
    · have hs := h.sum
      rw [(h2.map _).sum_eq] at hs
      simp only [List.map_cons, List.sum_cons] at hs
      simp only [Node.freq]; omega

end Sys2Proof.Machine
end

