-- ==== Sys2Proof/Tests/Slice0.lean ====
section
/-! SUPPORT. The model's own tests: ill-formed terms are refused, words written out from 30_encoding.md R100 and R101
decode, one step of each command on a small state against the vectors of 95_test_vectors.md, and for every statement
with hypotheses a concrete case that meets all of them. -/

namespace Sys2Proof.Tests

open Sys2Proof.Machine

/-! ## Small states -/

/-- A platform with ordinary memory at 0x1000 .. 0xFFFF, the register window at 0x40000000 and P_MAX_DISTINCT 256. -/
def testPlat : Platform := { regPage := 0x400000#24, maxDistinct := 256, regions := [{ base := 0x1000, size := 0xF000 }] }

/-- Bytes listed from an address upward. -/
def placed : Nat → List Byte → Memory
  | _, [] => []
  | a, b :: bs => (a, b) :: placed (a + 1) bs

/-- IDLE with the source bytes at 0x1000, the destination at `dst` and MODE as given. -/
def idleAt (mode : BitVec 2) (src : List Byte) (dst cap : Word) : State :=
  { State.resetOn testPlat with
    regs :=
      { Regs.reset with
        mode := mode, srcAddr := 0x1000, srcLen := BitVec.ofNat 32 src.length, dstAddr := dst, dstCap := cap }
    mem := placed 0x1000 src }

/-- IDLE with the source bytes at 0x1000 and the destination at 0x2000. -/
def idleWith (mode : BitVec 2) (src : List Byte) (cap : Word) : State := idleAt mode src 0x2000 cap

/-- A command started on `idleAt`, about to take the core's step. -/
def runningAt (op : CmdOp) (mode : BitVec 2) (src : List Byte) (dst cap : Word) : State :=
  { start op (idleAt mode src dst cap) with wait := 0 }

/-- A command started on `idleWith`, about to take the core's step. -/
def running (op : CmdOp) (mode : BitVec 2) (src : List Byte) (cap : Word) : State := runningAt op mode src 0x2000 cap

/-- A command that runs for three more steps, and the host's operations. -/
def busyWith (ops : List BusOp) : State := { start .compress (idleWith 0 [0x61] 64) with wait := 3, queue := ops }

/-- Held in reset, and the host's operations. -/
def heldWith (ops : List BusOp) : State := { State.resetOn testPlat with inReset := true, queue := ops }

/-- What a step leaves: `n` bytes of the destination at 0x2000, ERR_CODE, the result registers and STATUS. -/
def view (n : Nat) (o : Host.Outcome State Fault Refusal) : Option (List Byte × ErrCode × List Word) :=
  match o with
  | .next t =>
    some (t.mem.readAll 0x2000 n, t.regs.errCode,
      [t.regs.resultLen, t.regs.symCount, t.regs.distinct, t.regs.tableLen, t.regs.payloadBits,
        statusWord t.phase t.regs])
  | .fault _ => none
  | .refused _ => none

/-- The state after a step, if there is one. -/
def nextOf (o : Host.Outcome State Fault Refusal) : Option State :=
  match o with
  | .next t => some t
  | .fault _ => none
  | .refused _ => none

/-- "aaabbc" (95_test_vectors.md V-C1). -/
def aaabbc : List Byte := [0x61, 0x61, 0x61, 0x62, 0x62, 0x63]

/-- The container of V-C1, "good" of 95_test_vectors.md 2.3. -/
def good : List Byte :=
  [0x00, 0x00, 0x00, 0x00, 0x0C, 0x01, 0x61, 0x01, 0x00, 0x01, 0x62, 0x02, 0xC0, 0x01, 0x63, 0x02, 0x80,
    0x00, 0x00, 0x00, 0x09, 0x1F, 0x00]

/-- The codewords of V-C1, in the order of the walk. -/
def aaabbcCode : List Entry := [⟨0x61, [false]⟩, ⟨0x63, [true, false]⟩, ⟨0x62, [true, true]⟩]

/-- The same in ascending order of symbol, as the container holds them. -/
def aaabbcTable : List Entry := [⟨0x61, [false]⟩, ⟨0x62, [true, true]⟩, ⟨0x63, [true, false]⟩]

/-- What the parser makes of `good`. -/
def goodParsed : Parsed :=
  { tag := .text, entries := aaabbcTable, inv := inverseTable aaabbcTable, tableLen := 12, payloadBits := 9,
    payload := [0x1F, 0x00] }

/-! ## WellFormed: ill-formed terms are refused -/

/-- One byte beyond the last address (20_memory.md R70). -/
theorem test_memw_beyond_the_end_is_ill_formed : (HostLine.memw 0xFFFFFFFF#32 [1, 2]).wf = false := by decide

/-- The last byte of the space is well-formed (20_memory.md R70). -/
theorem test_memw_up_to_the_end_is_well_formed : (HostLine.memw 0xFFFFFFFF#32 [1]).wf = true := by decide

/-- One byte beyond the last address (20_memory.md R70). -/
theorem test_memr_beyond_the_end_is_ill_formed : (HostLine.memr 0xFFFFFFF0#32 17).wf = false := by decide

/-- Bytes that are no single word are no command (30_encoding.md R100). -/
theorem test_five_bytes_are_no_command : decodeBytes [1, 0, 0, 0, 0] = .error (.notOneWord 5) := by decide

/-- A 16-bit write to CMD is no command (20_memory.md R75). -/
theorem test_halfword_write_is_no_command : commandOf (.regWrite .w16 0x0C#8 1) = .error .notWordWide := by decide

/-- A 32-bit write to another register is no command (30_encoding.md R100). -/
theorem test_write_to_mode_is_no_command : commandOf (.regWrite .w32 0x10#8 1) = .error .notAtCmd := by decide

/-! ## Decode: words written out bit by bit from 30_encoding.md R100 and R101 (bits 3:0 OP, bits 31:4 ignored) -/

theorem test_decode_nop : decodeWord 0b00000000000000000000000000000000#32 = .nop 0 := by decide

theorem test_decode_nop_ignored_bits :
    decodeWord 0b11111111111111111111111111110000#32 = .nop 0b1111111111111111111111111111#28 := by decide

theorem test_decode_compress : decodeWord 0b00000000000000000000000000000001#32 = .compress 0 := by decide

theorem test_decode_compress_ignored_bits :
    decodeWord 0b10000000000000000000000000010001#32 = .compress 0b1000000000000000000000000001#28 := by decide

theorem test_decode_decompress : decodeWord 0b00000000000000000000000000000010#32 = .decompress 0 := by decide

theorem test_decode_reserved3 : decodeWord 0b00000000000000000000000000000011#32 = .reserved3 0 := by decide

theorem test_decode_reserved4 : decodeWord 0b00000000000000000000000000000100#32 = .reserved4 0 := by decide

theorem test_decode_reserved5 : decodeWord 0b00000000000000000000000000000101#32 = .reserved5 0 := by decide

theorem test_decode_reserved6 : decodeWord 0b00000000000000000000000000000110#32 = .reserved6 0 := by decide

theorem test_decode_reserved7 : decodeWord 0b00000000000000000000000000000111#32 = .reserved7 0 := by decide

theorem test_decode_reserved8 : decodeWord 0b00000000000000000000000000001000#32 = .reserved8 0 := by decide

theorem test_decode_reserved9 : decodeWord 0b00000000000000000000000000001001#32 = .reserved9 0 := by decide

theorem test_decode_reservedA : decodeWord 0b00000000000000000000000000001010#32 = .reservedA 0 := by decide

theorem test_decode_reservedB : decodeWord 0b00000000000000000000000000001011#32 = .reservedB 0 := by decide

theorem test_decode_reservedC : decodeWord 0b00000000000000000000000000001100#32 = .reservedC 0 := by decide

theorem test_decode_reservedD : decodeWord 0b00000000000000000000000000001101#32 = .reservedD 0 := by decide

theorem test_decode_reservedE : decodeWord 0b00000000000000000000000000001110#32 = .reservedE 0 := by decide

theorem test_decode_softReset : decodeWord 0b00000000000000000000000000001111#32 = .softReset 0 := by decide

/-- The table's numbering: bit 0 is the least significant bit of the word. -/
theorem test_decodeTableWord : decodeTableWord 32 0x12 = some (.decompress 1) := by decide

/-- `withFetchWord` makes the very next step run the command, right after reset. -/
theorem test_withFetchWord_runs :
    step ((State.resetOn testPlat).withFetchWord 32 3) =
      exec (.reserved3 0) { State.resetOn testPlat with wait := 0 } := by rfl

/-! ## One step of each command -/

/-- 46_commands.md R282: in BUSY too, CMD_IGNORED stays 0. -/
theorem test_nop_in_busy : (nextOf (step (busyWith [issue (.nop 0)]))).map (·.regs.cmdIgnored) = some false := by decide

/-- 95_test_vectors.md V-C1. -/
theorem test_compress_aaabbc :
    view 23 (step (running .compress 0 aaabbc 64)) = some (good, .none, [23, 6, 3, 12, 9, 0x2]) := by decide

/-- 95_test_vectors.md V-C8. -/
theorem test_compress_binary :
    view 22 (step (running .compress 1 [0x00, 0x00, 0xFF, 0x10, 0x00] 22)) =
      some
        ([0x01, 0x00, 0x00, 0x00, 0x0C, 0x01, 0x00, 0x01, 0x80, 0x01, 0x10, 0x02, 0x00, 0x01, 0xFF, 0x02, 0x40,
            0x00, 0x00, 0x00, 0x07, 0xD2],
          .none, [22, 5, 3, 12, 7, 0x2]) := by decide

/-- 95_test_vectors.md V-D1. -/
theorem test_decompress_good :
    view 6 (step (running .decompress 2 good 6)) = some (aaabbc, .none, [6, 6, 3, 12, 9, 0x2]) := by decide

/-- 95_test_vectors.md V-D12: ERR 5. -/
theorem test_decompress_corrupt :
    view 0 (step (running .decompress 0 [0x00, 0x00, 0x00, 0x00, 0x04, 0x01, 0x61, 0x01, 0x00, 0x00, 0x00, 0x00, 0x01, 0x80] 64)) =
      some ([], .corruptPayload, [0, 0, 0, 0, 0, 0x4]) := by decide

/-- 46_commands.md R283: ERR 9 in IDLE, for each of the twelve reserved opcodes. -/
theorem test_reserved_in_idle :
    ∀ i ∈ [Instr.reserved3 0, .reserved4 1, .reserved5 2, .reserved6 3, .reserved7 4, .reserved8 5, .reserved9 6,
        .reservedA 7, .reservedB 8, .reservedC 9, .reservedD 10, .reservedE 11],
      view 0 (exec i (idleWith 0 aaabbc 64)) = some ([], .illegalCommand, [0, 0, 0, 0, 0, 0x4]) := by decide

/-- 46_commands.md R281: dropped in BUSY, with CMD_IGNORED, for every command that can be dropped. -/
theorem test_dropped_in_busy :
    ∀ i ∈ [Instr.compress 0, .decompress 0, .reserved3 0, .reserved4 0, .reserved5 0, .reserved6 0, .reserved7 0,
        .reserved8 0, .reserved9 0, .reservedA 0, .reservedB 0, .reservedC 0, .reservedD 0, .reservedE 0],
      view 0 (step (busyWith [issue i])) = some ([], .none, [0, 0, 0, 0, 0, 0x9]) := by decide

/-- 46_commands.md R284: the operand registers are cleared and the phase is IDLE. -/
theorem test_softReset_in_busy :
    (nextOf (step (busyWith [issue (.softReset 0)]))).map (fun t => (t.phase, t.regs)) = some (.idle, Regs.reset) := by
  decide

/-- 20_memory.md R75: a 16-bit write does not reach SRC_LEN. -/
theorem test_halfword_write_does_nothing :
    (nextOf (step (busyWith [.regWrite .w16 0x24#8 7]))).map (·.regs.srcLen) = some 1 := by decide

/-- 30_encoding.md R125: the operations of MEMW and WR lines, in order. -/
theorem test_program_lines :
    [HostLine.memw 0x1000#32 [0x61, 0x62], .wr .mode 1, .comment "x", .memr 0x2000#32 1].flatMap lineOps =
      [.memWrite 0x1000 0x61, .memWrite 0x1001 0x62, .regWrite .w32 0x10 1, .memRead 0x2000] := by decide

/-- 70_reset_and_hazards.md R360: while reset is asserted a write to SRC_LEN and a COMPRESS do nothing. -/
theorem test_writes_in_reset_do_nothing :
    (nextOf (step (heldWith [.regWrite .w32 0x24#8 7]))).map (·.regs) = some Regs.reset ∧
      (nextOf (step (heldWith [issue (.compress 0)]))).map (·.phase) = some .idle := by decide

/-- 30_encoding.md R113: the padding bits of a codeword may be 1. -/
theorem test_codeword_padding_is_ignored :
    parseTable .text [0x01, 0x61, 0x01, 0x7F] = parseTable .text [0x01, 0x61, 0x01, 0x00] ∧
      parseTable .text [0x01, 0x61, 0x01, 0x7F] = some [⟨0x61, [false]⟩] := by decide

/-- 45_container.md R255: a cw_len of 0, a sym_len of 2 in a binary table, and two code points in one symbol field. -/
theorem test_bad_table_entries :
    parseTable .binary [0x01, 0x61, 0x00] = none ∧ parseTable .binary [0x02, 0x61, 0x62, 0x01, 0x00] = none ∧
      parseTable .text [0x02, 0x61, 0x62, 0x01, 0x00] = none := by decide

/-- 44_bit_unpacker.md R224 on the payload of V-C1: the datapath and the decode tree, after nine bits. -/
theorem test_unpack_datapath_aaabbc :
    unpackStream [0x1F, 0x00] 9 goodParsed.inv =
        { out := [0x61, 0x61, 0x61, 0x62, 0x62, 0x63], uacc := [], count := 9 } ∧
      matchTree (decodeTree goodParsed.inv) ((unpackBits [0x1F, 0x00]).take 9) none =
        some [0x61, 0x61, 0x61, 0x62, 0x62, 0x63] := by decide

/-- 41_tree_builder.md R145: V-C1's counts and node frequencies in 32 bits. -/
theorem test_held_tree_aaabbc :
    freqStore [0x61, 0x61, 0x61, 0x62, 0x62, 0x63] = [(0x61, 3#32), (0x62, 2#32), (0x63, 1#32)] ∧
      buildHeld [(0x61, 3#32), (0x62, 2#32), (0x63, 1#32)] =
        { nodes := [.leaf 0x61 3, .leaf 0x62 2, .leaf 0x63 1, .internal 3 2 1, .internal 6 0 3], active := [4] } := by decide

/-- 10_state.md R48 on `good`: the cursor ends at byte 23; behind the first entry of the table it is at 9. -/
theorem test_cursor_good :
    cursorContainer 256 good = .ok (goodParsed, 23#32) ∧
      cursorEntry .text good 17 5#32 = some (⟨0x61, [false]⟩, 9#32) ∧
      cursorContainer 256 good.dropLast = .error .malformedContainer := by decide

/-- The result registers at their offsets (10_state.md R34..R38) after V-C1. -/
theorem test_result_offsets :
    (nextOf (step (running .compress 0 aaabbc 64))).map (fun t =>
        [0x30#8, 0x34#8, 0x38#8, 0x3C#8, 0x40#8].map (readWindow t .w32)) = some [23, 6, 3, 12, 9] := by decide

/-- 46_commands.md R286, 70_reset_and_hazards.md R371: a write to DST_CAP in BUSY reaches the register. -/
theorem test_operand_write_in_busy :
    (nextOf (step (busyWith [.regWrite .w32 0x2C#8 7]))).map (·.regs.dstCap) = some 7 := by decide

/-- 60_exceptions.md R320: ERR_CODE of V-E5 reads 0x7, of V-D12 0x5. -/
theorem test_error_numbers :
    (nextOf (step (running .compress 0 aaabbc 22))).map (readWindow · .w32 0x1C#8) = some 0x7#32 ∧
      (nextOf (step (running .decompress 0
          [0x00, 0x00, 0x00, 0x00, 0x04, 0x01, 0x61, 0x01, 0x00, 0x00, 0x00, 0x00, 0x01, 0x80] 64))).map
        (readWindow · .w32 0x1C#8) = some 0x5#32 := by decide

/-- 42_codeword_table.md R182: false leads to the left child, true to the right. -/
theorem test_codeword_is_a_path :
    leafAt (buildTree [(0x61, 3), (0x62, 2), (0x63, 1)]).nodes 4 [false] = some 0x61 ∧
      leafAt (buildTree [(0x61, 3), (0x62, 2), (0x63, 1)]).nodes 4 [true, false] = some 0x63 ∧
      leafAt (buildTree [(0x61, 3), (0x62, 2), (0x63, 1)]).nodes 4 [true, true] = some 0x62 := by decide

/-! ## Witnesses: a case that meets all hypotheses of each statement -/

theorem witness_DecodingAndEncodingAgree : (Instr.compress 0xFFFFFFF#28).wf = true := by decide

theorem witness_StepRunsTheDecodedCommand :
    ¬((busyWith [.regWrite .w32 cmdOffset 2]).phase = .busy ∧ (busyWith [.regWrite .w32 cmdOffset 2]).wait = 0) ∧
      (busyWith [.regWrite .w32 cmdOffset 2]).queue = .regWrite .w32 cmdOffset 2 :: [] ∧
      (busyWith [.regWrite .w32 cmdOffset 2]).inReset = false ∧
      (heldWith [.regWrite .w32 cmdOffset 2]).queue = .regWrite .w32 cmdOffset 2 :: [] ∧
      (heldWith [.regWrite .w32 cmdOffset 2]).phase = .idle ∧ (heldWith [.regWrite .w32 cmdOffset 2]).inReset = true := by
  decide

theorem witness_NopLeavesAllStateUnchanged : (0xFFFFFFF0#32).extractLsb' 0 4 = 0x0#4 := by decide

theorem witness_ReservedOpcodesFailWithIllegalCommand : (idleWith 0 aaabbc 64).phase = .idle := by decide

theorem witness_CommandsAreDroppedWhileBusy : (busyWith []).phase = .busy := by decide

/-- Abandoned while BUSY, and in IDLE; a write while reset is asserted; the release. -/
theorem witness_ResetsRestoreEveryRegister :
    ((busyWith [.reset true]).phase = .busy ∧
        ¬((busyWith [.reset true]).phase = .busy ∧ (busyWith [.reset true]).wait = 0) ∧
        (busyWith [.reset true]).queue = .reset true :: [] ∧ (State.resetOn testPlat).phase = .idle) ∧
      (¬((heldWith [.regWrite .w32 0x24#8 7]).phase = .busy ∧ (heldWith [.regWrite .w32 0x24#8 7]).wait = 0) ∧
        (heldWith [.regWrite .w32 0x24#8 7]).inReset = true ∧
        (heldWith [.regWrite .w32 0x24#8 7]).queue = .regWrite .w32 0x24#8 7 :: []) ∧
      (¬((heldWith [.reset false]).phase = .busy ∧ (heldWith [.reset false]).wait = 0) ∧
        (heldWith [.reset false]).queue = .reset false :: []) := by decide

theorem witness_StartLatchesTheOperands : (idleWith 0 aaabbc 64).phase = .idle := by decide

/-- The container of V-C1 at DST_CAP 23, the least that fits it (V-E6). -/
theorem witness_CompressWritesItsContainerAndSucceeds :
    (idleWith 0 aaabbc 23).phase = .idle ∧ dtypeOf (idleWith 0 aaabbc 23).regs.mode = some .text ∧
      rangeOk testPlat 0x1000 6 = true ∧ rangeOk testPlat 0x2000 23 = true ∧ overlap 0x1000 6 0x2000 23 = false ∧
      compressBytes 256 .text ((idleWith 0 aaabbc 23).mem.readAll 0x1000 6) 23 =
        .ok { out := good, symCount := 6, distinct := 3, tableLen := 12, payloadBits := 9 } := by decide

/-- V-D1 at DST_CAP 6, the least that fits it. -/
theorem witness_DecompressWritesItsBytesAndSucceeds :
    (idleWith 3 good 6).phase = .idle ∧ rangeOk testPlat 0x1000 23 = true ∧ rangeOk testPlat 0x2000 6 = true ∧
      overlap 0x1000 23 0x2000 6 = false ∧
      decompressBytes 256 ((idleWith 3 good 6).mem.readAll 0x1000 23) 6 =
        .ok { out := aaabbc, symCount := 6, distinct := 3, tableLen := 12, payloadBits := 9 } := by decide

/-- V-E5 (DST_CAP 22) for COMPRESS, V-D9 for DECOMPRESS. -/
theorem witness_AFailedCommandReportsItsError :
    ((running .compress 0 aaabbc 22).phase = .busy ∧ (running .compress 0 aaabbc 22).wait = 0 ∧
      (running .compress 0 aaabbc 22).lat.op = .compress ∧
      compressResult (running .compress 0 aaabbc 22) = .error .outputOverflow) ∧
    ((running .decompress 0 good.dropLast 64).phase = .busy ∧ (running .decompress 0 good.dropLast 64).wait = 0 ∧
      (running .decompress 0 good.dropLast 64).lat.op = .decompress ∧
      decompressResult (running .decompress 0 good.dropLast 64) = .error .malformedContainer) ∧
    ({ State.resetOn testPlat with regs := { Regs.reset with errCode := .bufferOverlap } } : State).regs.errCode =
      .bufferOverlap := by decide

/-- V-E11: DST_CAP 9. -/
theorem witness_EmptyInputGivesTheNineByteContainer :
    (running .compress 0 [] 9).phase = .busy ∧ (running .compress 0 [] 9).wait = 0 ∧
      (running .compress 0 [] 9).lat.op = .compress ∧ dtypeOf (running .compress 0 [] 9).lat.dtype = some .text ∧
      (running .compress 0 [] 9).lat.srcLen = 0 ∧ rangeOk testPlat 0x2000 9 = true ∧
      9 ≤ (running .compress 0 [] 9).lat.dstCap.toNat := by decide

/-- COMPRESS: no data type (V-E1), a range below ordinary memory, an overlap (V-E9), ill-formed text (V-E2). -/
theorem witness_TheFirstFailingCheckIsReported_compress_checks :
    dtypeOf (running .compress 2 [0x61] 64).lat.dtype = none ∧
      ¬(rangeOk testPlat 0x1000 6 = true ∧ rangeOk testPlat 0xFFF 64 = true) ∧
      (rangeOk testPlat 0x1000 6 = true ∧ rangeOk testPlat 0x1004 64 = true ∧ overlap 0x1000 6 0x1004 64 = true) ∧
      (rangeOk testPlat 0x1000 1 = true ∧ rangeOk testPlat 0x2000 64 = true ∧ overlap 0x1000 1 0x2000 64 = false ∧
        utf8Dec ((running .compress 0 [0xC3] 64).mem.readAll 0x1000 1) = none) := by decide

/-- COMPRESS: the capacity clause with three symbols where two are allowed (V-E7), and DST_CAP 22 and 23 for V-C1. -/
theorem witness_TheFirstFailingCheckIsReported_compress_sizes :
    (2 < (freqTable [0x61, 0x62, 0x63]).length ∧ (freqTable [0x61, 0x61, 0x61, 0x62, 0x62, 0x63]).length ≤ 256) ∧
      codewordTable (freqTable [0x61, 0x61, 0x61, 0x62, 0x62, 0x63]) = .ok aaabbcCode ∧
      bitCount (freqTable [0x61, 0x61, 0x61, 0x62, 0x62, 0x63]) aaabbcCode ≤ 2 ^ 32 - 1 ∧
      22 < 9 + (serializeTable .text aaabbcCode).length +
        ceil8 (bitCount (freqTable [0x61, 0x61, 0x61, 0x62, 0x62, 0x63]) aaabbcCode) ∧
      9 + (serializeTable .text aaabbcCode).length +
        ceil8 (bitCount (freqTable [0x61, 0x61, 0x61, 0x62, 0x62, 0x63]) aaabbcCode) ≤ 23 := by decide

/-- COMPRESS: the bits overflow 2^32 - 1 for a single symbol that occurs 2^32 times. -/
theorem witness_TheFirstFailingCheckIsReported_compress_bits :
    2 ^ 32 - 1 < bitCount [(0x61, 2 ^ 32)] [{ sym := 0x61, cw := [false] }] := by decide

/-- DECOMPRESS: no tag (V-D2), tag 2 (V-D3), and `good` for the clauses of a container with a tag: less than five bytes
(V-D6), a table, a bit count and a payload cut short, a byte too many. -/
theorem witness_TheFirstFailingCheckIsReported_container :
    (running .decompress 0 [] 64).mem.readAll 0x1000 0 = [] ∧ 2 ≤ (0x02#8).toNat ∧ tagOf 0x00#8 = some .text ∧
      (good.take 4).length < 5 ∧ (good.take 16).length < 5 + tableLenOf (good.take 16) ∧
      (good.take 20).length < 9 + tableLenOf (good.take 20) ∧
      good.dropLast.length ≠ 9 + tableLenOf good.dropLast + ceil8 (bitLenOf good.dropLast (tableLenOf good.dropLast)) ∧
      (good ++ [0]).length ≠ 9 + tableLenOf (good ++ [0]) + ceil8 (bitLenOf (good ++ [0]) (tableLenOf (good ++ [0]))) := by
  decide

/-- DECOMPRESS: a table that does not parse (cw_len 0), one of three entries that does, against a limit of two and of three,
a prefix conflict, and the symbols of `good` at DST_CAP 5 and 6. -/
theorem witness_TheFirstFailingCheckIsReported_decompress :
    parseTable .text (slice [0, 0, 0, 0, 3, 1, 0x61, 0] 5 (5 + tableLenOf [0, 0, 0, 0, 3, 1, 0x61, 0])) = none ∧
      parseTable .text (slice good 5 (5 + tableLenOf good)) = some aaabbcTable ∧
      good.length = 9 + tableLenOf good + ceil8 (bitLenOf good (tableLenOf good)) ∧
      2 < aaabbcTable.length ∧ aaabbcTable.length ≤ 3 ∧
      tableValid [⟨0x61, [false]⟩, ⟨0x62, [false, true]⟩] = false ∧ tableValid aaabbcTable = true ∧
      unpack (good.drop (9 + tableLenOf good)) (bitLenOf good (tableLenOf good)) (inverseTable aaabbcTable) =
        .ok [0x61, 0x61, 0x61, 0x62, 0x62, 0x63] ∧
      5 < (reassemble .text [0x61, 0x61, 0x61, 0x62, 0x62, 0x63]).length ∧
      (reassemble .text [0x61, 0x61, 0x61, 0x62, 0x62, 0x63]).length ≤ 6 := by decide

/-- The container of V-D12. -/
def corrupt : List Byte := [0x00, 0x00, 0x00, 0x00, 0x04, 0x01, 0x61, 0x01, 0x00, 0x00, 0x00, 0x00, 0x01, 0x80]

/-- The unpacking clause: V-D12. -/
theorem witness_TheFirstFailingCheckIsReported_corrupt :
    parseTable .text (slice corrupt 5 (5 + tableLenOf corrupt)) = some [⟨0x61, [false]⟩] ∧
      corrupt.length = 9 + tableLenOf corrupt + ceil8 (bitLenOf corrupt (tableLenOf corrupt)) ∧
      tableValid [⟨0x61, [false]⟩] = true ∧
      unpack (corrupt.drop (9 + tableLenOf corrupt)) (bitLenOf corrupt (tableLenOf corrupt))
        (inverseTable [⟨0x61, [false]⟩]) = .error .corruptPayload := by decide

/-- An error of each command, and the least and the greatest reserved opcode. -/
theorem witness_MemoryAfterAnError :
    (nextOf (step (running .compress 0 aaabbc 22))).map (·.regs.errCode) = some .outputOverflow ∧
      (nextOf (step (running .decompress 0 good.dropLast 64))).map (·.regs.errCode) = some .malformedContainer ∧
      (nextOf (step (running .decompress 0 good 5))).map (·.regs.errCode) = some .outputOverflow ∧
      3 ≤ ((0x3#32).extractLsb' 0 4).toNat ∧ ((0xE#32).extractLsb' 0 4).toNat ≤ 14 := by decide

/-- The second part with a memory that differs outside the source range. -/
theorem witness_CommandsStayInsideTheirBuffers :
    (running .compress 0 aaabbc 64).phase = .busy ∧ (running .compress 0 aaabbc 64).wait = 0 ∧
      (running .compress 0 aaabbc 64).lat.inSource 0x1005 = true ∧
      (running .compress 0 aaabbc 64).lat.inSource 0x1006 = false ∧
      (∀ a ∈ [0x1000, 0x1001, 0x1002, 0x1003, 0x1004, 0x1005],
        ((running .compress 0 aaabbc 64).mem.write 0x1006 7).read a = (running .compress 0 aaabbc 64).mem.read a) := by
  decide

theorem witness_CommandsAreAllOrNothing :
    (running .compress 0 aaabbc 64).phase = .busy ∧ (running .compress 0 aaabbc 64).wait = 0 ∧
      (running .compress 0 aaabbc 64).regs.NoResult ∧ (running .compress 0 aaabbc 64).regs.err = false :=
  ⟨rfl, rfl, ⟨rfl, rfl, rfl, rfl, rfl⟩, rfl⟩

theorem witness_DecompressNeverReadsMode :
    (running .decompress 0 good 64).phase = .busy ∧ (running .decompress 0 good 64).wait = 0 ∧
      (running .decompress 0 good 64).lat.op = .decompress := by decide

/-- Only a state that already holds the code, which no run reaches. -/
theorem witness_EmptyInputIsNeverReported :
    (nextOf (step { State.resetOn testPlat with regs := { Regs.reset with errCode := .emptyInput } })).map (·.regs.errCode) =
      some .emptyInput := by decide

theorem witness_OperandWritesDoNotReachTheRunningCommand :
    (running .compress 0 aaabbc 64).phase = .busy ∧ (running .compress 0 aaabbc 64).wait = 0 := by decide

theorem witness_ARunningCommandFinishes : (busyWith []).phase = .busy ∧ (busyWith []).queue = [] := by decide

/-- Both orders. -/
theorem witness_ACommandWriteMeetsARunningCommandInEitherOrder :
    ((busyWith [issue (.decompress 0)]).phase = .busy ∧
        (busyWith [issue (.decompress 0)]).queue = issue (.decompress 0) :: [] ∧
        (busyWith [issue (.decompress 0)]).inReset = false ∧ 0 < (busyWith [issue (.decompress 0)]).wait) ∧
      ({ busyWith [issue (.decompress 0)] with wait := 0 } : State).wait = 0 := by decide

/-- The bits at both ends, and offsets of each kind. -/
theorem witness_RegisterWritesActByAccessType :
    (1 ≤ 1 ∧ 1 ≤ 3 ∧ 1 ≤ 3 ∧ 3 ≤ 3) ∧ (0x44#8) ∉ [0x10#8, 0x14#8, 0x18#8, 0x20#8, 0x24#8, 0x28#8, 0x2C#8] ∧
      (0x1C#8) ∉ [0x10#8, 0x14#8, 0x18#8, 0x20#8, 0x24#8, 0x28#8, 0x2C#8] ∧ (0x24#8) ≠ 0x20#8 ∧ (0x24#8) ≠ 0x14#8 ∧
      (0x18#8) ≠ 0x14#8 ∧ 0 ≤ 3 ∧ 3 ≤ 3 ∧ (0x10#8) ≠ 0x14#8 ∧ (0x10#8) ≠ 0x18#8 ∧ 2 ≤ 2 ∧
      (¬((busyWith [.regWrite .w32 0x10#8 1]).phase = .busy ∧ (busyWith [.regWrite .w32 0x10#8 1]).wait = 0) ∧
        (busyWith [.regWrite .w32 0x10#8 1]).inReset = false ∧ (0x10#8) ≠ cmdOffset ∧
        (busyWith [.regWrite .w32 0x10#8 1]).queue = .regWrite .w32 0x10#8 1 :: []) := by decide

theorem witness_StatusReadsItsFields : 5 ≤ 5 ∧ (readWindow (busyWith []) .w32 0x14#8).getLsbD 0 = true := by decide

theorem witness_ConstantRegistersStayAsTheyAre :
    (nextOf (step (busyWith [issue (.softReset 0)]))).map (·.plat) = some testPlat := by decide

/-- A narrow access at an aligned offset, a 32-bit access at an offset that is no multiple of 4, a write and a read. -/
theorem witness_OtherWindowAccessesDoNothing :
    ¬((busyWith [.regWrite .w8 0x0C#8 1]).phase = .busy ∧ (busyWith [.regWrite .w8 0x0C#8 1]).wait = 0) ∧
      (AccessWidth.w8 ≠ .w32 ∨ (0x0C#8).toNat % 4 ≠ 0) ∧
      (busyWith [.regWrite .w8 0x0C#8 1]).queue = .regWrite .w8 0x0C#8 1 :: [] ∧
      (AccessWidth.w32 ≠ .w32 ∨ (0x0D#8).toNat % 4 ≠ 0) ∧
      (busyWith [.regRead .w32 0x0D#8]).queue = .regRead .w32 0x0D#8 :: [] := by decide

theorem witness_RegisterReadsHaveNoSideEffect :
    ¬((busyWith [.regRead .w32 0x14#8]).phase = .busy ∧ (busyWith [.regRead .w32 0x14#8]).wait = 0) ∧
      (busyWith [.regRead .w32 0x14#8]).queue = .regRead .w32 0x14#8 :: [] ∧
      (busyWith [.poll 0x14#8 1 0]).queue = .poll 0x14#8 1 0 :: [] := by decide

/-- A write of 0x6 to STATUS acknowledges DONE and ERR; 0x2 with ERR 0 and 0x4 with DONE 0 are the single ones. -/
theorem witness_AcknowledgingLowersTheInterrupt :
    ¬((busyWith [.regWrite .w32 0x14#8 6]).phase = .busy ∧ (busyWith [.regWrite .w32 0x14#8 6]).wait = 0) ∧
      (busyWith [.regWrite .w32 0x14#8 6]).inReset = false ∧
      (busyWith [.regWrite .w32 0x14#8 6]).queue = .regWrite .w32 0x14#8 6 :: [] ∧ (6#32).getLsbD 1 = true ∧
      (6#32).getLsbD 2 = true ∧ (2#32).getLsbD 1 = true ∧ (busyWith []).regs.err = false ∧ (4#32).getLsbD 2 = true ∧
      (busyWith []).regs.done = false := by decide

/-- A busy state that keeps the invariant. -/
theorem witness_Inv (ops : List BusOp) : (busyWith ops).Inv :=
  ⟨⟨List.pairwise_singleton _ _, fun c h => by
      have : c = (0x1000, 0x61) := List.mem_singleton.1 h
      subst this; decide⟩,
    fun h => Bool.noConfusion (show false = true from h.1), fun _ => ⟨rfl, rfl, rfl⟩, fun _ => ⟨rfl, rfl, rfl, rfl, rfl⟩,
    fun h => absurd rfl h, fun h => Bool.noConfusion (show false = true from h),
    fun h => Bool.noConfusion (show false = true from h),
    fun h => ErrCode.noConfusion (show ErrCode.none = .emptyInput from h)⟩

theorem witness_ResultsReadZeroWhileBusy : (busyWith []).Inv ∧ (busyWith []).phase = .busy := ⟨witness_Inv [], rfl⟩

theorem witness_EveryStepKeepsTheInvariant :
    (busyWith [.regWrite .w32 0x20#8 5]).Inv ∧ ∃ t, step (busyWith [.regWrite .w32 0x20#8 5]) = .next t :=
  ⟨witness_Inv _, _, rfl⟩

/-- IDLE to BUSY by COMPRESS, and BUSY to IDLE by the core's step, by reset and by SOFT_RESET. -/
theorem witness_ThePhaseChangesOnlyAsItMay :
    (nextOf (step { idleWith 0 aaabbc 64 with queue := [issue (.compress 0)] })).map (·.phase) = some .busy ∧
      (nextOf (step (running .compress 0 aaabbc 64))).map (·.phase) = some .idle ∧
      (nextOf (step (busyWith [.reset true]))).map (·.phase) = some .idle ∧
      (nextOf (step (busyWith [issue (.softReset 0)]))).map (·.phase) = some .idle := by decide

/-- A byte changed by an agent, and one changed by the core; both were 0x61 before. -/
theorem witness_MemoryChangesOnlyAsItMay :
    (nextOf (step { idleWith 0 aaabbc 64 with queue := [.memWrite 0x1000 7] })).map (·.mem.read 0x1000) = some 7 ∧
      (idleWith 0 aaabbc 64).mem.read 0x1000 = 0x61 ∧
      (nextOf (step { running .compress 0 aaabbc 64 with mem := placed 0x1000 (aaabbc ++ [0]) ++ [(0x2004, 0x61)] })).map
          (·.mem.read 0x2004) = some 0x0C := by decide

/-- The first byte of the source range and the last of the destination range, written and read; and a source range where the
platform has no memory. -/
theorem witness_BuffersBelongToTheRunningCommand :
    ((busyWith [.memWrite 0x1000 0]).phase = .busy ∧ 0 < (busyWith [.memWrite 0x1000 0]).wait ∧
        testPlat.inWindow 0x1000 = false ∧ (busyWith []).lat.inSource 0x1000 = true ∧ testPlat.inWindow 0x203F = false ∧
        (busyWith [.memRead 0x203F]).queue = .memRead 0x203F :: [] ∧
        (busyWith []).lat.inDest 0x203F = true ∧ (busyWith []).lat.inDest 0x2040 = false) ∧
      (testPlat.inWindow 0x10000 = false ∧ testPlat.memOk 0x10000 = false ∧
        (runningAt .compress 0 aaabbc 0xFFFF 2).lat.inDest 0x10000 = true) := by decide

/-- The last address of the ordinary memory in IDLE; in BUSY the first addresses behind both ranges, and a read of the source
range. -/
theorem witness_MemoryKeepsWhatAnAgentWrites :
    ((State.resetOn testPlat).phase = .idle ∧ testPlat.memOk 0xFFFF = true ∧ testPlat.memOk 0x10000 = false ∧
        ({ State.resetOn testPlat with queue := [.memWrite 0xFFFF 9, .memRead 0xFFFF] } : State).queue =
          .memWrite 0xFFFF 9 :: .memRead 0xFFFF :: []) ∧
      (2 ≤ (busyWith [.memWrite 0x2040 9, .memRead 0x2040]).wait ∧ testPlat.memOk 0x2040 = true ∧
        (busyWith []).lat.inSource 0x2040 = false ∧ (busyWith []).lat.inDest 0x2040 = false ∧
        (busyWith []).lat.inSource 0x1001 = false) ∧
      (¬((busyWith [.memRead 0x1000]).phase = .busy ∧ (busyWith [.memRead 0x1000]).wait = 0) ∧
        (busyWith []).lat.inSource 0x1000 = true ∧ (busyWith []).lat.inDest 0x1000 = false ∧
        testPlat.memOk 0x1000 = true) := by decide

/-- The greatest field value. -/
theorem witness_BigEndianFieldsRoundTrip : 2 ^ 32 - 1 < 2 ^ 32 ∧ be32Inv (be32 (2 ^ 32 - 1)) = 2 ^ 32 - 1 := by decide

/-- The last bit of the second byte of nine bits. -/
theorem witness_PackedBitsStandMostSignificantFirst :
    1 < (packBits [true, false, false, true, true, true, true, true, true]).length ∧ 7 < 8 := by decide

/-- One code point of each length, at the ends of its range. -/
theorem witness_DecodedTextIsScalarAndEncodesBack :
    utf8Dec [0x7F, 0xC2, 0x80, 0xEF, 0xBF, 0xBF, 0xF4, 0x8F, 0xBF, 0xBF] = some [0x7F, 0x80, 0xFFFF, 0x10FFFF] := by decide

/-- Both ends of each length of R121. -/
theorem witness_EncodedTextDecodesBack :
    ∀ cp ∈ [0, 0x7F, 0x80, 0x7FF, 0x800, 0xD7FF, 0xE000, 0xFFFF, 0x10000, 0x10FFFF], isScalar cp = true := by decide

/-- Three distinct symbols against two and against three. -/
theorem witness_FrequenciesAreCountsInAscendingOrder :
    2 < (freqTable [0x61, 0x62, 0x63]).length ∧ (freqTable [0x61, 0x62, 0x63]).length ≤ 3 ∧
      [0x61, 0x62, 0x63].length ≤ 2 ^ 32 - 1 := by decide

theorem witness_TheTreeHasTwiceAsManyNodesLessOne : [(0x61, 4)] ≠ ([] : List (Nat × Nat)) := by decide

/-- V-C1's tree has an internal node 3 = 2 + 1, a leaf 0 and a root 4. -/
theorem witness_TheTreeKeepsItsShape :
    [(0x61, 3), (0x62, 2), (0x63, 1)] ≠ ([] : List (Nat × Nat)) ∧
      (buildTree [(0x61, 3), (0x62, 2), (0x63, 1)]).nodes[3]? = some (Node.internal 3 2 1) ∧
      (buildTree [(0x61, 3), (0x62, 2), (0x63, 1)]).nodes[0]? = some (Node.leaf 0x61 3) ∧
      3 < (buildTree [(0x61, 3), (0x62, 2), (0x63, 1)]).root ∧
      ([(0x61, 2 ^ 32 - 2), (0x62, 1)].map Prod.snd).sum ≤ 2 ^ 32 - 1 ∧
      storedTable [(0x61, 0xFFFFFFFE#32), (0x62, 1#32)] = [(0x61, 2 ^ 32 - 2), (0x62, 1)] := by decide

theorem witness_EachMergeTakesTheTwoLeast : [0, 1].Nodup ∧ 2 ≤ [0, 1].length := by decide

/-- N = 1 and N = 3. -/
theorem witness_CodewordsArePrefixFreeAndComplete :
    ([(0x61, 3), (0x62, 2), (0x63, 1)] ≠ ([] : List (Nat × Nat)) ∧
        [(0x61, 3), (0x62, 2), (0x63, 1)].Pairwise (fun x y => x.1 < y.1) ∧
        codewordTable [(0x61, 3), (0x62, 2), (0x63, 1)] = .ok aaabbcCode ∧
        2 ≤ [(0x61, 3), (0x62, 2), (0x63, 1)].length) ∧
      codewordTable [(0x61, 4)] = .ok [⟨0x61, [false]⟩] := by decide

theorem witness_NoCodewordIsLongerThan45Bits :
    [(0x61, 2 ^ 32 - 2), (0x62, 1)] ≠ ([] : List (Nat × Nat)) ∧ (∀ e ∈ [(0x61, 2 ^ 32 - 2), (0x62, 1)], 1 ≤ e.2) ∧
      ([(0x61, 2 ^ 32 - 2), (0x62, 1)].map Prod.snd).sum ≤ 2 ^ 32 - 1 := by decide

/-- The least and the greatest number of repetitions, each at the least capacity. -/
theorem witness_ASingleSymbolGetsOneZeroBit :
    (1 ≤ 1 ∧ 1 ≤ 1 ∧ 1 ≤ 2 ^ 32 - 1 ∧ 13 + (1 + 7) / 8 ≤ 14) ∧
      (1 ≤ 2 ^ 32 - 1 ∧ 2 ^ 32 - 1 ≤ 2 ^ 32 - 1 ∧ 13 + (2 ^ 32 - 1 + 7) / 8 ≤ 2 ^ 29 + 13) ∧
      (isScalar 0x10FFFF = true ∧ 12 + (utf8Enc 0x10FFFF).length + (1 + 7) / 8 ≤ 17) := by decide

/-- An entry with a codeword of the greatest length. -/
def longEntry : Entry := ⟨255, List.replicate 255 true⟩

theorem longEntry_length : longEntry.cw.length = 255 := List.length_replicate

theorem witness_ThePackersDatapathPacksTheBits :
    (∀ e ∈ [longEntry], e.cw.length ≤ 255) ∧ 8 * (packStream [0x61, 0x62] aaabbcTable).out.length < 2 ^ 32 :=
  ⟨fun e h => by rw [List.mem_singleton.1 h, longEntry_length], by decide⟩

/-- The greatest B, and the code of V-C1. -/
theorem witness_StoppingEarlyChangesNoResult :
    2 ^ 32 - 1 ≤ 2 ^ 32 - 1 ∧ tableValid aaabbcTable = true ∧ ∀ e ∈ aaabbcTable, e.cw ≠ [] := by decide

/-- The code of V-C1, with symbols that it has. -/
theorem witness_GreedyMatchingIsExact :
    tableValid aaabbcTable = true ∧ (∀ e ∈ aaabbcTable, e.cw ≠ []) ∧ (∀ s ∈ [0x61, 0x62], ∃ e ∈ aaabbcTable, e.sym = s) := by
  decide

theorem witness_AContainerHasItsExactLength :
    parseContainer 256 good = .ok goodParsed ∧ [0x00#8] ≠ [] := by decide

/-- A text and a binary entry at the bounds of their symbols and lengths; the fields of an entry that end too early or have a
value out of range, and cw_len at both ends. -/
theorem witness_TheParserReadsTheSerializedTable :
    (isScalar 0x10FFFF = true ∧ 1 ≤ [false].length ∧ [false].length ≤ 255) ∧
      (longEntry.sym < 256 ∧ 1 ≤ longEntry.cw.length ∧ longEntry.cw.length ≤ 255) ∧
      ((0#8).toNat ≠ 1 ∧ (2#8).toNat ≠ 1 ∧ ¬(1 ≤ (0#8).toNat ∧ (0#8).toNat ≤ 4) ∧ ¬(1 ≤ (5#8).toNat ∧ (5#8).toNat ≤ 4)) ∧
      [0x61#8].length ≤ (1#8).toNat ∧
      ([0x61#8, 0x62].length = (2#8).toNat ∧ utf8Dec [0x61, 0x62] = some [0x61, 0x62]) ∧
      ([0x61#8].length = (1#8).toNat ∧ (0#8).toNat = 0 ∧ [0x80#8].length < ((9#8).toNat + 7) / 8) ∧
      (1 ≤ (1#8).toNat ∧ [0x7F#8].length = ((1#8).toNat + 7) / 8 ∧ 1 ≤ (255#8).toNat ∧ ((255#8).toNat + 7) / 8 = 32 ∧
        [0xC2#8, 0x80].length = (2#8).toNat ∧ utf8Dec [0xC2, 0x80] = some [0x80]) ∧
      (good.length ≤ 2 ^ 32 - 1 ∧ parseContainer 256 good = .ok goodParsed ∧
        parseContainer 256 good.dropLast = .error .malformedContainer) := by
  rw [longEntry_length]; decide

theorem witness_TheContainerFitsItsFields :
    256 ≤ 1048576 ∧
      compressBytes 256 .text aaabbc 23 = .ok { out := good, symCount := 6, distinct := 3, tableLen := 12, payloadBits := 9 } := by
  decide

theorem witness_ATruncatedContainerIsMalformed :
    1048576 ≤ 2 ^ 20 ∧
      compressBytes 1048576 .text [] 9 =
        .ok { out := [0, 0, 0, 0, 0, 0, 0, 0, 0], symCount := 0, distinct := 0, tableLen := 0, payloadBits := 0 } := by decide

/-- Two destinations, one of them at its least capacity. -/
theorem witness_CompressionIsDeterministic :
    (running .compress 0 aaabbc 23).phase = .busy ∧ (running .compress 0 aaabbc 23).wait = 0 ∧
      (runningAt .compress 0 aaabbc 0x3000 64).phase = .busy ∧ (runningAt .compress 0 aaabbc 0x3000 64).wait = 0 ∧
      (running .compress 0 aaabbc 23).lat.dtype = (runningAt .compress 0 aaabbc 0x3000 64).lat.dtype ∧
      (running .compress 0 aaabbc 23).mem.readAll 0x1000 6 = (runningAt .compress 0 aaabbc 0x3000 64).mem.readAll 0x1000 6 ∧
      (nextOf (step (running .compress 0 aaabbc 23))).map (·.regs.errCode) = some .none ∧
      (nextOf (step (runningAt .compress 0 aaabbc 0x3000 64))).map (·.regs.errCode) = some .none := by decide

theorem witness_DecompressingACompressedContainerGivesTheInput :
    256 ≤ 1048576 ∧ aaabbc.length ≤ 6 ∧
      compressBytes 256 .text aaabbc 23 = .ok { out := good, symCount := 6, distinct := 3, tableLen := 12, payloadBits := 9 } := by
  decide

theorem witness_TheMachineRoundTrips :
    (running .compress 0 aaabbc 64).lat.op = .compress ∧ testPlat.legal = true ∧
      (nextOf (step (running .compress 0 aaabbc 64))).map (·.regs.errCode) = some .none ∧
      (running .decompress 0 good 6).lat.op = .decompress ∧
      (nextOf (step (running .compress 0 aaabbc 64))).map (fun u => u.mem.readAll 0x2000 u.regs.resultLen.toNat) =
        some ((running .decompress 0 good 6).mem.readAll 0x1000 23) ∧
      rangeError testPlat (running .decompress 0 good 6).lat = none ∧
      (running .compress 0 aaabbc 64).lat.srcLen.toNat ≤ (running .decompress 0 good 6).lat.dstCap.toNat := by decide

end Sys2Proof.Tests
end

section
/-! The identification registers of the window and the parameters of the platform (10_state.md R22..R24). -/

namespace Sys2Proof.Machine

/-! ## Accesses at the offset of a register -/

/-- A 32-bit read at the offset of a register returns that register's value. -/
theorem readWindow_of_regAt (s : State) {off : BitVec 8} {r : RegName} (h : regAt off = some r) :
    readWindow s .w32 off = regValue s r := by
  simp only [readWindow, h]

/-- A write of any width at the offset of a register that ignores writes changes nothing. -/
theorem writeWindow_eq_self (s : State) (w : AccessWidth) {off : BitVec 8} {r : RegName} (v : Word)
    (h : regAt off = some r) (hr : writeReg v s.regs r = s.regs) : writeWindow s w off v = s := by
  cases w with
  | w8 => rfl
  | w16 => rfl
  | w32 => simp only [writeWindow, h, hr]

/-! ## The platform's parameters -/

@[simp] theorem hostRegWrite_plat (w : AccessWidth) (off : BitVec 8) (v : Word) (s : State) :
    (hostRegWrite w off v s).plat = s.plat := by
  obtain ⟨_, h⟩ | ⟨_, h⟩ := hostRegWrite_cases w off v s <;> simp [h]

@[simp] theorem pollReg_plat (off : BitVec 8) (mask v : Word) (s : State) : (pollReg off mask v s).plat = s.plat := by
  unfold pollReg; split <;> rfl

@[simp] theorem coreStep_plat (s : State) : (coreStep s).plat = s.plat := by
  obtain ⟨_, _, h⟩ | ⟨_, _, h⟩ | ⟨_, _, _, _, h⟩ := coreStep_cases s <;> simp [h]

theorem exec_plat {i : Instr} {s t : State} (h : exec i s = .next t) : t.plat = s.plat := by
  obtain ⟨_, _, he⟩ | ⟨_, he⟩ | ⟨_, _, _, he⟩ | ⟨_, _, _, he⟩ | ⟨_, he⟩ | ⟨_, _, he⟩ := exec_cases i s <;>
    cases he.symm.trans h <;> simp

theorem runCommand_plat {i : Instr} {s t : State} (h : runCommand i s = .next t) : t.plat = s.plat := by
  obtain ⟨_, hr⟩ | ⟨_, hr⟩ := runCommand_cases i s
  · cases hr.symm.trans h; rfl
  · exact exec_plat (hr.symm.trans h)

theorem access_plat {op : BusOp} {s t : State} (h : access op s = .next t) : t.plat = s.plat := by
  obtain ⟨_, _, _, _, rfl⟩ | ⟨_, _, _, rfl⟩ | ⟨_, _, _, _, rfl⟩ | ⟨_, _, _, rfl | rfl, _⟩ | ⟨_, _, _, rfl | rfl⟩ |
    ⟨_, _, rfl⟩ := access_cases h <;> simp

/-- Whoever moves, the core or the outside world, the platform keeps its parameters (10_state.md R24). -/
theorem step_plat {s t : State} (h : step s = .next t) : t.plat = s.plat := by
  obtain ⟨_, _, rfl⟩ | ⟨_, _, rfl⟩ | ⟨_, _, _, _, hc⟩ | ⟨_, _, _, _, _, _, ha⟩ := step_cases h
  · exact coreStep_plat s
  · exact taken_plat s
  · exact (runCommand_plat hc).trans (taken_plat s)
  · exact (access_plat ha).trans (taken_plat s)

/-- Settles O25: ID, VERSION and CAPS read state that neither a window write nor a step touches. -/
theorem constantRegistersStayAsTheyAre : Obligations.ConstantRegistersStayAsTheyAre := by
  have hid : regAt 0x00#8 = some .id := rfl
  have hversion : regAt 0x04#8 = some .version := rfl
  have hcaps : regAt 0x08#8 = some .caps := rfl
  refine ⟨fun s => ⟨?_, ?_, ?_⟩, fun s w v => ⟨?_, ?_, ?_⟩, fun _ _ => step_plat⟩
  · exact readWindow_of_regAt s hid
  · exact readWindow_of_regAt s hversion
  · exact readWindow_of_regAt s hcaps
  · exact writeWindow_eq_self s w v hid rfl
  · exact writeWindow_eq_self s w v hversion rfl
  · exact writeWindow_eq_self s w v hcaps rfl

end Sys2Proof.Machine
end

section
/-! Accesses of the register window that reach no register (20_memory.md R75). -/

namespace Sys2Proof.Machine

variable {w : AccessWidth} {off : BitVec 8}

/-- Only an aligned 32-bit access finds a register. -/
theorem readWindow_other (s : State) (h : w ≠ .w32 ∨ off.toNat % 4 ≠ 0) : readWindow s w off = 0 := by
  cases w with
  | w8 => rfl
  | w16 => rfl
  | w32 => simp only [readWindow, regAt_unaligned (h.resolve_left fun hw => hw rfl)]

theorem writeWindow_other (s : State) (v : Word) (h : w ≠ .w32 ∨ off.toNat % 4 ≠ 0) : writeWindow s w off v = s := by
  cases w with
  | w8 => rfl
  | w16 => rfl
  | w32 => simp only [writeWindow, regAt_unaligned (h.resolve_left fun hw => hw rfl)]

theorem hostRegWrite_other (s : State) (v : Word) (h : w ≠ .w32 ∨ off.toNat % 4 ≠ 0) : hostRegWrite w off v s = s := by
  obtain ⟨_, hs⟩ | ⟨_, hs⟩ := hostRegWrite_cases w off v s
  · exact hs
  · exact hs.trans (writeWindow_other s v h)

/-- A command is a 32-bit write to CMD, whose offset is a multiple of 4. -/
theorem commandOf_regWrite_other (v : Word) (h : w ≠ .w32 ∨ off.toNat % 4 ≠ 0) :
    ∃ r, commandOf (.regWrite w off v) = .error r := by
  cases hc : commandOf (.regWrite w off v) with
  | error r => exact ⟨r, rfl⟩
  | ok i =>
    obtain ⟨_, hv, _⟩ := commandOf_ok hc
    cases hv
    exact absurd h (by decide)

/-- Settles O26: such an access is no command, and finds no register to read or write. -/
theorem otherWindowAccessesDoNothing : Obligations.OtherWindowAccessesDoNothing := by
  intro s w o v rest hmove hother
  constructor
  · intro hq
    obtain ⟨r, hc⟩ := commandOf_regWrite_other v hother
    rw [step_bus hmove hq, hc]
    exact congrArg _ (hostRegWrite_other _ v hother)
  · intro hq
    rw [step_bus hmove hq]
    simp only [commandOf, access, reply, readWindow_other _ hother]

end Sys2Proof.Machine
end

section
/-! A running command and its buffers: it depends on its source range and writes its destination range only
(20_memory.md R76). -/

namespace Sys2Proof.Machine

/-! ## What the latched command comes to -/

/-- The result of the latched command, of either kind. -/
def commandResult (s : State) : Except ErrCode Success :=
  match s.lat.op with
  | .compress => compressResult s
  | .decompress => decompressResult s

/-- The form in which the laws of `coreStep` speak of the result. -/
theorem commandResult_eq_iff {s : State} {x : Except ErrCode Success} : commandResult s = x ↔
    s.lat.op = .compress ∧ compressResult s = x ∨ s.lat.op = .decompress ∧ decompressResult s = x := by
  cases ho : s.lat.op <;> simp [commandResult, ho]

/-- The result depends on no byte outside the source range. -/
theorem commandResult_congr {s : State} {m : Memory} (h : ∀ a, s.lat.inSource a = true → m.read a = s.mem.read a) :
    commandResult { s with mem := m } = commandResult s := by
  obtain ⟨hcompress, hdecompress⟩ := result_congr s m h
  simp only [commandResult, hcompress, hdecompress]

/-- B computed from the frequency table is the number of bits packed (43_bit_packer.md R201). -/
theorem bitCount_freqTable (syms : List Nat) (cw : List Entry) :
    bitCount (freqTable syms) cw = (codeBits syms cw).length := by
  obtain ⟨_, _, hsum⟩ := freqTable_spec syms
  rw [bitCount, hsum fun s => (codewordOf cw s).length, codeBits, List.length_flatMap]

/-- A successful COMPRESS fits its destination (46_commands.md R290). -/
theorem compressBytes_fits {m cap : Nat} {d : DataType} {x : List Byte} {r : Success}
    (h : compressBytes m d x cap = .ok r) : r.out.length ≤ cap := by
  obtain ⟨syms, cw, _, _, _, _, hcap, rfl⟩ := compressBytes_ok h
  rw [bitCount_freqTable] at hcap
  exact (serializeContainer_length ..).trans_le hcap

/-- A successful command fits its destination. -/
theorem commandResult_fits {s : State} {r : Success} (h : commandResult s = .ok r) :
    r.out.length ≤ s.lat.dstCap.toNat := by
  obtain ⟨_, hc⟩ | ⟨_, hd⟩ := commandResult_eq_iff.1 h
  · obtain ⟨_, _, _, hbytes⟩ := compressResult_ok hc
    exact compressBytes_fits hbytes
  · exact decompressBytes_fits (decompressResult_ok hd).2

/-! ## The core's step, by the result of the command -/

section
variable {s : State} {r : Success} {e : ErrCode}

theorem coreStep_regs_of_ok (h : commandResult s = .ok r) : (coreStep s).regs = (succeed r s).regs := by
  simp [coreStep_ok (commandResult_eq_iff.1 h)]

theorem coreStep_mem_of_ok (h : commandResult s = .ok r) :
    (coreStep s).mem = s.mem.writeAll s.lat.dstAddr.toNat r.out := by
  simp [coreStep_ok (commandResult_eq_iff.1 h)]

/-- RESULT_LEN is the number of bytes written, since no result that fits DST_CAP wraps. -/
theorem coreStep_resultLen_of_ok (h : commandResult s = .ok r) :
    (coreStep s).regs.resultLen.toNat = r.out.length := by
  rw [coreStep_regs_of_ok h]
  exact toNat_resultLen (commandResult_fits h)

theorem coreStep_regs_of_error (h : commandResult s = .error e) : (coreStep s).regs = (fail e s).regs :=
  coreStep_error_regs (commandResult_eq_iff.1 h)

/-- A command that reports no error has succeeded. -/
theorem commandResult_ok_of_errCode (h : (coreStep s).regs.errCode = .none) : ∃ r, commandResult s = .ok r := by
  cases hr : commandResult s with
  | ok r => exact ⟨r, rfl⟩
  | error e =>
    rw [coreStep_regs_of_error hr] at h
    exact absurd h (error_code_ne (commandResult_eq_iff.1 hr)).1

end

/-- The registers a command leaves follow from its result and the registers it found. -/
theorem coreStep_regs_congr {s t : State} (hregs : t.regs = s.regs) (h : commandResult t = commandResult s) :
    (coreStep t).regs = (coreStep s).regs := by
  cases hr : commandResult s with
  | ok r => simp [coreStep_regs_of_ok hr, coreStep_regs_of_ok (h.trans hr), hregs]
  | error e => simp [coreStep_regs_of_error hr, coreStep_regs_of_error (h.trans hr), hregs]

/-! ## The bytes a command writes -/

theorem SameOutside.mono {m m' : Memory} {lo n k : Nat} (h : SameOutside m m' lo n) (hnk : n ≤ k) :
    SameOutside m m' lo k :=
  fun a ha => h a (by omega)

/-- However it ends, a command changes no byte outside its destination range. -/
theorem coreStep_sameOutside_dest (s : State) :
    SameOutside s.mem (coreStep s).mem s.lat.dstAddr.toNat s.lat.dstCap.toNat := by
  obtain ⟨r, hr, hstep⟩ | ⟨e, _, hstep⟩ | ⟨e, _, _, _, hstep⟩ := coreStep_cases s <;> rw [hstep]
  · exact (writeAll_spec s.mem _ r.out).2.mono (commandResult_fits (commandResult_eq_iff.2 hr))
  · exact fun _ _ => rfl
  · exact scramble_spec s.draws s.mem _ _

/-- Settles O16: the core's step writes the bytes of a result, and that result is read off the source range alone. -/
theorem commandsStayInsideTheirBuffers : Obligations.CommandsStayInsideTheirBuffers := by
  constructor
  · intro s hbusy hwait
    refine ⟨coreStep s, step_core hbusy hwait, coreStep_sameOutside_dest s, fun hnone => ?_⟩
    obtain ⟨r, hr⟩ := commandResult_ok_of_errCode hnone
    rw [coreStep_resultLen_of_ok hr, coreStep_mem_of_ok hr]
    exact ⟨(writeAll_spec ..).2, commandResult_fits hr⟩
  · intro s m hbusy hwait hsource
    have hsame := commandResult_congr hsource
    refine ⟨coreStep s, coreStep { s with mem := m }, step_core hbusy hwait, step_core hbusy hwait,
      coreStep_regs_congr rfl hsame, fun hnone i hi => ?_⟩
    obtain ⟨r, hr⟩ := commandResult_ok_of_errCode hnone
    rw [coreStep_resultLen_of_ok hr] at hi
    rw [coreStep_mem_of_ok hr, coreStep_mem_of_ok (hsame.trans hr)]
    exact ((writeAll_spec ..).1 i hi).trans ((writeAll_spec ..).1 i hi).symm

end Sys2Proof.Machine
end

section
/-! The tree as it is built: what one merge takes, and the arena when one node is left (41_tree_builder.md R150..R154). -/

namespace Sys2Proof.Machine

/-- Two different nodes never have the same key, so the order by key is strict between them. -/
theorem NotAfter.strict {nodes : List Node} {j k : Nat} (h : NotAfter nodes j k) (hne : j ≠ k) :
    freqAt nodes j < freqAt nodes k ∨ freqAt nodes j = freqAt nodes k ∧ j < k :=
  h.imp_right fun ⟨hfreq, hle⟩ => ⟨hfreq, Nat.lt_of_le_of_ne hle hne⟩

/-- Settles O44: a merge takes the least twice, and distinct indices are never equal in key. -/
theorem eachMergeTakesTheTwoLeast : Obligations.EachMergeTakesTheTwoLeast := by
  intro nodes active hnodup hlen
  obtain ⟨a, b, rest, hmerge, hperm, hfirst, hsecond⟩ := mergeOnce_spec (nodes := nodes) hnodup hlen
  obtain ⟨ha, hbrest⟩ := List.nodup_cons.1 (hperm.nodup hnodup)
  have hb := (List.nodup_cons.1 hbrest).1
  exact ⟨a, b, rest, hmerge, hperm, fun k hk => (hfirst k hk).strict (ne_of_mem_of_not_mem hk ha).symm,
    fun k hk => (hsecond k hk).strict (ne_of_mem_of_not_mem hk hb).symm⟩

section
variable {table : List (Nat × Nat)} (hne : table ≠ [])
include hne

/-- The loop of a non-empty table runs N - 1 times. -/
theorem treeInv_buildTree : TreeInv table (table.length - 1) (buildTree table) :=
  treeInv_mergeTimes table _ (Nat.sub_add_cancel (List.length_pos_of_ne_nil hne)).le

theorem buildTree_length : (buildTree table).nodes.length = 2 * table.length - 1 := by
  have hpos := List.length_pos_of_ne_nil hne
  have hlen := (treeInv_buildTree hne).len
  omega

/-- One node is left, the one the last merge appended or, where there was no merge, the only leaf. -/
theorem buildTree_active : (buildTree table).active = [2 * table.length - 2] := by
  have hpos := List.length_pos_of_ne_nil hne
  have hinv := treeInv_buildTree hne
  have hlen := buildTree_length hne
  obtain ⟨x, hx⟩ := List.length_eq_one_iff.1 (show (buildTree table).active.length = 1 by have := hinv.act; omega)
  obtain hone | hmore : table.length = 1 ∨ 0 < table.length - 1 := by omega
  · have hbound := hinv.bound x (by simp [hx])
    rw [hx, show x = 2 * table.length - 2 by omega]
  · obtain ⟨rest, hrest⟩ := hinv.last hmore
    obtain ⟨-, hlast⟩ := List.append_inj' (s₁ := []) (hx.symm.trans hrest) rfl
    rw [hx, hlast, hlen, Nat.sub_sub]

theorem buildTree_root : (buildTree table).root = 2 * table.length - 2 := by
  rw [Arena.root, buildTree_active hne, List.headD_cons]

theorem buildTree_active_eq_root : (buildTree table).active = [(buildTree table).root] := by
  rw [buildTree_active hne, buildTree_root hne]

/-- What is left weighs as much as the table. -/
theorem freqAt_root : freqAt (buildTree table).nodes (buildTree table).root = (table.map Prod.snd).sum := by
  have hsum := (treeInv_buildTree hne).sum
  rwa [buildTree_active_eq_root hne, List.map_singleton, List.sum_singleton] at hsum

/-- Below the root every node has been merged, and only once. -/
theorem existsUnique_parent {k : Nat} (hk : k < (buildTree table).root) :
    ∃! p : Nat, ∃ f l r : Nat, (buildTree table).nodes[p]? = some (Node.internal f l r) ∧ (l = k ∨ r = k) := by
  have hinv := treeInv_buildTree hne
  have hbound := hinv.bound _ (buildTree_active_eq_root hne ▸ List.mem_singleton_self _)
  have hinactive : k ∉ (buildTree table).active := by
    rw [buildTree_active_eq_root hne, List.mem_singleton]; exact hk.ne
  obtain ⟨p, f, l, r, hp, hchild⟩ := hinv.some_par k (hk.trans hbound) hinactive
  refine ⟨p, ⟨f, l, r, hp, hchild⟩, ?_⟩
  rintro q ⟨f', l', r', hq, hchild'⟩
  exact hinv.uniq k q f' l' r' p f l r hq hchild' hp hchild

end

/-- With a total that fits 32 bits the arena of held frequencies stands for the unbounded one (41_tree_builder.md R145). -/
theorem value_buildHeld {store : List (Nat × Word)} (hne : store ≠ [])
    (hsum : ((storedTable store).map Prod.snd).sum < 2 ^ 32) :
    (buildHeld store).value = buildTree (storedTable store) := by
  have hlen : (storedTable store).length = store.length := List.length_map _
  rw [buildHeld, buildTree, hlen]
  exact value_mergeHeldTimes store hsum _ (Nat.sub_add_cancel (List.length_pos_of_ne_nil hne)).le

/-- Settles O42: the loop's invariant after N - 1 merges, with one active node. -/
theorem theTreeHasTwiceAsManyNodesLessOne : Obligations.TheTreeHasTwiceAsManyNodesLessOne :=
  fun _ hne => ⟨buildTree_length hne, buildTree_active hne, buildTree_root hne⟩

/-- Settles O43: the loop's invariant after N - 1 merges, and no frequency above the total for the 32-bit form. -/
theorem theTreeKeepsItsShape : Obligations.TheTreeKeepsItsShape := by
  intro table hne
  have hinv := treeInv_buildTree hne
  have hmerges := (Nat.sub_add_cancel (List.length_pos_of_ne_nil hne)).le
  refine ⟨hinv.inner, hinv.leaf, freqAt_root hne, fun k => existsUnique_parent hne, freq_le_total table _ hmerges, ?_⟩
  rintro hsum store rfl
  have hstore : store ≠ [] := by rintro rfl; exact hne rfl
  have hvalue := value_buildHeld hstore (by omega)
  exact ⟨congrArg Arena.nodes hvalue, congrArg Arena.active hvalue⟩

end Sys2Proof.Machine
end

section
/-! The two-queue form of the tree builder: the two heads it merges are the two least active nodes, and a new node never
comes before the internal nodes that wait (41_tree_builder.md R155). -/

namespace Sys2Proof.Machine

/-! ## The two least of a list -/

/-- `a` is a least node of `l`, `b` a least one of the others, and `rest` is what remains. -/
structure TwoLeast (nodes : List Node) (l : List Nat) (a b : Nat) (rest : List Nat) : Prop where
  perm : l.Perm (a :: b :: rest)
  first : ∀ k ∈ b :: rest, NotAfter nodes a k
  second : ∀ k ∈ rest, NotAfter nodes b k

theorem NotAfter.antisymm {nodes : List Node} {j k : Nat} (hjk : NotAfter nodes j k) (hkj : NotAfter nodes k j) :
    j = k := by
  unfold NotAfter at hjk hkj; omega

/-- A list has only one least node. -/
theorem least_unique {nodes : List Node} {a a' : Nat} {l l' : List Nat} (hperm : (a :: l).Perm (a' :: l'))
    (h : ∀ k ∈ l, NotAfter nodes a k) (h' : ∀ k ∈ l', NotAfter nodes a' k) : a = a' := by
  by_contra hne
  have ha' : a' ∈ l := List.mem_of_ne_of_mem (Ne.symm hne) (hperm.mem_iff.2 List.mem_cons_self)
  have ha : a ∈ l' := List.mem_of_ne_of_mem hne (hperm.mem_iff.1 List.mem_cons_self)
  exact hne ((h a' ha').antisymm (h' a ha))

/-- The two least nodes do not depend on the order in which the list holds them. -/
theorem TwoLeast.unique {nodes : List Node} {l l' rest rest' : List Nat} {a a' b b' : Nat} (hperm : l.Perm l')
    (h : TwoLeast nodes l a b rest) (h' : TwoLeast nodes l' a' b' rest') : a = a' ∧ b = b' ∧ rest.Perm rest' := by
  have hall := (h.perm.symm.trans hperm).trans h'.perm
  obtain rfl := least_unique hall h.first h'.first
  have hothers := hall.cons_inv
  obtain rfl := least_unique hothers h.second h'.second
  exact ⟨rfl, rfl, hothers.cons_inv⟩

theorem mergeOnce_twoLeast {t : Arena} (hnodup : t.active.Nodup) (hlen : 2 ≤ t.active.length) : ∃ a b rest,
    mergeOnce t = { nodes := t.nodes ++ [.internal (freqAt t.nodes a + freqAt t.nodes b) a b],
                    active := rest ++ [t.nodes.length] } ∧ TwoLeast t.nodes t.active a b rest := by
  obtain ⟨a, b, rest, hmerge, hperm, hfirst, hsecond⟩ := mergeOnce_spec (nodes := t.nodes) hnodup hlen
  exact ⟨a, b, rest, hmerge, hperm, hfirst, hsecond⟩

/-! ## Queues in order -/

/-- Both queues ascend by key; the indices of the `n` leaves are below those of the internal nodes. -/
structure TwoQueues.Ordered (n : Nat) (q : TwoQueues) : Prop where
  leaves_sorted : SortedByKey q.nodes q.leaves
  inner_sorted : SortedByKey q.nodes q.inner
  leaves_lt : ∀ x ∈ q.leaves, x < n
  le_inner : ∀ y ∈ q.inner, n ≤ y

theorem TwoQueues.Ordered.of_sublist {n : Nat} {q q' : TwoQueues} (h : q.Ordered n) (hnodes : q'.nodes = q.nodes)
    (hleaves : q'.leaves.Sublist q.leaves) (hinner : q'.inner.Sublist q.inner) : q'.Ordered n where
  leaves_sorted := hnodes ▸ h.leaves_sorted.sublist hleaves
  inner_sorted := hnodes ▸ h.inner_sorted.sublist hinner
  leaves_lt x hx := h.leaves_lt x (hleaves.subset hx)
  le_inner y hy := h.le_inner y (hinner.subset hy)

/-- The head taken from ordered queues is the least of both, and the queues stay ordered. -/
theorem takeHead_ordered {n : Nat} {q : TwoQueues} (h : q.Ordered n) (hne : q.leaves ++ q.inner ≠ []) :
    ∃ x q', takeHead q = some (x, q') ∧ q'.nodes = q.nodes ∧ q'.leaves.Sublist q.leaves ∧ q'.inner.Sublist q.inner ∧
      q'.Ordered n ∧ (q.leaves ++ q.inner).Perm (x :: (q'.leaves ++ q'.inner)) ∧
      ∀ y ∈ q'.leaves ++ q'.inner, NotAfter q.nodes x y := by
  obtain ⟨x, q', htake, hnodes, hleaves, hinner, hperm, hleast⟩ := takeHead_spec h.leaves_sorted h.inner_sorted
    (fun x hx y hy => (h.leaves_lt x hx).trans_le (h.le_inner y hy)) hne
  exact ⟨x, q', htake, hnodes, hleaves, hinner, h.of_sublist hnodes hleaves hinner, hperm,
    fun y hy => hleast y (hperm.mem_iff.2 (List.mem_cons_of_mem _ hy))⟩

/-- A merge of the two heads merges the two least nodes of both queues. -/
theorem mergeHeads_twoLeast {n : Nat} {q : TwoQueues} (h : q.Ordered n) (hlen : 2 ≤ (q.leaves ++ q.inner).length) :
    ∃ a b L I, mergeHeads q =
        { nodes := q.nodes ++ [.internal (freqAt q.nodes a + freqAt q.nodes b) a b], leaves := L,
          inner := I ++ [q.nodes.length] } ∧
      L.Sublist q.leaves ∧ I.Sublist q.inner ∧ TwoLeast q.nodes (q.leaves ++ q.inner) a b (L ++ I) := by
  obtain ⟨a, q1, htake1, hnodes1, hleaves1, hinner1, hord1, hperm1, hleast1⟩ :=
    takeHead_ordered h (List.ne_nil_of_length_pos (by omega))
  have hlen1 := hperm1.length_eq
  rw [List.length_cons] at hlen1
  obtain ⟨b, q2, htake2, -, hleaves2, hinner2, -, hperm2, hleast2⟩ :=
    takeHead_ordered hord1 (List.ne_nil_of_length_pos (by omega))
  refine ⟨a, b, q2.leaves, q2.inner, by simp only [mergeHeads, htake1, htake2], hleaves2.trans hleaves1,
    hinner2.trans hinner1, hperm1.trans (hperm2.cons a), fun k hk => hleast1 k (hperm2.mem_iff.2 hk), ?_⟩
  exact hnodes1 ▸ hleast2

/-! ## The queues beside the arena -/

/-- The queues hold the arena's nodes and, in order, its active indices. -/
structure TwoQueues.Matches (n : Nat) (q : TwoQueues) (t : Arena) : Prop where
  nodes_eq : q.nodes = t.nodes
  active : (q.leaves ++ q.inner).Perm t.active
  ordered : q.Ordered n

theorem startQueues_matches (table : List (Nat × Nat)) :
    (startQueues table).Matches table.length (leafArena table) := by
  obtain ⟨hsorted, hperm⟩ := foldr_insertByKey (nodes := (leafArena table).nodes) _
    (List.nodup_range (n := table.length))
  refine ⟨rfl, (List.append_nil _).symm ▸ hperm, hsorted, List.Pairwise.nil, fun x hx => ?_, fun y hy => ?_⟩
  · exact List.mem_range.1 (hperm.mem_iff.1 hx)
  · exact absurd hy List.not_mem_nil

/-- A node appended to the arena changes no order between the nodes before it. -/
theorem SortedByKey.append {nodes : List Node} {l : List Nat} (x : List Node) (h : SortedByKey nodes l)
    (hbound : ∀ k ∈ l, k < nodes.length) : SortedByKey (nodes ++ x) l :=
  List.Pairwise.imp_of_mem (fun {i j} hi hj hij => by
    rw [comesBefore_iff, freqAt_append (hbound i hi), freqAt_append (hbound j hj)]
    exact comesBefore_iff.1 hij) h

/-- The sums never decrease: an internal node that waits was merged from two nodes that weighed no more than any that is
active now, so it weighs no more than the sum of two of these. -/
theorem TreeInv.freqAt_internal_le {table : List (Nat × Nat)} {j : Nat} {t : Arena} (h : TreeInv table j t)
    {y a b : Nat} (hy : table.length ≤ y) (hylt : y < t.nodes.length) (ha : a ∈ t.active) (hb : b ∈ t.active) :
    freqAt t.nodes y ≤ freqAt t.nodes a + freqAt t.nodes b := by
  obtain ⟨node, hnode⟩ : ∃ node, t.nodes[y]? = some node := ⟨_, List.getElem?_eq_getElem hylt⟩
  cases node with
  | leaf s f =>
    have hentry := (h.leaf y s f).1 hnode
    rw [List.getElem?_eq_none hy] at hentry
    cases hentry
  | internal f l r =>
    obtain ⟨-, -, -, hf⟩ := h.inner y f l r hnode
    have hl := (h.mono y f l r hnode a ha).1
    have hr := (h.mono y f l r hnode b hb).2
    have hfreq : freqAt t.nodes y = f := by rw [freqAt, hnode]; rfl
    omega

/-- A merge on both sides takes the same two nodes, and the new node joins the end of its queue. -/
theorem TwoQueues.Matches.merge {table : List (Nat × Nat)} {j : Nat} {q : TwoQueues} {t : Arena}
    (h : q.Matches table.length t) (hinv : TreeInv table j t) (hlen : 2 ≤ t.active.length) :
    (mergeHeads q).Matches table.length (mergeOnce t) := by
  obtain ⟨hnodes, hactive, hord⟩ := h
  obtain ⟨a, b, rest, hmerge, hleast⟩ := mergeOnce_twoLeast hinv.nodup hlen
  obtain ⟨a', b', L, I, hheads, hL, hI, hleast'⟩ := mergeHeads_twoLeast hord (hactive.length_eq ▸ hlen)
  rw [hnodes] at hheads hleast'
  obtain ⟨rfl, rfl, hrest⟩ := hleast'.unique hactive hleast
  have hmem : ∀ k ∈ a' :: b' :: rest, k ∈ t.active := fun k => hleast.perm.mem_iff.2
  have hbound : ∀ k ∈ q.leaves ++ q.inner, k < t.nodes.length := fun k hk => hinv.bound k (hactive.mem_iff.1 hk)
  have hleaves : ∀ k ∈ L, k < t.nodes.length := fun k hk => hbound k (List.mem_append_left _ (hL.subset hk))
  have hinner : ∀ k ∈ I, k < t.nodes.length := fun k hk => hbound k (List.mem_append_right _ (hI.subset hk))
  rw [hmerge, hheads]
  refine ⟨rfl, ?_, ?_, ?_, fun x hx => hord.leaves_lt x (hL.subset hx), ?_⟩
  · rw [← List.append_assoc]; exact hrest.append_right _
  · exact SortedByKey.append _ (hnodes ▸ hord.leaves_sorted.sublist hL) hleaves
  · refine List.pairwise_append.2 ⟨SortedByKey.append _ (hnodes ▸ hord.inner_sorted.sublist hI) hinner,
      List.pairwise_singleton _ _, fun y hy z hz => ?_⟩
    obtain rfl := List.mem_singleton.1 hz
    have hsum := hinv.freqAt_internal_le (hord.le_inner y (hI.subset hy)) (hinner y hy) (hmem a' (by simp))
      (hmem b' (by simp))
    have hlt := hinner y hy
    rw [comesBefore_iff, freqAt_append hlt, freqAt_last, Node.freq]
    omega
  · intro y hy
    rcases List.mem_append.1 hy with hy | hy
    · exact hord.le_inner y (hI.subset hy)
    · rw [List.mem_singleton.1 hy, hinv.len]; omega

/-- After j merges on both sides the queues still match the arena. -/
theorem mergeHeadsTimes_matches (table : List (Nat × Nat)) : ∀ j, j + 1 ≤ table.length →
    (mergeHeadsTimes j (startQueues table)).Matches table.length (mergeTimes j (leafArena table)) := by
  intro j
  induction j with
  | zero => exact fun _ => startQueues_matches table
  | succ j ih =>
    intro hj
    have hinv := treeInv_mergeTimes table j (by omega)
    have hact := hinv.act
    rw [mergeHeadsTimes_succ, mergeTimes_succ]
    exact (ih (by omega)).merge hinv (by omega)

/-- Settles O45: both builders make the same merges, step by step. -/
theorem twoQueuesBuildTheSameTree : Obligations.TwoQueuesBuildTheSameTree := by
  intro table
  cases table with
  | nil => rfl
  | cons e es => exact (mergeHeadsTimes_matches (e :: es) es.length le_rfl).nodes_eq

end Sys2Proof.Machine
end

section
/-! The bit-stream packer: what it emits, counted before it packs (43_bit_packer.md). -/

namespace Sys2Proof.Machine

/-- Settles O49: a weighted sum over the frequency table is the sum over the sequence, so the two lengths agree. -/
theorem theBitCountIsKnownBeforePacking : Obligations.TheBitCountIsKnownBeforePacking :=
  bitCount_freqTable

end Sys2Proof.Machine
end

section
/-! Text symbols: every row of the decoder encodes back to its bytes (30_encoding.md R119..R121). -/

namespace Sys2Proof.Machine

/-! ## The rows of the decoder -/

theorem utf8Enc_codePoint1 {b : Byte} (h : inRange b 0x00 0x7F = true) :
    isScalar b.toNat = true ∧ utf8Enc b.toNat = [b] := by
  rw [inRange_iff] at h
  rw [isScalar_iff, utf8Enc_eq _ (by omega), if_pos h.2, ofNat_eq_of_toNat rfl]
  exact ⟨by omega, rfl⟩

theorem utf8Enc_codePoint2 {b1 b2 : Byte} (h : (inRange b1 0xC2 0xDF && inRange b2 0x80 0xBF) = true) :
    isScalar (codePoint2 b1 b2) = true ∧ utf8Enc (codePoint2 b1 b2) = [b1, b2] := by
  rw [Bool.and_eq_true, inRange_iff, inRange_iff] at h
  rw [codePoint2_eq, isScalar_iff, utf8Enc_eq _ (by omega), if_neg (by omega), if_pos (by omega),
    ofNat_eq_of_toNat (b := b1) (by omega), ofNat_eq_of_toNat (b := b2) (by omega)]
  exact ⟨by omega, rfl⟩

theorem utf8Enc_codePoint3 {b1 b2 b3 : Byte} (h : threeByteRow b1 b2 b3 = true) :
    isScalar (codePoint3 b1 b2 b3) = true ∧ utf8Enc (codePoint3 b1 b2 b3) = [b1, b2, b3] := by
  rw [threeByteRow_iff] at h
  rw [codePoint3_eq, isScalar_iff, utf8Enc_eq _ (by omega), if_neg (by omega), if_neg (by omega), if_pos (by omega),
    ofNat_eq_of_toNat (b := b1) (by omega), ofNat_eq_of_toNat (b := b2) (by omega),
    ofNat_eq_of_toNat (b := b3) (by omega)]
  exact ⟨by omega, rfl⟩

theorem utf8Enc_codePoint4 {b1 b2 b3 b4 : Byte} (h : fourByteRow b1 b2 b3 b4 = true) :
    isScalar (codePoint4 b1 b2 b3 b4) = true ∧ utf8Enc (codePoint4 b1 b2 b3 b4) = [b1, b2, b3, b4] := by
  rw [fourByteRow_iff] at h
  rw [codePoint4_eq, isScalar_iff, utf8Enc_eq _ (by omega), if_neg (by omega), if_neg (by omega), if_neg (by omega),
    ofNat_eq_of_toNat (b := b1) (by omega), ofNat_eq_of_toNat (b := b2) (by omega),
    ofNat_eq_of_toNat (b := b3) (by omega), ofNat_eq_of_toNat (b := b4) (by omega)]
  exact ⟨by omega, rfl⟩

/-! ## Whole texts -/

/-- The decoder has read a scalar value when it has recognised that value's bytes and read what follows them. -/
theorem utf8Dec_of_row {bytes t : List Byte} {cp : Nat} {cps : List Nat}
    (hrow : isScalar cp = true ∧ utf8Enc cp = bytes) (h : (utf8Dec t).map (cp :: ·) = some cps) :
    ∃ c cs u, isScalar c = true ∧ bytes ++ t = utf8Enc c ++ u ∧ utf8Dec u = some cs ∧ cps = c :: cs := by
  obtain ⟨cs, hcs, rfl⟩ := Option.map_eq_some_iff.1 h
  exact ⟨cp, cs, t, hrow.1, by rw [hrow.2], hcs, rfl⟩

/-- A text that decodes begins with the bytes of its first scalar value, whichever row they belong to. -/
theorem utf8Dec_cons_some {b1 : Byte} {t1 : List Byte} {cps : List Nat} (h : utf8Dec (b1 :: t1) = some cps) :
    ∃ c cs u, isScalar c = true ∧ b1 :: t1 = utf8Enc c ++ u ∧ utf8Dec u = some cs ∧ cps = c :: cs := by
  rw [utf8Dec_cons] at h
  split at h
  · exact utf8Dec_of_row (utf8Enc_codePoint1 ‹_›) h
  match t1, h with
  | b2 :: t2, h =>
    simp only at h
    split at h
    · exact utf8Dec_of_row (utf8Enc_codePoint2 ‹_›) h
    match t2, h with
    | b3 :: t3, h =>
      simp only at h
      split at h
      · exact utf8Dec_of_row (utf8Enc_codePoint3 ‹_›) h
      match t3, h with
      | b4 :: t4, h =>
        simp only at h
        split at h
        · exact utf8Dec_of_row (utf8Enc_codePoint4 ‹_›) h
        · cases h

/-- A text that decodes is the encoding of the scalar values read from it (30_encoding.md R120). -/
theorem utf8Dec_sound : ∀ {cps : List Nat} {x : List Byte}, utf8Dec x = some cps →
    (∀ cp ∈ cps, isScalar cp = true) ∧ utf8EncSeq cps = x
  | cps, [], h => by cases (show some [] = some cps by rwa [utf8Dec] at h); exact ⟨by simp, rfl⟩
  | [], b :: t, h => by obtain ⟨_, _, _, _, _, _, hcps⟩ := utf8Dec_cons_some h; cases hcps
  | cp :: cps, b :: t, h => by
    obtain ⟨_, _, u, hscalar, hx, hu, hcps⟩ := utf8Dec_cons_some h
    cases hcps
    obtain ⟨hall, henc⟩ := utf8Dec_sound hu
    exact ⟨List.forall_mem_cons.2 ⟨hscalar, hall⟩, by rw [hx, ← henc]; rfl⟩

end Sys2Proof.Machine
end

section
/-! The codeword table of a symbol sequence: one entry for each symbol, none empty or too long, none beginning
another (42_codeword_table.md R180..R183). -/

namespace Sys2Proof.Machine

/-! ## The codewords of a whole tree -/

/-- The table of a whole tree; the sole symbol of a one-leaf tree gets [0] (42_codeword_table.md R180, R181). -/
def BinTree.entries : BinTree → List Entry
  | .leaf s _ => [{ sym := s, cw := [false] }]
  | .node l r => (BinTree.node l r).codes []

theorem BinTree.entries_sym (t : BinTree) : t.entries.map Entry.sym = t.leaves.map Prod.fst := by
  cases t with
  | leaf s f => rfl
  | node l r => exact codes_sym _ _

theorem BinTree.entries_prefixFree (t : BinTree) :
    t.entries.Pairwise (fun e f => ¬e.cw <+: f.cw ∧ ¬f.cw <+: e.cw) := by
  cases t with
  | leaf s f => exact List.pairwise_singleton _ _
  | node l r => exact codes_free _ _

/-- Below an inner node every path takes at least one step. -/
theorem BinTree.entries_cw_ne_nil {t : BinTree} {e : Entry} (he : e ∈ t.entries) : e.cw ≠ [] := by
  cases t with
  | leaf s f => cases List.mem_singleton.1 he; exact List.cons_ne_nil _ _
  | node l r =>
    obtain he | he := List.mem_append.1 he
    · exact (codes_prefix l _ e he).1.ne_nil (List.cons_ne_nil _ _)
    · exact (codes_prefix r _ e he).1.ne_nil (List.cons_ne_nil _ _)

/-- The generator lists the table of the tree the root stands for. -/
theorem Stands.treeCodewords {nodes : List Node} {k : Nat} {t : BinTree} (h : Stands nodes k t) :
    treeCodewords nodes k = t.entries := by
  have hwalk := h.walk nodes.length h.lt []
  cases h with
  | leaf hk => simp only [Machine.treeCodewords, hk, BinTree.entries]
  | node hk _ _ _ _ _ => simp only [Machine.treeCodewords, hk, hwalk, BinTree.entries]

/-- The root of a non-empty table's arena stands for a tree with the table's symbols at its leaves. -/
theorem stands_root {table : List (Nat × Nat)} (hne : table ≠ []) :
    ∃ t, Stands (buildTree table).nodes (buildTree table).root t ∧ t.leaves.Perm table := by
  obtain ⟨F, hF, hperm⟩ := forest_mergeTimes table _ (Nat.sub_add_cancel (List.length_pos_of_ne_nil hne)).le
  rw [← buildTree] at hF hperm
  rw [buildTree_active_eq_root hne] at hF hperm
  exact ⟨_, (hF _ (List.mem_singleton_self _)).1, by simpa using hperm⟩

/-- What the generator gives for a table, empty or not. -/
theorem codewordTable_ok {table : List (Nat × Nat)} {cw : List Entry} (h : codewordTable table = .ok cw) :
    (cw.map Entry.sym).Perm (table.map Prod.fst) ∧ (∀ e ∈ cw, 1 ≤ e.cw.length ∧ e.cw.length ≤ 255) ∧
      cw.Pairwise (fun e f => ¬e.cw <+: f.cw ∧ ¬f.cw <+: e.cw) := by
  by_cases hne : table = []
  · subst hne
    cases h
    simp
  · rw [codewordTable_of_ne_nil hne] at h
    obtain ⟨rfl, hlen⟩ := deriveCodewords_ok h
    obtain ⟨t, hstands, hleaves⟩ := stands_root hne
    rw [hstands.treeCodewords] at hlen ⊢
    refine ⟨t.entries_sym ▸ hleaves.map _, fun e he => ⟨?_, hlen e he⟩, t.entries_prefixFree⟩
    exact List.length_pos_of_ne_nil (BinTree.entries_cw_ne_nil he)

/-! ## The table of a symbol sequence -/

/-- The frequency table has exactly the symbols that occur (41_tree_builder.md R144). -/
theorem mem_freqTable_fst {syms : List Nat} {s : Nat} : s ∈ (freqTable syms).map Prod.fst ↔ s ∈ syms := by
  obtain ⟨hascending, hcount, _⟩ := freqTable_spec syms
  rw [← List.count_pos_iff (l := syms), ← hcount]
  constructor
  · intro hs
    obtain ⟨⟨_, f⟩, he, rfl⟩ := List.mem_map.1 hs
    rw [countIn_of_mem hascending he]
    exact freqTable_pos syms _ he
  · intro hpos
    exact List.mem_map_of_mem (mem_of_countIn hpos.ne')

/-- CW is a code for the sequence: valid in the parser's sense, with one codeword of 1 to 255 bits for each symbol. -/
structure CodeFor (syms : List Nat) (cw : List Entry) : Prop where
  valid : tableValid cw = true
  cw_length : ∀ e ∈ cw, 1 ≤ e.cw.length ∧ e.cw.length ≤ 255
  mem_iff : ∀ s, s ∈ cw.map Entry.sym ↔ s ∈ syms
  length : cw.length = (freqTable syms).length

theorem codeFor_of_codewordTable {syms : List Nat} {cw : List Entry} (h : codewordTable (freqTable syms) = .ok cw) :
    CodeFor syms cw := by
  obtain ⟨hperm, hlen, hfree⟩ := codewordTable_ok h
  have hnodup : ((freqTable syms).map Prod.fst).Nodup :=
    List.pairwise_map.2 ((freqTable_spec syms).1.imp fun hlt => hlt.ne)
  have hdistinct : cw.Pairwise (fun e f => e.sym ≠ f.sym) := List.pairwise_map.1 (hperm.nodup_iff.2 hnodup)
  exact
    { valid := tableValid_iff.2 (hdistinct.and hfree)
      cw_length := hlen
      mem_iff := fun s => hperm.mem_iff.trans mem_freqTable_fst
      length := by simpa using hperm.length_eq }

end Sys2Proof.Machine
end

section
/-! The fields of a container: what the parser reads of the bytes a serializer has put together (30_encoding.md R110..R114). -/

namespace Sys2Proof.Machine

theorem be32_length (n : Nat) : (be32 n).length = 4 := rfl

/-- A number of 32 bits reads back from its four bytes (00_scope.md R8). -/
theorem be32Inv_be32 {n : Nat} (h : n < 2 ^ 32) : be32Inv (be32 n) = n := by
  simp only [be32, be32Inv, List.foldl_cons, List.foldl_nil, BitVec.toNat_ofNat]
  omega

/-! ## The table -/

section
variable {d : DataType}

/-- One pass of the parser's loop takes one serialized entry and leaves what follows it. -/
theorem parseEntry_entryBytes {e : Entry} (h : EntryOk d e) (t : List Byte) :
    parseEntry d (entryBytes d e ++ t) = some (e, t) := by
  obtain ⟨hlenOk, hsymLen, hread⟩ := symBytes_spec h
  obtain ⟨hpos, hmax, _⟩ := h
  have hsl := toNat_ofNat_byte (show (symBytes d e.sym).length < 256 by omega)
  have hcl := toNat_ofNat_byte (show e.cw.length < 256 by omega)
  have hbytes : entryBytes d e ++ t = BitVec.ofNat 8 (symBytes d e.sym).length ::
      (symBytes d e.sym ++ BitVec.ofNat 8 e.cw.length :: (packBits e.cw ++ t)) := by
    simp [entryBytes]
  have hcw : (unpackBits (packBits e.cw)).take e.cw.length = e.cw := by
    rw [packBits, unpack_packBytes _ _ (le_ceil8 _), List.take_left']
    rfl
  rw [hbytes]
  simp only [parseEntry, hsl, hlenOk, hread, hcl, List.take_left, List.drop_left, ← packBits_length e.cw, hcw]
  rw [if_neg (by simp), if_neg (by simp), if_neg (by omega), if_neg (by simp)]

theorem entryBytes_ne_nil (e : Entry) : entryBytes d e ≠ [] := by
  simp [entryBytes]

/-- The parser's loop with at least as many passes as there are bytes reads every serialized entry. -/
theorem parseEntries_entryBytes : ∀ {es : List Entry} {n : Nat}, (∀ e ∈ es, EntryOk d e) →
    (es.flatMap (entryBytes d)).length ≤ n → parseEntries d n (es.flatMap (entryBytes d)) = some es
  | [], _, _, _ => by simp [parseEntries]
  | e :: es, n, hes, hn => by
    obtain ⟨he, hes⟩ := List.forall_mem_cons.1 hes
    obtain ⟨b, t, hbt⟩ := List.exists_cons_of_ne_nil (entryBytes_ne_nil (d := d) e)
    have hentry := parseEntry_entryBytes he (es.flatMap (entryBytes d))
    rw [List.flatMap_cons, hbt, List.cons_append] at hn
    rw [List.flatMap_cons]
    rw [hbt, List.cons_append] at hentry ⊢
    cases n with
    | zero => simp at hn
    | succ n =>
      rw [List.length_cons, List.length_append] at hn
      rw [parseEntries, hentry]
      simp only [parseEntries_entryBytes hes (n := n) (by omega), Option.map_some]

/-- The parser reads back the table the serializer writes (45_container.md R241, R255). -/
theorem parseTable_serializeTable {cw : List Entry} (h : ∀ e ∈ cw, EntryOk d e) :
    parseTable d (serializeTable d cw) = some (sortBySym cw) :=
  parseEntries_entryBytes (fun e he => h e ((sortBySym_perm cw).mem_iff.1 he)) le_rfl

/-- A serialized table takes at most 2 + 4 + 32 bytes an entry (45_container.md R242). -/
theorem serializeTable_length_le {cw : List Entry} (h : ∀ e ∈ cw, EntryOk d e) :
    (serializeTable d cw).length ≤ 38 * cw.length := by
  rw [← (sortBySym_perm cw).length_eq]
  exact flatMap_entryBytes_length_le _ fun e he => h e ((sortBySym_perm cw).mem_iff.1 he)

end

/-! ## The container -/

section
variable {d : DataType} {table payload : List Byte} {b : Nat}

theorem serializeContainer_eq_cons (d : DataType) (table payload : List Byte) (b : Nat) :
    serializeContainer d table b payload = tagByte d :: (be32 table.length ++ (table ++ (be32 b ++ payload))) := by
  simp [serializeContainer]

theorem tableLenOf_serializeContainer (h : table.length < 2 ^ 32) :
    tableLenOf (serializeContainer d table b payload) = table.length := by
  rw [serializeContainer_eq_cons]
  exact be32Inv_be32 h

theorem slice_table_serializeContainer :
    slice (serializeContainer d table b payload) 5 (5 + table.length) = table := by
  rw [serializeContainer_eq_cons, slice, Nat.add_sub_cancel_left]
  exact List.take_left

theorem drop_table_serializeContainer (d : DataType) (table payload : List Byte) (b : Nat) :
    (serializeContainer d table b payload).drop (5 + table.length) = be32 b ++ payload := by
  rw [serializeContainer_eq_cons, ← List.drop_drop]
  exact List.drop_left

theorem bitLenOf_serializeContainer (h : b < 2 ^ 32) :
    bitLenOf (serializeContainer d table b payload) table.length = b := by
  rw [bitLenOf, slice, drop_table_serializeContainer, show 9 + table.length - (5 + table.length) = 4 by omega]
  exact be32Inv_be32 h

theorem drop_payload_serializeContainer :
    (serializeContainer d table b payload).drop (9 + table.length) = payload := by
  rw [show 9 + table.length = 5 + table.length + 4 by omega, ← List.drop_drop, drop_table_serializeContainer]
  rfl

end

/-- A serialized container parses to the table in ascending order, B and the payload (45_container.md R240, R250). -/
theorem parseContainer_serializeContainer {m : Nat} {d : DataType} {cw : List Entry} {bits : BitString}
    (hentries : ∀ e ∈ cw, EntryOk d e) (hvalid : tableValid cw = true) (hm : cw.length ≤ m)
    (htable : (serializeTable d cw).length < 2 ^ 32) (hbits : bits.length < 2 ^ 32) :
    parseContainer m (serializeContainer d (serializeTable d cw) bits.length (packBits bits)) =
      .ok
        { tag := d, entries := sortBySym cw, inv := inverseTable (sortBySym cw),
          tableLen := (serializeTable d cw).length, payloadBits := bits.length, payload := packBits bits } := by
  have hlen := serializeContainer_length d (serializeTable d cw) bits.length bits
  have hperm := sortBySym_perm cw
  have hsorted := tableValid_perm hperm.symm hvalid
  have hfields : parseContainer m (serializeContainer d (serializeTable d cw) bits.length (packBits bits)) =
      parseFields m d (serializeContainer d (serializeTable d cw) bits.length (packBits bits)) := by
    rw [serializeContainer_eq_cons, parseContainer, tagOf_tagByte]
  rw [hfields, parseFields, tableLenOf_serializeContainer htable, slice_table_serializeContainer,
    parseTable_serializeTable hentries, bitLenOf_serializeContainer hbits, drop_payload_serializeContainer]
  simp only [hlen, hperm.length_eq, hsorted]
  rw [if_neg (by omega), if_neg (by omega), if_neg (by omega), if_neg (by omega), if_neg (by omega), if_neg (by omega),
    if_neg (by simp)]

/-! ## The length of a container that parses -/

theorem tableLenOf_append {c : List Byte} (extra : List Byte) (h : 5 ≤ c.length) :
    tableLenOf (c ++ extra) = tableLenOf c := by
  rw [tableLenOf, slice_append _ _ _ _ h, tableLenOf]

theorem bitLenOf_append {c : List Byte} {n : Nat} (extra : List Byte) (h : 9 + n ≤ c.length) :
    bitLenOf (c ++ extra) n = bitLenOf c n := by
  rw [bitLenOf, slice_append _ _ _ _ h, bitLenOf]

/-- Settles O54: the parser compares the length with both sides, and bytes behind the payload change no field before it. -/
theorem aContainerHasItsExactLength : Obligations.AContainerHasItsExactLength := by
  constructor
  · intro m c p h
    obtain ⟨_, _, _, _, _, _, _, hlen, _, _, rfl⟩ := parseContainer_ok h
    refine ⟨hlen, ?_⟩
    rw [List.length_drop, hlen, Nat.add_sub_cancel_left, ceil8]
  · intro m m' c extra p h hextra
    obtain ⟨t, rest, tag, entries, rfl, htag, htable, hlen, _⟩ := parseContainer_ok h
    have hpos := List.length_pos_of_ne_nil hextra
    have htableLen := tableLenOf_append (c := t :: rest) extra (by omega)
    have hbitLen := bitLenOf_append (c := t :: rest) (n := tableLenOf (t :: rest)) extra (by omega)
    refine parseContainer_long (rest := rest ++ extra) htag entries ?_ ?_ <;> rw [← List.cons_append, htableLen]
    · rw [slice_append _ _ _ _ (by omega), htable]
    · rw [hbitLen, List.length_append]
      omega

end Sys2Proof.Machine
end

section
/-! COMPRESS and DECOMPRESS as functions of bytes: the container is determined by the data type and the source, fits its
fields, and decompresses to the source (45_container.md R242, R264, R265). -/

namespace Sys2Proof.Machine

/-! ## Symbols and bits -/

/-- The symbols of a source belong to its data type, and reassembling them gives the source (45_container.md R263). -/
theorem symbolize_ok {d : DataType} {x : List Byte} {syms : List Nat} (h : symbolize d x = .ok syms) :
    (∀ s ∈ syms, (d = .binary → s < 256) ∧ (d = .text → isScalar s = true)) ∧ reassemble d syms = x := by
  cases d with
  | binary =>
    cases h
    refine ⟨fun s hs => ⟨fun _ => ?_, nofun⟩, by simp [reassemble, Function.comp_def]⟩
    obtain ⟨b, _, rfl⟩ := List.mem_map.1 hs
    exact b.isLt
  | text =>
    cases hdec : utf8Dec x with
    | none => simp [symbolize, hdec] at h
    | some cps =>
      obtain rfl : cps = syms := by simpa [symbolize, hdec] using h
      obtain ⟨hscalar, henc⟩ := utf8Dec_sound hdec
      exact ⟨fun s hs => ⟨nofun, fun _ => hscalar s hs⟩, henc⟩

/-- The greedy walk over a reordering of the table gives back the symbols packed with it (44_bit_unpacker.md R220, R221). -/
theorem matchBits_codeBits {cw es : List Entry} (hperm : es.Perm cw) (hvalid : tableValid cw = true)
    (hne : ∀ e ∈ cw, e.cw ≠ []) : ∀ {syms : List Nat}, (∀ s ∈ syms, s ∈ cw.map Entry.sym) →
      matchBits (inverseTable es) (codeBits syms cw) [] = some syms
  | [], _ => by simp [codeBits, matchBits]
  | s :: syms, hsyms => by
    obtain ⟨hs, hrest⟩ := List.forall_mem_cons.1 hsyms
    obtain ⟨e, he, rfl⟩ := List.mem_map.1 hs
    have hbits : codeBits (e.sym :: syms) cw = e.cw ++ codeBits syms cw := by
      rw [codeBits, List.flatMap_cons, codewordOf_mem hvalid he, codeBits]
    rw [hbits, matchBits_codeword (tableValid_perm hperm.symm hvalid) (hperm.mem_iff.2 he) _ e.cw [] (hne e he) rfl,
      matchBits_codeBits hperm hvalid hne hrest, Option.map_some]

theorem unpack_packBits {inv : List (BitString × Nat)} {bits : BitString} {syms : List Nat}
    (h : matchBits inv bits [] = some syms) : unpack (packBits bits) bits.length inv = .ok syms := by
  have hbits : (unpackBits (packBits bits)).take bits.length = bits := by
    rw [packBits, unpack_packBytes _ _ (le_ceil8 _)]
    exact List.take_left
  rw [unpack, hbits, h]

/-! ## What a successful COMPRESS has made -/

/-- COMPRESS makes the container of a code for the source's symbols, with entries its table can hold. -/
theorem compressBytes_code {m cap : Nat} {d : DataType} {x : List Byte} {r : Success}
    (h : compressBytes m d x cap = .ok r) : ∃ syms cw, reassemble d syms = x ∧ CodeFor syms cw ∧
      (∀ e ∈ cw, EntryOk d e) ∧ cw.length ≤ m ∧ (codeBits syms cw).length < 2 ^ 32 ∧
      r =
        { out := serializeContainer d (serializeTable d cw) (codeBits syms cw).length (packBits (codeBits syms cw)),
          symCount := syms.length, distinct := cw.length, tableLen := (serializeTable d cw).length,
          payloadBits := (codeBits syms cw).length } := by
  obtain ⟨syms, cw, hsyms, hdistinct, htable, hbits, _, rfl⟩ := compressBytes_ok h
  obtain ⟨htype, hx⟩ := symbolize_ok hsyms
  have hcode := codeFor_of_codewordTable htable
  rw [bitCount_freqTable] at hbits
  refine ⟨syms, cw, hx, hcode, fun e he => ?_, hcode.length ▸ hdistinct, by omega, ?_⟩
  · obtain ⟨hpos, hmax⟩ := hcode.cw_length e he
    exact ⟨hpos, hmax, htype e.sym ((hcode.mem_iff _).1 (List.mem_map_of_mem he))⟩
  · rw [bitCount_freqTable, hcode.length]

/-- Settles O56: every entry has at most 38 bytes, and there are at most P_MAX_DISTINCT of them. -/
theorem theContainerFitsItsFields : Obligations.TheContainerFitsItsFields := by
  intro m cap d x r hm h
  have hcap := compressBytes_fits h
  obtain ⟨syms, cw, _, _, hentries, hdistinct, hbits, rfl⟩ := compressBytes_code h
  have htable := serializeTable_length_le hentries
  have hlen := serializeContainer_length d (serializeTable d cw) (codeBits syms cw).length (codeBits syms cw)
  simp only [ceil8] at hlen hcap ⊢
  exact ⟨by omega, by omega, hbits, hlen, by omega, hcap⟩

/-- Neither P_MAX_DISTINCT nor the capacity reaches a container that is made (45_container.md R265). -/
theorem compressBytes_unique {m m' cap cap' : Nat} {d : DataType} {x : List Byte} {r r' : Success}
    (h : compressBytes m d x cap = .ok r) (h' : compressBytes m' d x cap' = .ok r') : r = r' := by
  obtain ⟨syms, cw, hsyms, _, htable, _, _, rfl⟩ := compressBytes_ok h
  obtain ⟨syms', cw', hsyms', _, htable', _, _, rfl⟩ := compressBytes_ok h'
  cases hsyms.symm.trans hsyms'
  cases htable.symm.trans htable'
  rfl

/-- DECOMPRESS of what COMPRESS makes of `x` makes `x` (45_container.md R264). -/
theorem decompressBytes_compressBytes {m cap cap' : Nat} {d : DataType} {x : List Byte} {r : Success} (hm : m ≤ 2 ^ 20)
    (h : compressBytes m d x cap = .ok r) (hcap : x.length ≤ cap') :
    decompressBytes m r.out cap' =
      .ok { out := x, symCount := r.symCount, distinct := r.distinct, tableLen := r.tableLen,
            payloadBits := r.payloadBits } := by
  obtain ⟨syms, cw, rfl, hcode, hentries, hdistinct, hbits, rfl⟩ := compressBytes_code h
  have hperm := sortBySym_perm cw
  have htable := serializeTable_length_le hentries
  have hne : ∀ e ∈ cw, e.cw ≠ [] := fun e he => List.ne_nil_of_length_pos (hcode.cw_length e he).1
  have hwalk := matchBits_codeBits hperm hcode.valid hne fun s hs => (hcode.mem_iff s).2 hs
  rw [decompressBytes, parseContainer_serializeContainer hentries hcode.valid hdistinct (by omega) hbits]
  simp only [unpack_packBits hwalk, hperm.length_eq]
  rw [if_neg (Nat.not_lt.2 hcap)]

end Sys2Proof.Machine
end

section
/-! COMPRESS and DECOMPRESS on the machine: the same source gives the same container, and a DECOMPRESS of it gives the
source back (45_container.md R264, R265). -/

namespace Sys2Proof.Machine

/-- A COMPRESS that reports no error has made the container of its source, and left it at its destination. -/
theorem coreStep_compress_ok {s : State} (hop : s.lat.op = .compress) (h : (coreStep s).regs.errCode = .none) :
    ∃ d r, dtypeOf s.lat.dtype = some d ∧
      compressBytes s.plat.maxDistinct d (s.mem.readAll s.lat.srcAddr.toNat s.lat.srcLen.toNat) s.lat.dstCap.toNat = .ok r ∧
      (coreStep s).regs.resultLen.toNat = r.out.length ∧
      (coreStep s).mem = s.mem.writeAll s.lat.dstAddr.toNat r.out := by
  obtain ⟨r, hr⟩ := commandResult_ok_of_errCode h
  have hresult : compressResult s = .ok r := by rwa [commandResult, hop] at hr
  obtain ⟨d, hd, _, hbytes⟩ := compressResult_ok hresult
  exact ⟨d, r, hd, hbytes, coreStep_resultLen_of_ok hr, coreStep_mem_of_ok hr⟩

/-- A DECOMPRESS that passes its range checks comes to what its source bytes stand for. -/
theorem commandResult_decompress {s : State} (hop : s.lat.op = .decompress) (hranges : rangeError s.plat s.lat = none) :
    commandResult s = decompressBytes s.plat.maxDistinct
      (s.mem.readAll s.lat.srcAddr.toNat s.lat.srcLen.toNat) s.lat.dstCap.toNat := by
  simp only [commandResult, hop, decompressResult, hranges]

/-- Settles O58: both commands make the same container, and each writes it at its own destination. -/
theorem compressionIsDeterministic : Obligations.CompressionIsDeterministic := by
  intro s s' hbusy hwait hbusy' hwait' hop hop' hdtype hsource
  refine ⟨coreStep s, coreStep s', step_core hbusy hwait, step_core hbusy' hwait', fun hok hok' => ?_⟩
  obtain ⟨d, r, hd, hr, hlen, hmem⟩ := coreStep_compress_ok hop hok
  obtain ⟨d', r', hd', hr', hlen', hmem'⟩ := coreStep_compress_ok hop' hok'
  rw [← hdtype, hd] at hd'
  cases hd'
  rw [← hsource] at hr'
  cases compressBytes_unique hr hr'
  refine ⟨BitVec.eq_of_toNat_eq (hlen.trans hlen'.symm), fun i hi => ?_⟩
  rw [hlen] at hi
  rw [hmem, hmem']
  exact ((writeAll_spec ..).1 i hi).trans ((writeAll_spec ..).1 i hi).symm

/-- Settles O60: the second command's source is the container the first has written, and that decompresses to its source. -/
theorem theMachineRoundTrips : Obligations.TheMachineRoundTrips := by
  intro s u s' hbusy hwait hop hlegal hstep hok hbusy' hwait' hop' hplat hsource hranges hcap
  cases hstep.symm.trans (step_core hbusy hwait)
  obtain ⟨d, r, _, hr, hlen, hmem⟩ := coreStep_compress_ok hop hok
  have hm : s.plat.maxDistinct ≤ 2 ^ 20 := by
    rw [Platform.legal, Bool.and_eq_true, decide_eq_true_eq, decide_eq_true_eq] at hlegal
    exact hlegal.2
  rw [hlen, hmem, readAll_writeAll] at hsource
  have hbytes := decompressBytes_compressBytes hm hr ((Memory.length_readAll ..).trans_le hcap)
  have hresult := commandResult_decompress hop' hranges
  rw [hplat, hsource, hbytes] at hresult
  have hregs := coreStep_regs_of_ok hresult
  refine ⟨coreStep s', step_core hbusy' hwait', by rw [hregs]; rfl, by rw [hregs]; rfl, ?_, ?_⟩
  · rw [← BitVec.toNat_inj, coreStep_resultLen_of_ok hresult, Memory.length_readAll]
  · rw [coreStep_mem_of_ok hresult]
    exact (writeAll_spec ..).1

end Sys2Proof.Machine
end

section
/-! A command word and its effect: the dispatch of a write to CMD by OP and phase (46_commands.md R280..R285). -/

namespace Sys2Proof.Machine

/-! ## The dispatch -/

/-- The decoder reads OP and nothing else of the word (30_encoding.md R101). -/
theorem opcode_decodeWord (v : Word) : opcode (decodeWord v) = v.extractLsb' 0 4 := by
  refine BitVec.eq_of_getLsbD_eq fun i hi => ?_
  rw [BitVec.getLsbD_extractLsb', decide_eq_true hi, Bool.true_and, Nat.zero_add]
  unfold decodeWord
  split
  all_goals interval_cases i <;> simp only [opcode, *] <;> decide

/-- What a command does, by its OP and the phase it finds (46_commands.md R280). -/
theorem exec_dispatch (i : Instr) (s : State) : exec i s =
    if opcode i = 0xF#4 then .next (resetCore s)
    else if opcode i = 0x0#4 then .next s
    else if s.phase = .busy then .next (ignoreCommand s)
    else if opcode i = 0x1#4 then .next (start .compress s)
    else if opcode i = 0x2#4 then .next (start .decompress s)
    else .next (fail .illegalCommand { s with regs := clearResults s.regs }) := by
  cases i with
  | nop g => rfl
  | softReset g => rfl
  | compress g => cases h : s.phase <;> simp [exec, execCompress, opcode, h]
  | decompress g => cases h : s.phase <;> simp [exec, execDecompress, opcode, h]
  | _ g =>
    -- the twelve reserved commands have one meaning
    change Host.Outcome.next (illegalCommand s) = _
    cases h : s.phase <;> simp [illegalCommand, opcode, h]

section
variable {i : Instr} {s : State}

theorem exec_of_busy (hbusy : s.phase = .busy) (hreset : opcode i ≠ 0xF#4) (hnop : opcode i ≠ 0x0#4) :
    exec i s = .next (ignoreCommand s) := by
  rw [exec_dispatch, if_neg hreset, if_neg hnop, if_pos hbusy]

theorem exec_compress_of_idle (g : BitVec 28) (hidle : s.phase = .idle) :
    exec (.compress g) s = .next (start .compress s) := by
  simp [exec_dispatch, opcode, hidle]

theorem exec_decompress_of_idle (g : BitVec 28) (hidle : s.phase = .idle) :
    exec (.decompress g) s = .next (start .decompress s) := by
  simp [exec_dispatch, opcode, hidle]

theorem exec_reserved_of_idle (hidle : s.phase = .idle) (h : opcode i ∉ [0xF#4, 0x0#4, 0x1#4, 0x2#4]) :
    exec i s = .next (fail .illegalCommand { s with regs := clearResults s.regs }) := by
  simp only [List.mem_cons, List.not_mem_nil, or_false, not_or] at h
  obtain ⟨hreset, hnop, hcompress, hdecompress⟩ := h
  rw [exec_dispatch, if_neg hreset, if_neg hnop, if_neg (by simp [hidle]), if_neg hcompress, if_neg hdecompress]

end

/-- Settles O3: OP is what the decoder reads, and `exec` goes by it. -/
theorem cmdWritesDispatchByOpAndPhase : Obligations.CmdWritesDispatchByOpAndPhase := by
  intro v s
  rw [← opcode_decodeWord]
  exact exec_dispatch _ s

/-- Settles O5: of the sixteen commands only NOP has OP 0. -/
theorem nopLeavesAllStateUnchanged : Obligations.NopLeavesAllStateUnchanged := by
  intro v s hop
  rw [← opcode_decodeWord] at hop
  cases hi : decodeWord v with
  | nop g => exact ⟨⟨g, rfl⟩, rfl⟩
  | _ g => simp [hi, opcode] at hop

/-- Settles O6: in IDLE a reserved OP fails from cleared results. -/
theorem reservedOpcodesFailWithIllegalCommand : Obligations.ReservedOpcodesFailWithIllegalCommand := by
  intro g s hidle i hi
  have hop : opcode i ∉ [0xF#4, 0x0#4, 0x1#4, 0x2#4] := by revert i; simp [opcode]
  rw [exec_reserved_of_idle hidle hop]
  simp only [fail, clearResults, hidle]

/-- Settles O7: none of these commands is NOP or SOFT_RESET. -/
theorem commandsAreDroppedWhileBusy : Obligations.CommandsAreDroppedWhileBusy := by
  intro g s hbusy i hi
  obtain ⟨hreset, hnop⟩ : opcode i ≠ 0xF#4 ∧ opcode i ≠ 0x0#4 := by revert i; simp [opcode]
  exact exec_of_busy hbusy hreset hnop

/-! ## The start -/

theorem irqLevel_clearResults (r : Regs) : irqLevel (clearResults r) = false := rfl

/-- Settles O9: both commands reach `start` in IDLE. -/
theorem startLatchesTheOperands : Obligations.StartLatchesTheOperands := by
  intro g s hidle c hc
  have hstart : exec c.1 s = .next (start c.2 s) := by
    obtain rfl | rfl : c = (.compress g, .compress) ∨ c = (.decompress g, .decompress) := by simpa using hc
    · exact exec_compress_of_idle g hidle
    · exact exec_decompress_of_idle g hidle
  exact ⟨start c.2 s, hstart, start_phase s c.2, start_lat s c.2, start_regs s c.2, irqLevel_clearResults s.regs,
    start_mem s c.2, start_plat s c.2, start_queue s c.2, start_replies s c.2⟩

end Sys2Proof.Machine
end

section
/-! The end of a command: whole or with nothing, the empty source of COMPRESS, and MODE in DECOMPRESS
(46_commands.md R293, R301, R302). -/

namespace Sys2Proof.Machine

/-- Every command ends in IDLE (60_exceptions.md R330, R331). -/
@[simp] theorem coreStep_phase (s : State) : (coreStep s).phase = .idle := by
  obtain ⟨_, _, h⟩ | ⟨_, _, h⟩ | ⟨_, _, _, _, h⟩ := coreStep_cases s <;> simp [h]

/-- Settles O17: the result of the command decides between the two ends. -/
theorem commandsAreAllOrNothing : Obligations.CommandsAreAllOrNothing := by
  intro s hbusy hwait hnoResult herr
  refine ⟨coreStep s, step_core hbusy hwait, coreStep_phase s, ?_⟩
  cases hr : commandResult s with
  | ok r =>
    rw [coreStep_regs_of_ok hr, coreStep_mem_of_ok hr]
    exact .inl ⟨rfl, herr, rfl, r, commandResult_eq_iff.1 hr, rfl, (writeAll_spec ..).1⟩
  | error e =>
    rw [coreStep_regs_of_error hr]
    exact .inr ⟨rfl, rfl, (error_code_ne (commandResult_eq_iff.1 hr)).1, hnoResult⟩

/-! ## The empty source -/

/-- The nine bytes of the empty container, with every count 0 (46_commands.md R293). -/
def emptyContainer (d : DataType) : Success :=
  { out := [tagByte d, 0, 0, 0, 0, 0, 0, 0, 0], symCount := 0, distinct := 0, tableLen := 0, payloadBits := 0 }

/-- An empty source has no symbols, an empty table and no bits. -/
theorem compressBytes_nil (m : Nat) (d : DataType) {cap : Nat} (hcap : 9 ≤ cap) :
    compressBytes m d [] cap = .ok (emptyContainer d) := by
  have hsymbols : symbolize d [] = .ok [] := by cases d <;> rfl
  have hcounted : countFreq m [] = .ok [] := rfl
  have hcodewords : codewordTable [] = .ok [] := rfl
  have hbits : bitCount [] [] = 0 := rfl
  have htable : serializeTable d [] = [] := rfl
  have hpack : pack [] [] = .ok (0, []) := rfl
  simp only [compressBytes, hsymbols, hcounted, compressCounted, hcodewords, htable, hbits, hpack, List.length_nil]
  rw [if_neg (by decide), if_neg (show ¬cap < containerLen 0 0 from Nat.not_lt.2 hcap)]
  rfl

/-- An empty source range is valid and overlaps nothing (20_memory.md R72, R73). -/
theorem rangeError_of_srcLen_eq_zero {p : Platform} {l : Latched} (hsrc : l.srcLen = 0)
    (hdst : rangeOk p l.dstAddr.toNat l.dstCap.toNat = true) : rangeError p l = none := by
  rw [rangeError_none, hsrc]
  exact ⟨rfl, hdst, rfl⟩

/-- Settles O13: an empty source passes every check and leaves the nine bytes at the destination. -/
theorem emptyInputGivesTheNineByteContainer : Obligations.EmptyInputGivesTheNineByteContainer := by
  intro s d hbusy hwait hop hd hsrc hdst hcap
  have hempty : s.mem.readAll s.lat.srcAddr.toNat s.lat.srcLen.toNat = [] := by rw [hsrc]; rfl
  have hresult : commandResult s = .ok (emptyContainer d) := by
    simp only [commandResult, hop, compressResult, hd, rangeError_of_srcLen_eq_zero hsrc hdst, hempty,
      compressBytes_nil _ d hcap]
  obtain ⟨hbytes, houtside⟩ := writeAll_spec s.mem s.lat.dstAddr.toNat (emptyContainer d).out
  rw [← coreStep_mem_of_ok hresult] at hbytes houtside
  exact ⟨coreStep s, step_core hbusy hwait, hbytes, houtside, coreStep_regs_of_ok hresult, coreStep_phase s⟩

/-! ## MODE -/

/-- The state with MODE and the latched data type replaced. -/
def withMode (m d : BitVec 2) (s : State) : State :=
  { s with regs := { s.regs with mode := m }, lat := { s.lat with dtype := d } }

theorem decompressResult_withMode (m d : BitVec 2) (s : State) :
    decompressResult (withMode m d s) = decompressResult s := rfl

/-- A DECOMPRESS leaves MODE as it is and everything else as it would with any other (46_commands.md R301). -/
theorem coreStep_withMode {s : State} (m d : BitVec 2) (hop : s.lat.op = .decompress) :
    coreStep (withMode m d s) = { coreStep s with regs := { (coreStep s).regs with mode := m } } := by
  have hsame := decompressResult_withMode m d s
  cases hr : decompressResult s with
  | ok r =>
    rw [coreStep_ok (.inr ⟨hop, hr⟩), coreStep_ok (s := withMode m d s) (.inr ⟨hop, hsame.trans hr⟩)]
    rfl
  | error e =>
    rw [coreStep_decompress_error hop hr, coreStep_decompress_error (s := withMode m d s) hop (hsame.trans hr)]
    cases leavesBytes e <;> rfl

/-- Settles O18: both states come to the same result, which is written and reported alike. -/
theorem decompressNeverReadsMode : Obligations.DecompressNeverReadsMode := by
  intro s m d hbusy hwait hop
  refine ⟨coreStep s, step_core hbusy hwait, ?_⟩
  rw [← coreStep_withMode m d hop]
  exact step_core hbusy hwait

end Sys2Proof.Machine
end

section
/-! The STATUS register (46_commands.md R287). -/

namespace Sys2Proof.Machine

/-- A bit of the STATUS read value. -/
theorem statusWord_getLsbD (p : Phase) (r : Regs) (i : Nat) : (statusWord p r).getLsbD i =
    ((decide (p = .busy) && decide (i = 0)) || (r.done && decide (i = 1)) || (r.err && decide (i = 2)) ||
      (r.cmdIgnored && decide (i = 3)) || (irqLevel r && decide (i = 4))) := by
  simp only [statusWord, BitVec.getLsbD_or]
  rw [bitAt_getLsbD _ 0 i (by decide), bitAt_getLsbD _ 1 i (by decide), bitAt_getLsbD _ 2 i (by decide),
    bitAt_getLsbD _ 3 i (by decide), bitAt_getLsbD _ 4 i (by decide)]

/-- Settles O23: 0x14 is the offset of STATUS, whose fields stand at five different bits. -/
theorem statusReadsItsFields : Obligations.StatusReadsItsFields := by
  intro s
  rw [readWindow_of_regAt s (r := .status) rfl]
  simp only [regValue, statusWord_getLsbD]
  refine ⟨by simp, by simp, by simp, by simp, by simp [irqLevel], fun i hi => ?_⟩
  simp [show i ≠ 0 by omega, show i ≠ 1 by omega, show i ≠ 2 by omega, show i ≠ 3 by omega, show i ≠ 4 by omega]

end Sys2Proof.Machine
end

section
/-! Errors: what memory holds after one, and which codes a step can leave in ERR_CODE (60_exceptions.md R322, R332). -/

namespace Sys2Proof.Machine

/-! ## Memory after an error -/

/-- Only these two errors come after bytes may have been written (60_exceptions.md R332). -/
theorem leavesBytes_iff (e : ErrCode) : leavesBytes e = true ↔ e = .corruptPayload ∨ e = .outputOverflow := by
  cases e <;> simp [leavesBytes]

section
variable {s : State}

/-- A command that reports an error has failed with that error. -/
theorem commandResult_error_of_errCode (h : (coreStep s).regs.errCode ≠ .none) :
    commandResult s = .error (coreStep s).regs.errCode := by
  cases hr : commandResult s with
  | ok r => exact absurd (by rw [coreStep_regs_of_ok hr]; rfl) h
  | error e => rw [coreStep_regs_of_error hr, fail_regs]

theorem coreStep_mem_of_compress_error (hop : s.lat.op = .compress) {e : ErrCode} (h : commandResult s = .error e) :
    (coreStep s).mem = s.mem := by
  rw [commandResult, hop] at h
  simp [coreStep_compress_error hop h]

theorem coreStep_mem_of_decompress_error (hop : s.lat.op = .decompress) {e : ErrCode}
    (h : commandResult s = .error e) (hcorrupt : e ≠ .corruptPayload) (hoverflow : e ≠ .outputOverflow) :
    (coreStep s).mem = s.mem := by
  rw [commandResult, hop] at h
  have hearly : ¬leavesBytes e = true := by rw [leavesBytes_iff]; exact not_or.2 ⟨hcorrupt, hoverflow⟩
  simp [coreStep_decompress_error hop h, if_neg hearly]

end

/-- Settles O15: the reported code is the command's error, and `fail` alone writes no byte. -/
theorem memoryAfterAnError : Obligations.MemoryAfterAnError := by
  constructor
  · intro s hbusy hwait
    exact ⟨coreStep s, step_core hbusy hwait,
      fun herr hop => coreStep_mem_of_compress_error hop (commandResult_error_of_errCode herr),
      fun herr hop => coreStep_mem_of_decompress_error hop (commandResult_error_of_errCode herr),
      fun _ _ => coreStep_sameOutside_dest s⟩
  · intro v s hidle hlow hhigh
    have hop : opcode (decodeWord v) ∉ [0xF#4, 0x0#4, 0x1#4, 0x2#4] := by
      rw [opcode_decodeWord]
      simp only [List.mem_cons, List.not_mem_nil, or_false]
      rintro (h | h | h | h) <;> simp [h] at hlow hhigh
    exact ⟨_, exec_reserved_of_idle hidle hop, rfl, rfl⟩

/-! ## The codes a step leaves -/

@[simp] theorem writeReg_errCode (v : Word) (r : Regs) (n : RegName) : (writeReg v r n).errCode = r.errCode := by
  cases n <;> rfl

@[simp] theorem writeWindow_errCode (s : State) (w : AccessWidth) (off : BitVec 8) (v : Word) :
    (writeWindow s w off v).regs.errCode = s.regs.errCode := by
  cases w with
  | w8 => rfl
  | w16 => rfl
  | w32 => cases h : regAt off <;> simp [writeWindow, h]

@[simp] theorem hostRegWrite_errCode (w : AccessWidth) (off : BitVec 8) (v : Word) (s : State) :
    (hostRegWrite w off v s).regs.errCode = s.regs.errCode := by
  obtain ⟨_, h⟩ | ⟨_, h⟩ := hostRegWrite_cases w off v s <;> simp [h]

@[simp] theorem pollReg_regs (off : BitVec 8) (mask v : Word) (s : State) : (pollReg off mask v s).regs = s.regs := by
  unfold pollReg; split <;> rfl

theorem setReset_errCode (b : Bool) (s : State) :
    (setReset b s).regs.errCode = s.regs.errCode ∨ (setReset b s).regs.errCode = .none := by
  cases b with
  | false => exact .inl rfl
  | true => exact .inr (by rw [setReset_true, resetCore_regs]; rfl)

/-- No access writes ERR_CODE but an assertion of the reset input (10_state.md R33). -/
theorem access_errCode {op : BusOp} {s t : State} (h : access op s = .next t) :
    t.regs.errCode = s.regs.errCode ∨ t.regs.errCode = .none := by
  obtain ⟨_, _, _, _, rfl⟩ | ⟨_, _, _, rfl⟩ | ⟨_, _, _, _, rfl⟩ | ⟨_, _, _, rfl | rfl, _⟩ | ⟨_, _, _, rfl | rfl⟩ |
    ⟨b, _, rfl⟩ := access_cases h
  case inr.inr.inr.inr.inr => exact setReset_errCode b s
  all_goals simp

theorem exec_errCode {i : Instr} {s t : State} (h : exec i s = .next t) :
    t.regs.errCode = s.regs.errCode ∨ t.regs.errCode = .none ∨ t.regs.errCode = .illegalCommand := by
  obtain ⟨_, _, he⟩ | ⟨_, he⟩ | ⟨_, _, _, he⟩ | ⟨_, _, _, he⟩ | ⟨_, he⟩ | ⟨_, _, he⟩ := exec_cases i s <;>
    cases he.symm.trans h
  · exact .inl rfl
  · exact .inl rfl
  · exact .inr (.inl rfl)
  · exact .inr (.inl rfl)
  · exact .inr (.inr rfl)
  · exact .inr (.inl (by rw [resetCore_regs]; rfl))

theorem runCommand_errCode {i : Instr} {s t : State} (h : runCommand i s = .next t) :
    t.regs.errCode = s.regs.errCode ∨ t.regs.errCode = .none ∨ t.regs.errCode = .illegalCommand := by
  obtain ⟨_, hr⟩ | ⟨_, hr⟩ := runCommand_cases i s
  · cases hr.symm.trans h; exact .inl rfl
  · exact exec_errCode (hr.symm.trans h)

/-- A step leaves ERR_CODE, clears it, or reports ILLEGAL_COMMAND or the error of the running command. -/
theorem step_errCode {s t : State} (h : step s = .next t) :
    t.regs.errCode = s.regs.errCode ∨ t.regs.errCode = .none ∨ t.regs.errCode = .illegalCommand ∨
      commandResult s = .error t.regs.errCode := by
  obtain ⟨_, _, rfl⟩ | ⟨_, _, rfl⟩ | ⟨_, _, _, _, hc⟩ | ⟨_, _, _, _, _, _, ha⟩ := step_cases h
  · by_cases hnone : (coreStep s).regs.errCode = .none
    · exact .inr (.inl hnone)
    · exact .inr (.inr (.inr (commandResult_error_of_errCode hnone)))
  · exact .inl rfl
  · exact (runCommand_errCode hc).imp_right (Or.imp_right .inl)
  · exact (access_errCode ha).imp_right .inl

/-- Settles O19: of the codes a step can leave, only the one found can be EMPTY_INPUT, since no command fails with it. -/
theorem emptyInputIsNeverReported : Obligations.EmptyInputIsNeverReported := by
  intro s t hstep hempty
  have hcode := step_errCode hstep
  rw [hempty] at hcode
  obtain hkept | hnone | hillegal | hresult := hcode
  · exact hkept.symm
  · cases hnone
  · cases hillegal
  · exact absurd rfl (error_code_ne (commandResult_eq_iff.1 hresult)).2

end Sys2Proof.Machine
end

section
/-! Hazards while BUSY: what the result registers read, and writes to the operand registers
(70_reset_and_hazards.md R371, R373). -/

namespace Sys2Proof.Machine

/-! ## Registers at their own offsets -/

theorem regAt_offsetOf (n : RegName) : regAt (offsetOf n) = some n := by cases n <;> rfl

theorem readWindow_offsetOf (s : State) (n : RegName) : readWindow s .w32 (offsetOf n) = regValue s n :=
  readWindow_of_regAt s (regAt_offsetOf n)

theorem writeWindow_offsetOf (s : State) (n : RegName) (v : Word) :
    writeWindow s .w32 (offsetOf n) v = { s with regs := writeReg v s.regs n } := by
  simp only [writeWindow, regAt_offsetOf]

/-! ## The results while BUSY -/

/-- ERR_CODE and the five result registers (10_state.md R33..R38). -/
def outcomeRegs : List RegName := [.errCode, .resultLen, .symCount, .distinct, .tableLen, .payloadBits]

/-- Without an error and without a result every one of them reads 0. -/
theorem regValue_outcome_eq_zero {s : State} {n : RegName} (hcode : s.regs.errCode = .none)
    (hresult : s.regs.NoResult) (hn : n ∈ outcomeRegs) : regValue s n = 0#32 := by
  obtain ⟨hlen, hsyms, hdistinct, htable, hbits⟩ := hresult
  simp only [outcomeRegs, List.mem_cons, List.not_mem_nil, or_false] at hn
  obtain rfl | rfl | rfl | rfl | rfl | rfl := hn
  · rw [regValue, hcode]; rfl
  · exact hlen
  · exact hsyms
  · exact hdistinct
  · exact htable
  · exact hbits

/-- Settles O29: the invariant keeps ERR_CODE and the results as the start cleared them. -/
theorem resultsReadZeroWhileBusy : Obligations.ResultsReadZeroWhileBusy := by
  intro s hinv hbusy o ho
  obtain ⟨n, hn, rfl⟩ := List.mem_map.1 (show o ∈ outcomeRegs.map offsetOf from ho)
  obtain ⟨_, _, hcode⟩ := hinv.busyFlags hbusy
  rw [readWindow_offsetOf]
  exact regValue_outcome_eq_zero hcode (hinv.busyResult hbusy) hn

/-! ## Operand writes -/

/-- The registers a start latches (46_commands.md R285). -/
def operandRegs : List RegName := [.mode, .srcAddr, .srcLen, .dstAddr, .dstCap]

/-- What an operand register holds of a written word: MODE keeps DTYPE, the others keep all of it (10_state.md R26). -/
def operandValue (v : Word) : RegName → Word
  | .mode => v &&& 0x3#32
  | _ => v

theorem extractLsb'_zero_two_setWidth (v : Word) : (v.extractLsb' 0 2).setWidth 32 = v &&& 0x3#32 := by
  refine BitVec.eq_of_toNat_eq ?_
  rw [BitVec.toNat_setWidth, BitVec.extractLsb'_toNat, BitVec.toNat_and, Nat.shiftRight_zero,
    show (0x3#32).toNat = 2 ^ 2 - 1 from rfl, Nat.and_two_pow_sub_one_eq_mod]
  omega

/-- A command reads its latched operands, the platform and memory, and no register (10_state.md R41). -/
@[simp] theorem compressResult_writeWindow (s : State) (w : AccessWidth) (off : BitVec 8) (v : Word) :
    compressResult (writeWindow s w off v) = compressResult s := by
  simp only [compressResult, writeWindow_lat, writeWindow_plat, writeWindow_mem]

@[simp] theorem decompressResult_writeWindow (s : State) (w : AccessWidth) (off : BitVec 8) (v : Word) :
    decompressResult (writeWindow s w off v) = decompressResult s := by
  simp only [decompressResult, writeWindow_lat, writeWindow_plat, writeWindow_mem]

section
variable {n : RegName} (hn : n ∈ operandRegs) (s : State) (v : Word)
include hn

theorem operandRegs_cases : n = .mode ∨ n = .srcAddr ∨ n = .srcLen ∨ n = .dstAddr ∨ n = .dstCap := by
  simpa [operandRegs] using hn

/-- A written operand is read back (46_commands.md R286). -/
theorem regValue_operandWrite_same : regValue (writeWindow s .w32 (offsetOf n) v) n = operandValue v n := by
  rw [writeWindow_offsetOf]
  obtain rfl | rfl | rfl | rfl | rfl := operandRegs_cases hn
  · exact extractLsb'_zero_two_setWidth v
  all_goals rfl

/-- No other register reads differently after an operand write. -/
theorem regValue_operandWrite_other {m : RegName} (hm : m ∉ operandRegs) :
    regValue (writeWindow s .w32 (offsetOf n) v) m = regValue s m := by
  rw [writeWindow_offsetOf]
  cases m with
  | mode | srcAddr | srcLen | dstAddr | dstCap => exact absurd (by decide) hm
  | _ => obtain rfl | rfl | rfl | rfl | rfl := operandRegs_cases hn <;> rfl

theorem runCompress_operandWrite :
    runCompress (writeWindow s .w32 (offsetOf n) v) = writeWindow (runCompress s) .w32 (offsetOf n) v := by
  rw [runCompress, runCompress, compressResult_writeWindow]
  cases compressResult s
  all_goals obtain rfl | rfl | rfl | rfl | rfl := operandRegs_cases hn <;> rfl

theorem runDecompress_operandWrite :
    runDecompress (writeWindow s .w32 (offsetOf n) v) = writeWindow (runDecompress s) .w32 (offsetOf n) v := by
  rw [runDecompress, runDecompress, decompressResult_writeWindow]
  cases decompressResult s with
  | ok r => obtain rfl | rfl | rfl | rfl | rfl := operandRegs_cases hn <;> rfl
  | error e =>
    dsimp only
    cases leavesBytes e
    all_goals obtain rfl | rfl | rfl | rfl | rfl := operandRegs_cases hn <;> rfl

/-- The core's step comes to the same before an operand write and after it: its result depends on no register, and the end
of a command sets flags, ERR_CODE and results only. -/
theorem coreStep_operandWrite :
    coreStep (writeWindow s .w32 (offsetOf n) v) = writeWindow (coreStep s) .w32 (offsetOf n) v := by
  rw [coreStep, coreStep, writeWindow_lat]
  cases s.lat.op with
  | compress => exact runCompress_operandWrite hn s v
  | decompress => exact runDecompress_operandWrite hn s v

end

/-- Settles O20: the two steps differ by the operand write alone, which only its own register shows. -/
theorem operandWritesDoNotReachTheRunningCommand : Obligations.OperandWritesDoNotReachTheRunningCommand := by
  intro s v hbusy hwait o ho
  obtain ⟨n, hn, rfl⟩ := List.mem_map.1 (show o ∈ operandRegs.map fun n => (offsetOf n, operandValue v n) from ho)
  have hbusy' : (writeWindow s .w32 (offsetOf n) v).phase = .busy := (writeWindow_phase ..).trans hbusy
  have hwait' : (writeWindow s .w32 (offsetOf n) v).wait = 0 := (writeWindow_wait ..).trans hwait
  refine ⟨coreStep s, writeWindow (coreStep s) .w32 (offsetOf n) v, step_core hbusy hwait, ?_, writeWindow_mem ..,
    writeWindow_phase .., ?_, fun q hq => ?_⟩
  · rw [step_core hbusy' hwait', coreStep_operandWrite hn]
  · rw [readWindow_offsetOf, regValue_operandWrite_same hn]
  · obtain ⟨m, hm, rfl⟩ := List.mem_map.1 (show q ∈ (.status :: outcomeRegs).map offsetOf from hq)
    have hother : m ∉ operandRegs := by revert m; decide
    rw [readWindow_offsetOf, readWindow_offsetOf, regValue_operandWrite_other hn _ _ hother]

end Sys2Proof.Machine
end

section
/-! The command word, read and written (30_encoding.md R100, R101). -/

namespace Sys2Proof.Machine

/-! ## The two fields of a word -/

theorem ignOf_encode (i : Instr) : ignOf (encode i) = i.ign := by
  refine BitVec.eq_of_getLsbD_eq fun k hk => ?_
  rw [ignOf, BitVec.getLsbD_extractLsb', decide_eq_true hk, Bool.true_and, encode, BitVec.getLsbD_append,
    if_neg (by omega), Nat.add_sub_cancel_left]

/-- The four bits the decoder reads of a command's word. -/
theorem getLsbD_encode (i : Instr) {k : Nat} (hk : k < 4) : (encode i).getLsbD k = (opcode i).getLsbD k := by
  rw [encode, BitVec.getLsbD_append, if_pos hk]

theorem ign_decodeWord (w : Word) : (decodeWord w).ign = ignOf w := by
  unfold decodeWord
  split <;> rfl

/-! ## The decoder and the encoder -/

/-- The decoder's sixteen patterns are the sixteen opcodes, and it keeps the other bits. -/
theorem decodeWord_encode (i : Instr) : decodeWord (encode i) = i := by
  rw [decodeWord, ignOf_encode, getLsbD_encode i (by decide : 3 < 4), getLsbD_encode i (by decide : 2 < 4),
    getLsbD_encode i (by decide : 1 < 4), getLsbD_encode i (by decide : 0 < 4)]
  cases i <;> simp [opcode, Instr.ign]

/-- A word is its OP behind its ignored bits, and the decoder loses neither. -/
theorem encode_decodeWord (w : Word) : encode (decodeWord w) = w := by
  rw [encode, ign_decodeWord, opcode_decodeWord]
  refine BitVec.eq_of_getLsbD_eq fun k hk => ?_
  rw [BitVec.getLsbD_append]
  split
  · simp [*]
  · simp [ignOf, show 4 + (k - 4) = k by omega, show k - 4 < 28 by omega]

theorem ofNat_toNat_mod (w : Word) : BitVec.ofNat 32 (w.toNat % 2 ^ 32) = w := by
  rw [Nat.mod_eq_of_lt w.isLt, BitVec.ofNat_toNat, BitVec.setWidth_eq]

theorem decodeTableWord_encode (i : Instr) : decodeTableWord 32 (encode i).toNat = some i := by
  rw [decodeTableWord, if_pos le_rfl, ofNat_toNat_mod, decodeBytes_wordBytes, decodeWord_encode]

theorem commandOf_issue (i : Instr) : commandOf (issue i) = .ok i := by
  rw [issue, commandOf_cmdWrite, decodeWord_encode]

/-- Settles O1: OP and the ignored bits make up the word, and each of decoder and encoder keeps both. -/
theorem decodingAndEncodingAgree : Obligations.DecodingAndEncodingAgree := by
  refine ⟨fun i _ => ⟨?_, decodeTableWord_encode i, commandOf_issue i⟩,
    fun w => ⟨encode_decodeWord w, decodeBytes_wordBytes w⟩⟩
  rw [decodeBytes_wordBytes, decodeWord_encode]

/-- Settles O2: the words are closed terms, which the decoder evaluates. -/
theorem opcodeMapWordsDecode : Obligations.OpcodeMapWordsDecode := by
  unfold Obligations.OpcodeMapWordsDecode
  decide

/-! ## A command word as the next operation -/

/-- The next operation, a command, as the core finds it. -/
theorem step_command {s : State} {v : Word} {rest : List BusOp} (hmove : ¬(s.phase = .busy ∧ s.wait = 0))
    (hq : s.queue = .regWrite .w32 cmdOffset v :: rest) :
    step s = runCommand (decodeWord v) { s with queue := rest, wait := s.wait - 1 } := by
  rw [step_bus hmove hq, commandOf_cmdWrite]

theorem runCommand_released {i : Instr} {s : State} (h : s.inReset = false) : runCommand i s = exec i s := by
  rw [runCommand, h, if_neg Bool.false_ne_true]

theorem runCommand_asserted {i : Instr} {s : State} (h : s.inReset = true) : runCommand i s = .next s := by
  rw [runCommand, if_pos h]

theorem step_command_released {s : State} {v : Word} {rest : List BusOp} (hmove : ¬(s.phase = .busy ∧ s.wait = 0))
    (hreset : s.inReset = false) (hq : s.queue = .regWrite .w32 cmdOffset v :: rest) :
    step s = exec (decodeWord v) { s with queue := rest, wait := s.wait - 1 } :=
  (step_command hmove hq).trans (runCommand_released hreset)

/-- Settles O4: `withFetchWord` leaves at least one step of latency, so the core does not move before the command. -/
theorem stepRunsTheDecodedCommand : Obligations.StepRunsTheDecodedCommand := by
  constructor
  · intro s v rest hmove hq
    exact ⟨fun hreset => step_command_released hmove hreset hq,
      fun hreset => (step_command hmove hq).trans (runCommand_asserted hreset)⟩
  · intro s v
    have hwait : (s.withFetchWord 32 v.toNat).wait ≠ 0 := by
      simp only [State.withFetchWord]
      split
      · exact one_ne_zero
      · assumption
    have hwait' : (s.withFetchWord 32 v.toNat).wait - 1 = s.wait - 1 := by
      simp only [State.withFetchWord]
      split <;> omega
    rw [step_command_released (rest := s.queue) (v := v) (fun h => hwait h.2) rfl
      (by rw [State.withFetchWord, ofNat_toNat_mod]), hwait']
    rfl

end Sys2Proof.Machine
end

section
/-! The machine's invariant: it holds at reset and every step keeps it (10_state.md R27; 60_exceptions.md R322, R330;
70_reset_and_hazards.md R360, R373). -/

namespace Sys2Proof.Machine

theorem noResult_clearResults (r : Regs) : (clearResults r).NoResult := ⟨rfl, rfl, rfl, rfl, rfl⟩

theorem noResult_reset : Regs.reset.NoResult := ⟨rfl, rfl, rfl, rfl, rfl⟩

/-- A core that runs is not held in reset. -/
theorem State.Inv.released_of_busy {s : State} (h : s.Inv) (hbusy : s.phase = .busy) : s.inReset = false := by
  cases hr : s.inReset with
  | false => rfl
  | true => cases hbusy.symm.trans (h.heldReset hr).2

/-! ## Steps that keep every register -/

theorem State.Inv.of_regs_eq {s t : State} (h : s.Inv) (hregs : t.regs = s.regs) (hphase : t.phase = s.phase)
    (hreset : t.inReset = s.inReset) (hmem : t.mem.wf) : t.Inv where
  mem := hmem
  doneErr := by rw [hregs]; exact h.doneErr
  busyFlags := by rw [hregs, hphase]; exact h.busyFlags
  busyResult := by rw [hregs, hphase]; exact h.busyResult
  errResult := by rw [hregs]; exact h.errResult
  errCode := by rw [hregs]; exact h.errCode
  heldReset := by rw [hregs, hphase, hreset]; exact h.heldReset
  noEmpty := by rw [hregs]; exact h.noEmpty

theorem State.Inv.taken {s : State} (h : s.Inv) : (taken s).Inv := h.of_regs_eq rfl rfl rfl h.mem

theorem State.Inv.reply {s : State} (h : s.Inv) (x : Reply) : (reply x s).Inv := h.of_regs_eq rfl rfl rfl h.mem

theorem State.Inv.pollReg {s : State} (h : s.Inv) (off : BitVec 8) (mask v : Word) : (pollReg off mask v s).Inv := by
  unfold Machine.pollReg
  split
  · exact h.reply _
  · exact h.of_regs_eq rfl rfl rfl h.mem

/-! ## Register writes -/

/-- A change of registers that reports nothing: DONE and ERR at most go down, ERR_CODE and the results stay. -/
structure Regs.Quiet (r r' : Regs) : Prop where
  done : r'.done = true → r.done = true
  err : r'.err = true → r.err = true
  errCode : r'.errCode = r.errCode
  noResult : r.NoResult → r'.NoResult

theorem Regs.Quiet.writeReg (v : Word) (r : Regs) (n : RegName) : r.Quiet (writeReg v r n) := by
  cases n with
  | status => exact ⟨fun h => by simp_all [Machine.writeReg], fun h => by simp_all [Machine.writeReg], rfl, id⟩
  | _ => exact ⟨id, id, rfl, id⟩

theorem State.Inv.of_quiet {s : State} (h : s.Inv) {r : Regs} (hr : s.regs.Quiet r) (hreset : s.inReset = false) :
    { s with regs := r }.Inv where
  mem := h.mem
  doneErr hboth := h.doneErr ⟨hr.done hboth.1, hr.err hboth.2⟩
  busyFlags hbusy := by
    obtain ⟨hdone, herr, hcode⟩ := h.busyFlags hbusy
    exact ⟨Bool.eq_false_iff.2 fun hd => by simp [hr.done hd] at hdone,
      Bool.eq_false_iff.2 fun he => by simp [hr.err he] at herr, hr.errCode.trans hcode⟩
  busyResult hbusy := hr.noResult (h.busyResult hbusy)
  errResult hcode := by
    obtain ⟨hresult, hdone⟩ := h.errResult (hr.errCode ▸ hcode)
    exact ⟨hr.noResult hresult, Bool.eq_false_iff.2 fun hd => by simp [hr.done hd] at hdone⟩
  errCode herr := hr.errCode ▸ h.errCode (hr.err herr)
  heldReset hheld := absurd (hreset.symm.trans hheld) Bool.false_ne_true
  noEmpty := hr.errCode ▸ h.noEmpty

theorem State.Inv.writeWindow {s : State} (h : s.Inv) (hreset : s.inReset = false) (w : AccessWidth) (off : BitVec 8)
    (v : Word) : (writeWindow s w off v).Inv := by
  cases w with
  | w8 => exact h
  | w16 => exact h
  | w32 =>
    cases hr : regAt off with
    | none => simpa only [Machine.writeWindow, hr] using h
    | some n =>
      simp only [Machine.writeWindow, hr]
      exact h.of_quiet (.writeReg v s.regs n) hreset

theorem State.Inv.hostRegWrite {s : State} (h : s.Inv) (w : AccessWidth) (off : BitVec 8) (v : Word) :
    (hostRegWrite w off v s).Inv := by
  obtain ⟨_, hs⟩ | ⟨hreset, hs⟩ := hostRegWrite_cases w off v s <;> rw [hs]
  · exact h
  · exact h.writeWindow hreset w off v

theorem State.Inv.ignoreCommand {s : State} (h : s.Inv) (hbusy : s.phase = .busy) : (ignoreCommand s).Inv :=
  h.of_quiet ⟨id, id, rfl, id⟩ (h.released_of_busy hbusy)

/-! ## Resets -/

theorem State.Inv.of_reset {t : State} (hregs : t.regs = Regs.reset) (hphase : t.phase = .idle) (hmem : t.mem.wf) :
    t.Inv where
  mem := hmem
  doneErr := by simp [hregs, Regs.reset]
  busyFlags := by simp [hphase]
  busyResult := by simp [hphase]
  errResult := by simp [hregs, Regs.reset]
  errCode := by simp [hregs, Regs.reset]
  heldReset _ := ⟨hregs, hphase⟩
  noEmpty := by simp [hregs, Regs.reset]

theorem wf_resetCore {s : State} (h : s.mem.wf) : (resetCore s).mem.wf := by
  cases hp : s.phase with
  | idle => rwa [resetCore_mem_idle s hp]
  | busy => rw [resetCore_mem_busy s hp]; exact Memory.wf_scramble _ _ _ _ h

theorem State.Inv.resetCore {s : State} (h : s.Inv) : (resetCore s).Inv :=
  .of_reset (resetCore_regs s) (resetCore_phase s) (wf_resetCore h.mem)

theorem State.Inv.setReset {s : State} (h : s.Inv) (b : Bool) : (setReset b s).Inv := by
  cases b with
  | true => exact .of_reset (resetCore_regs s) (resetCore_phase s) (wf_resetCore h.mem)
  | false => exact { h with heldReset := nofun }

/-! ## The life of a command -/

/-- A state with the results cleared keeps the invariant, whatever its phase. -/
theorem State.Inv.start {s : State} (h : s.Inv) (hreset : s.inReset = false) (op : CmdOp) : (start op s).Inv where
  mem := h.mem
  doneErr := by simp
  busyFlags _ := ⟨rfl, rfl, rfl⟩
  busyResult _ := noResult_clearResults s.regs
  errResult := by simp
  errCode := by simp
  heldReset hheld := absurd (hreset.symm.trans hheld) Bool.false_ne_true
  noEmpty := by simp

/-- An error, reported from cleared results. -/
theorem State.Inv.of_fail {t : State} {r : Regs} {e : ErrCode}
    (hregs : t.regs = { r with errCode := e, err := true, done := false }) (hphase : t.phase = .idle)
    (hreset : t.inReset = false) (hmem : t.mem.wf) (hresult : r.NoResult) (hnone : e ≠ .none) (hempty : e ≠ .emptyInput) :
    t.Inv where
  mem := hmem
  doneErr := by simp [hregs]
  busyFlags := by simp [hphase]
  busyResult := by simp [hphase]
  errResult _ := by rw [hregs]; exact ⟨hresult, rfl⟩
  errCode _ := by rw [hregs]; exact hnone
  heldReset hheld := absurd (hreset.symm.trans hheld) Bool.false_ne_true
  noEmpty := by rw [hregs]; exact hempty

theorem State.Inv.illegalCommand {s : State} (h : s.Inv) (hreset : s.inReset = false) :
    (fail .illegalCommand { s with regs := clearResults s.regs }).Inv :=
  .of_fail rfl rfl hreset h.mem (noResult_clearResults s.regs) (by decide) (by decide)

@[simp] theorem coreStep_inReset (s : State) : (coreStep s).inReset = s.inReset := by
  obtain ⟨_, _, h⟩ | ⟨_, _, h⟩ | ⟨_, _, _, _, h⟩ := coreStep_cases s <;> simp [h]

/-- A command that succeeds has valid ranges. -/
theorem rangeError_of_commandResult_ok {s : State} {r : Success} (h : commandResult s = .ok r) :
    rangeError s.plat s.lat = none := by
  obtain ⟨_, hc⟩ | ⟨_, hd⟩ := commandResult_eq_iff.1 h
  · obtain ⟨_, _, hranges, _⟩ := compressResult_ok hc
    exact hranges
  · exact (decompressResult_ok hd).1

/-- A command writes below 2^32 only: its bytes fit a range that has been checked, and free bytes stay below. -/
theorem wf_coreStep {s : State} (h : s.mem.wf) : (coreStep s).mem.wf := by
  obtain ⟨r, hr, hstep⟩ | ⟨e, _, hstep⟩ | ⟨e, _, _, _, hstep⟩ := coreStep_cases s <;> rw [hstep]
  · have hok := commandResult_eq_iff.2 hr
    have hfits := commandResult_fits hok
    have haddr := s.lat.dstAddr.isLt
    obtain ⟨_, hdst, _⟩ := rangeError_none.1 (rangeError_of_commandResult_ok hok)
    have hbound := rangeOk_bound hdst
    exact Memory.wf_writeAll _ _ _ h (by omega)
  · exact h
  · exact Memory.wf_scramble _ _ _ _ h

theorem State.Inv.coreStep {s : State} (h : s.Inv) (hbusy : s.phase = .busy) : (coreStep s).Inv := by
  have hreset := (coreStep_inReset s).trans (h.released_of_busy hbusy)
  cases hr : commandResult s with
  | ok r =>
    have hregs := coreStep_regs_of_ok hr
    obtain ⟨_, herr, _⟩ := h.busyFlags hbusy
    exact
      { mem := wf_coreStep h.mem
        doneErr := by simp [hregs, herr]
        busyFlags := by simp
        busyResult := by simp
        errResult := by simp [hregs]
        errCode := by simp [hregs, herr]
        heldReset := fun hheld => absurd (hreset.symm.trans hheld) Bool.false_ne_true
        noEmpty := by simp [hregs] }
  | error e =>
    obtain ⟨hnone, hempty⟩ := error_code_ne (commandResult_eq_iff.1 hr)
    exact .of_fail (coreStep_regs_of_error hr) (coreStep_phase s) hreset (wf_coreStep h.mem) (h.busyResult hbusy) hnone
      hempty

/-! ## A step -/

theorem State.Inv.exec {s t : State} (h : s.Inv) (hreset : s.inReset = false) {i : Instr} (he : exec i s = .next t) :
    t.Inv := by
  obtain ⟨_, _, hx⟩ | ⟨hbusy, hx⟩ | ⟨_, _, _, hx⟩ | ⟨_, _, _, hx⟩ | ⟨_, hx⟩ | ⟨_, _, hx⟩ := exec_cases i s <;>
    cases hx.symm.trans he
  · exact h
  · exact h.ignoreCommand hbusy
  · exact h.start hreset .compress
  · exact h.start hreset .decompress
  · exact h.illegalCommand hreset
  · exact h.resetCore

theorem State.Inv.runCommand {s t : State} (h : s.Inv) {i : Instr} (hc : runCommand i s = .next t) : t.Inv := by
  obtain ⟨_, hr⟩ | ⟨hreset, hr⟩ := runCommand_cases i s
  · cases hr.symm.trans hc; exact h
  · exact h.exec hreset (hr.symm.trans hc)

theorem State.Inv.access {s t : State} (h : s.Inv) {op : BusOp} (ha : access op s = .next t) : t.Inv := by
  obtain ⟨w, off, v, _, rfl⟩ | ⟨_, _, _, rfl⟩ | ⟨_, _, _, _, rfl⟩ | ⟨a, b, _, rfl | rfl, _⟩ | ⟨_, _, _, rfl | rfl⟩ |
    ⟨b, _, rfl⟩ := access_cases ha
  · exact h.hostRegWrite w off v
  · exact h.reply _
  · exact h.pollReg _ _ _
  · exact h
  · exact h.of_regs_eq rfl rfl rfl (Memory.wf_write b h.mem a.isLt)
  · exact h.reply _
  · exact h.of_regs_eq rfl rfl rfl h.mem
  · exact h.setReset b

/-- Settles O32: whoever moves, each operation a step can come from keeps the invariant. -/
theorem everyStepKeepsTheInvariant : Obligations.EveryStepKeepsTheInvariant := by
  intro s t h hstep
  obtain ⟨hbusy, _, rfl⟩ | ⟨_, _, rfl⟩ | ⟨_, _, _, _, hc⟩ | ⟨_, _, _, _, _, _, ha⟩ := step_cases hstep
  · exact h.coreStep hbusy
  · exact h.taken
  · exact h.taken.runCommand hc
  · exact h.taken.access ha

/-- Settles O31: memory is empty at reset, and P_MAX_DISTINCT is 256 and a remainder. -/
theorem invariantHoldsAtReset : Obligations.InvariantHoldsAtReset := by
  refine ⟨.of_reset rfl rfl Memory.wf_nil, ?_⟩
  have hmax : State.reset.plat.maxDistinct = 256 + Config.distinctChoice % (2 ^ 20 - 255) := rfl
  have hmod := Nat.mod_lt Config.distinctChoice (show 0 < 2 ^ 20 - 255 by decide)
  rw [Platform.legal, Bool.and_eq_true, decide_eq_true_eq, decide_eq_true_eq, hmax]
  omega

end Sys2Proof.Machine
end

section
/-! Resets, and the end of a command as the host sees it (46_commands.md R284; 60_exceptions.md R320, R330, R331;
70_reset_and_hazards.md R360, R375). -/

namespace Sys2Proof.Machine

/-! ## Resets -/

/-- Only a running command's destination range changes (46_commands.md R284). -/
theorem resetCore_sameOutside {s : State} (hbusy : s.phase = .busy) :
    SameOutside s.mem (resetCore s).mem s.lat.dstAddr.toNat s.lat.dstCap.toNat := by
  rw [resetCore_mem_busy s hbusy]
  exact scramble_spec _ _ _ _

theorem step_setReset {s : State} {b : Bool} {rest : List BusOp} (hmove : ¬(s.phase = .busy ∧ s.wait = 0))
    (hq : s.queue = .reset b :: rest) : step s = .next (setReset b { s with queue := rest, wait := s.wait - 1 }) :=
  step_bus hmove hq

/-- A write to the window while the reset input is asserted, be it a command or not. -/
theorem step_regWrite_asserted {s : State} {w : AccessWidth} {off : BitVec 8} {v : Word} {rest : List BusOp}
    (hmove : ¬(s.phase = .busy ∧ s.wait = 0)) (hreset : s.inReset = true) (hq : s.queue = .regWrite w off v :: rest) :
    step s = .next { s with queue := rest, wait := s.wait - 1 } := by
  rw [step_bus hmove hq]
  cases commandOf (.regWrite w off v) with
  | ok i => exact runCommand_asserted hreset
  | error r => exact congrArg _ (hostRegWrite_asserted { s with queue := rest, wait := s.wait - 1 } v w off hreset)

/-- Settles O8: both resets are `resetCore`, and nothing else acts while the input is asserted. -/
theorem resetsRestoreEveryRegister : Obligations.ResetsRestoreEveryRegister := by
  refine ⟨fun g s => ?_, fun s rest hmove hq => ?_, fun s w o v rest => step_regWrite_asserted,
    fun s rest => step_setReset⟩
  · exact ⟨resetCore s, rfl, resetCore_regs s, resetCore_phase s, by rw [resetCore_regs]; rfl, resetCore_plat s,
      resetCore_queue s, resetCore_replies s, resetCore_mem_idle s, resetCore_sameOutside⟩
  · exact ⟨_, step_setReset hmove hq, resetCore_regs _, resetCore_phase _, rfl, congrArg irqLevel (resetCore_regs _),
      resetCore_plat _, resetCore_queue _, resetCore_replies _, resetCore_mem_idle { s with queue := rest, wait := s.wait - 1 },
      resetCore_sameOutside (s := { s with queue := rest, wait := s.wait - 1 })⟩

/-! ## The end of a command -/

@[simp] theorem coreStep_queue (s : State) : (coreStep s).queue = s.queue := by
  obtain ⟨_, _, h⟩ | ⟨_, _, h⟩ | ⟨_, _, _, _, h⟩ := coreStep_cases s <;> simp [h]

@[simp] theorem coreStep_replies (s : State) : (coreStep s).replies = s.replies := by
  obtain ⟨_, _, h⟩ | ⟨_, _, h⟩ | ⟨_, _, _, _, h⟩ := coreStep_cases s <;> simp [h]

@[simp] theorem coreStep_cmdIgnored (s : State) : (coreStep s).regs.cmdIgnored = s.regs.cmdIgnored := by
  cases hr : commandResult s with
  | ok r => rw [coreStep_regs_of_ok hr]; rfl
  | error e => rw [coreStep_regs_of_error hr]; rfl

theorem coreStep_errCode_of_ok {s : State} {r : Success} (h : commandResult s = .ok r) :
    (coreStep s).regs.errCode = .none ∧ (coreStep s).regs.done = true := by
  rw [coreStep_regs_of_ok h]
  exact ⟨rfl, rfl⟩

theorem coreStep_errCode_of_error {s : State} {e : ErrCode} (h : commandResult s = .error e) :
    (coreStep s).regs.errCode = e := by
  rw [coreStep_regs_of_error h]
  rfl

/-- A command just started whose latency has run out. -/
def started (op : CmdOp) (s : State) : State := { start op s with wait := 0 }

/-- The operands a start latches pass the checks their registers pass. -/
theorem rangeError_started {op : CmdOp} {s : State}
    (hsrc : rangeOk s.plat s.regs.srcAddr.toNat s.regs.srcLen.toNat = true)
    (hdst : rangeOk s.plat s.regs.dstAddr.toNat s.regs.dstCap.toNat = true)
    (hoverlap : overlap s.regs.srcAddr.toNat s.regs.srcLen.toNat s.regs.dstAddr.toNat s.regs.dstCap.toNat = false) :
    rangeError (started op s).plat (started op s).lat = none :=
  rangeError_none.2 ⟨hsrc, hdst, hoverlap⟩

/-- What the core's step leaves of a started command that succeeds (60_exceptions.md R331). -/
theorem step_started_of_ok {op : CmdOp} {s : State} {r : Success} (h : commandResult (started op s) = .ok r) :
    ∃ u, step (started op s) = .next u ∧ HoldsBytes u.mem s.regs.dstAddr.toNat r.out ∧
      SameOutside s.mem u.mem s.regs.dstAddr.toNat r.out.length ∧
      u.regs =
        { s.regs with
          done := true, err := false, errCode := .none, resultLen := BitVec.ofNat 32 r.out.length,
          symCount := BitVec.ofNat 32 r.symCount, distinct := BitVec.ofNat 32 r.distinct,
          tableLen := BitVec.ofNat 32 r.tableLen, payloadBits := BitVec.ofNat 32 r.payloadBits } ∧
      u.phase = .idle ∧ u.plat = s.plat ∧ u.queue = s.queue ∧ u.replies = s.replies := by
  have hmem := coreStep_mem_of_ok h
  obtain ⟨hbytes, houtside⟩ := writeAll_spec s.mem s.regs.dstAddr.toNat r.out
  exact ⟨coreStep (started op s), step_core rfl rfl, hmem ▸ hbytes, hmem ▸ houtside, coreStep_regs_of_ok h,
    coreStep_phase _, coreStep_plat _, coreStep_queue _, coreStep_replies _⟩

/-- Settles O10: the latched operands are the registers', so the command comes to the container named. -/
theorem compressWritesItsContainerAndSucceeds : Obligations.CompressWritesItsContainerAndSucceeds := by
  intro g s d r hidle hd hsrc hdst hoverlap hbytes
  have hranges := rangeError_started (op := .compress) hsrc hdst hoverlap
  have hdtype : dtypeOf (started .compress s).lat.dtype = some d := hd
  have hresult : commandResult (started .compress s) = .ok r := by
    rw [← hbytes, commandResult_eq_iff]
    exact .inl ⟨rfl, by simp only [compressResult, hdtype, hranges]; rfl⟩
  exact ⟨start .compress s, (step_started_of_ok hresult).imp fun u hu => ⟨exec_compress_of_idle g hidle, hu⟩⟩

/-- Settles O11: nothing DECOMPRESS comes to depends on MODE. -/
theorem decompressWritesItsBytesAndSucceeds : Obligations.DecompressWritesItsBytesAndSucceeds := by
  intro g s r hidle hsrc hdst hoverlap hbytes
  have hranges := rangeError_started (op := .decompress) hsrc hdst hoverlap
  have hresult : commandResult (started .decompress s) = .ok r :=
    (commandResult_decompress rfl hranges).trans hbytes
  exact ⟨start .decompress s, (step_started_of_ok hresult).imp fun u hu => ⟨exec_decompress_of_idle g hidle, hu⟩⟩

/-- Settles O12: the failing command's result is its error, and 0x1C is the offset of ERR_CODE. -/
theorem aFailedCommandReportsItsError : Obligations.AFailedCommandReportsItsError := by
  constructor
  · intro s e hbusy hwait herror
    exact ⟨coreStep s, step_core hbusy hwait, coreStep_error_regs herror, coreStep_phase s, coreStep_plat s,
      coreStep_queue s, coreStep_replies s⟩
  · intro t c hc hcode
    have hnumber : c.1.code.setWidth 32 = c.2 := by clear hcode; revert c; decide
    rw [readWindow_of_regAt t (r := .errCode) rfl, regValue, hcode, hnumber]

/-! ## The running command and the outside world -/

theorem step_rest {s : State} (hmove : ¬(s.phase = .busy ∧ s.wait = 0)) (hq : s.queue = []) : step s = .next (taken s) := by
  rw [step, nextMove, if_neg hmove, hq]

/-- A command ends with DONE and no error code, or with ERR. -/
theorem coreStep_done_or_err (s : State) :
    (coreStep s).regs.done = true ∧ (coreStep s).regs.errCode = .none ∨ (coreStep s).regs.err = true := by
  cases hr : commandResult s with
  | ok r => exact .inl (coreStep_errCode_of_ok hr).symm
  | error e => exact .inr (by rw [coreStep_regs_of_error hr]; rfl)

/-- The latency runs down to the core's step. -/
theorem run_busy_finishes : ∀ {n : Nat} {s : State}, s.phase = .busy → s.queue = [] → s.wait = n →
    ∃ t : State, Host.Core.run Sys2Proof.core (n + 1) s = .next t ∧ t.phase = .idle ∧
      (t.regs.done = true ∧ t.regs.errCode = .none ∨ t.regs.err = true)
  | 0, s, hbusy, _, hwait =>
    ⟨coreStep s, run_succ (step_core hbusy hwait), coreStep_phase s, coreStep_done_or_err s⟩
  | n + 1, s, hbusy, hq, hwait => by
    have hwait' : (taken s).wait = n := by rw [taken_wait, hwait, Nat.add_sub_cancel]
    rw [run_succ (step_rest (fun h => by omega) hq)]
    exact run_busy_finishes hbusy (by rw [taken_queue, hq, List.tail_nil]) hwait'

/-- Settles O21: by induction on the latency left. -/
theorem aRunningCommandFinishes : Obligations.ARunningCommandFinishes :=
  fun _ hbusy hq => run_busy_finishes hbusy hq rfl

/-- Settles O22: the latency left decides whether the write or the core's step comes first. -/
theorem aCommandWriteMeetsARunningCommandInEitherOrder :
    Obligations.ACommandWriteMeetsARunningCommandInEitherOrder := by
  intro s g rest hbusy hreset hq
  constructor
  · intro hwait
    have hstep := step_command_released (fun h => hwait.ne' h.2) hreset hq
    rw [decodeWord_encode] at hstep
    exact ⟨_, hstep.trans (exec_of_busy hbusy (by simp [opcode]) (by simp [opcode])), hbusy, rfl, rfl, rfl⟩
  · intro hwait
    have hidle := coreStep_phase s
    have hstep := step_command_released (s := coreStep s) (fun h => by cases hidle.symm.trans h.1)
      ((coreStep_inReset s).trans hreset) ((coreStep_queue s).trans hq)
    rw [decodeWord_encode] at hstep
    exact ⟨coreStep s, _, step_core hbusy hwait, hidle, coreStep_cmdIgnored s,
      hstep.trans (exec_decompress_of_idle g hidle), rfl, rfl, rfl⟩

end Sys2Proof.Machine
end

section
/-! What a step may change: the phase and the bytes of memory (10_state.md R40; 20_memory.md R76;
70_reset_and_hazards.md R360, R378). -/

namespace Sys2Proof.Machine

/-! ## The phase -/

@[simp] theorem hostRegWrite_phase (w : AccessWidth) (off : BitVec 8) (v : Word) (s : State) :
    (hostRegWrite w off v s).phase = s.phase := by
  obtain ⟨_, h⟩ | ⟨_, h⟩ := hostRegWrite_cases w off v s <;> simp [h]

@[simp] theorem pollReg_phase (off : BitVec 8) (mask v : Word) (s : State) : (pollReg off mask v s).phase = s.phase := by
  unfold pollReg; split <;> rfl

/-- Of the accesses only an assertion of the reset input can change the phase. -/
theorem access_phase {op : BusOp} {s t : State} (h : access op s = .next t) :
    t.phase = s.phase ∨ op = .reset true ∧ t.phase = .idle := by
  obtain ⟨_, _, _, _, rfl⟩ | ⟨_, _, _, rfl⟩ | ⟨_, _, _, _, rfl⟩ | ⟨_, _, _, rfl | rfl, _⟩ | ⟨_, _, _, rfl | rfl⟩ |
    ⟨b, hop, rfl⟩ := access_cases h
  case inr.inr.inr.inr.inr =>
    cases b with
    | false => exact .inl rfl
    | true => exact .inr ⟨hop, resetCore_phase s⟩
  all_goals exact .inl (by simp)

/-- A command leaves the phase, starts, or, as SOFT_RESET, ends in IDLE. -/
theorem exec_phase {i : Instr} {s t : State} (h : exec i s = .next t) :
    t.phase = s.phase ∨ s.phase = .idle ∧ (∃ g, i = .compress g ∨ i = .decompress g) ∨
      ∃ g, i = .softReset g ∧ t.phase = .idle := by
  obtain ⟨_, _, he⟩ | ⟨_, he⟩ | ⟨g, hi, hidle, he⟩ | ⟨g, hi, hidle, he⟩ | ⟨hidle, he⟩ | ⟨g, hi, he⟩ := exec_cases i s <;>
    cases he.symm.trans h
  · exact .inl rfl
  · exact .inl rfl
  · exact .inr (.inl ⟨hidle, g, .inl hi⟩)
  · exact .inr (.inl ⟨hidle, g, .inr hi⟩)
  · exact .inl hidle.symm
  · exact .inr (.inr ⟨g, hi, resetCore_phase s⟩)

/-- What a change of the phase comes from. -/
theorem step_phase {s t : State} (h : step s = .next t) :
    t.phase = s.phase ∨
    (s.phase = .idle ∧ ∃ v rest g, s.queue = .regWrite .w32 cmdOffset v :: rest ∧
      (decodeWord v = .compress g ∨ decodeWord v = .decompress g)) ∨
    (t.phase = .idle ∧ ((s.wait = 0 ∧ t = coreStep s) ∨ (∃ rest, s.queue = .reset true :: rest) ∨
      ∃ v rest g, s.queue = .regWrite .w32 cmdOffset v :: rest ∧ decodeWord v = .softReset g)) := by
  obtain ⟨_, hwait, rfl⟩ | ⟨_, _, rfl⟩ | ⟨v, rest, _, hq, hc⟩ | ⟨op, rest, _, _, hq, _, ha⟩ := step_cases h
  · exact .inr (.inr ⟨coreStep_phase s, .inl ⟨hwait, rfl⟩⟩)
  · exact .inl rfl
  · obtain ⟨_, hr⟩ | ⟨_, hr⟩ := runCommand_cases (decodeWord v) (taken s)
    · cases hr.symm.trans hc; exact .inl rfl
    · obtain hsame | ⟨hidle, g, hi⟩ | ⟨g, hi, hidle⟩ := exec_phase (hr.symm.trans hc)
      · exact .inl hsame
      · exact .inr (.inl ⟨hidle, v, rest, g, hq, hi⟩)
      · exact .inr (.inr ⟨hidle, .inr (.inr ⟨v, rest, g, hq, hi⟩)⟩)
  · obtain hsame | ⟨rfl, hidle⟩ := access_phase ha
    · exact .inl hsame
    · exact .inr (.inr ⟨hidle, .inr (.inl ⟨rest, hq⟩)⟩)

/-- Settles O33: of the causes of a change only a start leaves IDLE, and it leaves nothing else. -/
theorem thePhaseChangesOnlyAsItMay : Obligations.ThePhaseChangesOnlyAsItMay := by
  intro s t hstep
  constructor
  · intro hidle hbusy
    obtain hsame | ⟨_, hstart⟩ | ⟨hidle', _⟩ := step_phase hstep
    · cases hidle.symm.trans (hsame.symm.trans hbusy)
    · exact hstart
    · cases hidle'.symm.trans hbusy
  · intro hbusy hidle
    obtain hsame | ⟨hidle', _⟩ | ⟨_, hend⟩ := step_phase hstep
    · cases hidle.symm.trans (hsame.trans hbusy)
    · cases hidle'.symm.trans hbusy
    · exact hend

/-! ## Memory -/

@[simp] theorem hostRegWrite_mem (w : AccessWidth) (off : BitVec 8) (v : Word) (s : State) :
    (hostRegWrite w off v s).mem = s.mem := by
  obtain ⟨_, h⟩ | ⟨_, h⟩ := hostRegWrite_cases w off v s <;> simp [h]

@[simp] theorem pollReg_mem (off : BitVec 8) (mask v : Word) (s : State) : (pollReg off mask v s).mem = s.mem := by
  unfold pollReg; split <;> rfl

/-- Of the accesses only a byte write and an assertion of the reset input can change memory. -/
theorem access_mem {op : BusOp} {s t : State} (h : access op s = .next t) :
    t.mem = s.mem ∨ (∃ w b, op = .memWrite w b ∧ t.mem = s.mem.write w.toNat b) ∨
      op = .reset true ∧ t.mem = (resetCore s).mem := by
  obtain ⟨_, _, _, _, rfl⟩ | ⟨_, _, _, rfl⟩ | ⟨_, _, _, _, rfl⟩ | ⟨w, b, hop, rfl | rfl, _⟩ | ⟨_, _, _, rfl | rfl⟩ |
    ⟨b, hop, rfl⟩ := access_cases h
  case inr.inr.inr.inl.inr => exact .inr (.inl ⟨w, b, hop, rfl⟩)
  case inr.inr.inr.inr.inr =>
    cases b with
    | false => exact .inl rfl
    | true => exact .inr (.inr ⟨hop, rfl⟩)
  all_goals exact .inl (by simp)

/-- Of the commands only SOFT_RESET can change memory in the step of its write. -/
theorem runCommand_mem {i : Instr} {s t : State} (h : runCommand i s = .next t) :
    t.mem = s.mem ∨ ∃ g, i = .softReset g ∧ t.mem = (resetCore s).mem := by
  obtain ⟨_, hr⟩ | ⟨_, hr⟩ := runCommand_cases i s
  · cases hr.symm.trans h; exact .inl rfl
  · obtain ⟨_, _, he⟩ | ⟨_, he⟩ | ⟨_, _, _, he⟩ | ⟨_, _, _, he⟩ | ⟨_, he⟩ | ⟨g, hi, he⟩ := exec_cases i s <;>
      cases he.symm.trans (hr.symm.trans h)
    on_goal 6 => exact .inr ⟨g, hi, rfl⟩
    all_goals exact .inl rfl

theorem SameOutside.inDest {m m' : Memory} {l : Latched} {a : Nat}
    (h : SameOutside m m' l.dstAddr.toNat l.dstCap.toNat) (ha : m'.read a ≠ m.read a) : l.inDest a = true := by
  by_contra hout
  exact ha (h a (mt inDest_iff.2 hout))

/-- A byte that a reset changes was in the destination range of a running command. -/
theorem inDest_of_resetCore {s : State} {a : Nat} (ha : (resetCore s).mem.read a ≠ s.mem.read a) :
    s.phase = .busy ∧ s.lat.inDest a = true := by
  cases hp : s.phase with
  | idle => exact absurd (by rw [resetCore_mem_idle s hp]) ha
  | busy => exact ⟨rfl, (resetCore_sameOutside hp).inDest ha⟩

/-- Settles O34: the core and the resets change the destination range only, a byte write its own byte only. -/
theorem memoryChangesOnlyAsItMay : Obligations.MemoryChangesOnlyAsItMay := by
  intro s t a hstep ha
  obtain ⟨hbusy, hwait, rfl⟩ | ⟨_, _, rfl⟩ | ⟨v, rest, _, hq, hc⟩ | ⟨op, rest, _, _, hq, _, hacc⟩ := step_cases hstep
  · exact .inr ⟨hbusy, (coreStep_sameOutside_dest s).inDest ha, .inl hwait⟩
  · exact absurd rfl ha
  · obtain hsame | ⟨g, hi, hmem⟩ := runCommand_mem hc
    · exact absurd (congrArg (Memory.read · a) hsame) ha
    · rw [hmem] at ha
      obtain ⟨hbusy, hdest⟩ := inDest_of_resetCore (s := taken s) ha
      exact .inr ⟨hbusy, hdest, .inr (.inr ⟨v, rest, g, hq, hi⟩)⟩
  · obtain hsame | ⟨w, b, rfl, hmem⟩ | ⟨rfl, hmem⟩ := access_mem hacc
    · exact absurd (congrArg (Memory.read · a) hsame) ha
    · rw [hmem] at ha ⊢
      have hw : w.toNat = a := by
        by_contra hne
        exact ha (Memory.read_write_other _ _ (Ne.symm hne))
      exact .inl ⟨w, b, rest, hq, hw, by rw [← hw]; exact Memory.read_write_self ..⟩
    · rw [hmem] at ha
      obtain ⟨hbusy, hdest⟩ := inDest_of_resetCore (s := taken s) ha
      exact .inr ⟨hbusy, hdest, .inr (.inl ⟨rest, hq⟩)⟩

end Sys2Proof.Machine
end

section
/-! The first failing check (60_exceptions.md R325): what each command comes to, check by check, in the order of
46_commands.md R290 and R300 and of 45_container.md R250. -/

namespace Sys2Proof.Machine

/-! ## COMPRESS -/

section
variable {s : State} (hop : s.lat.op = .compress)
include hop

theorem commandResult_compress_untyped (hd : dtypeOf s.lat.dtype = none) :
    commandResult s = .error .unsupportedInputType := by
  simp only [commandResult, hop, compressResult, hd]

theorem commandResult_compress_of_rangeError {d : DataType} {e : ErrCode} (hd : dtypeOf s.lat.dtype = some d)
    (hranges : rangeError s.plat s.lat = some e) : commandResult s = .error e := by
  simp only [commandResult, hop, compressResult, hd, hranges]

/-- A COMPRESS that passes its range checks comes to what its source bytes give. -/
theorem commandResult_compress {d : DataType} (hd : dtypeOf s.lat.dtype = some d)
    (hranges : rangeError s.plat s.lat = none) : commandResult s = compressBytes s.plat.maxDistinct d
      (s.mem.readAll s.lat.srcAddr.toNat s.lat.srcLen.toNat) s.lat.dstCap.toNat := by
  simp only [commandResult, hop, compressResult, hd, hranges]

end

section
variable {m cap : Nat} {d : DataType} {x : List Byte} {syms : List Nat}

theorem compressBytes_ill_formed (h : utf8Dec x = none) :
    compressBytes m .text x cap = .error .unsupportedInputType := by
  simp only [compressBytes, symbolize, h]

theorem compressBytes_many_distinct (hsyms : symbolize d x = .ok syms) (hm : m < (freqTable syms).length) :
    compressBytes m d x cap = .error .capacity := by
  simp only [compressBytes, hsyms, countFreq, if_pos hm]

theorem compressBytes_counted (hsyms : symbolize d x = .ok syms) (hm : (freqTable syms).length ≤ m) :
    compressBytes m d x cap = compressCounted d syms (freqTable syms) cap := by
  simp only [compressBytes, hsyms, countFreq, if_neg (Nat.not_lt.2 hm)]

theorem compressCounted_no_table {table : List (Nat × Nat)} {e : ErrCode} (h : codewordTable table = .error e) :
    compressCounted d syms table cap = .error e := by
  simp only [compressCounted, h]

/-- With codewords at hand two checks are left, of B and of the container's length; the packer's own never fires. -/
theorem compressCounted_table {cw : List Entry} (h : codewordTable (freqTable syms) = .ok cw) :
    compressCounted d syms (freqTable syms) cap =
      if 2 ^ 32 - 1 < bitCount (freqTable syms) cw then .error .capacity
      else if cap < 9 + (serializeTable d cw).length + ceil8 (bitCount (freqTable syms) cw) then .error .outputOverflow
      else .ok
        { out := serializeContainer d (serializeTable d cw) (bitCount (freqTable syms) cw) (packBits (codeBits syms cw)),
          symCount := syms.length, distinct := (freqTable syms).length, tableLen := (serializeTable d cw).length,
          payloadBits := bitCount (freqTable syms) cw } := by
  simp only [compressCounted, h, pack, ← bitCount_freqTable, Config.maxField, containerLen]
  split
  · rfl
  · simp

end

/-! ## DECOMPRESS -/

theorem commandResult_decompress_of_rangeError {s : State} {e : ErrCode} (hop : s.lat.op = .decompress)
    (hranges : rangeError s.plat s.lat = some e) : commandResult s = .error e := by
  simp only [commandResult, hop, decompressResult, hranges]

/-- A byte of 2 or more is no tag (45_container.md R251). -/
theorem tagOf_eq_none {t : Byte} (h : 2 ≤ t.toNat) : tagOf t = none := by
  have h0 : t ≠ 0 := by rintro rfl; simp at h
  have h1 : t ≠ 1 := by rintro rfl; simp at h
  rw [tagOf, if_neg h0, if_neg h1]

/-- The fields of a container fit together: the table parses and the length is 9 + T + ceil8(B). -/
def FieldsFit (tag : DataType) (c : List Byte) (entries : List Entry) : Prop :=
  parseTable tag (slice c 5 (5 + tableLenOf c)) = some entries ∧
    c.length = 9 + tableLenOf c + ceil8 (bitLenOf c (tableLenOf c))

/-- Every structural check reports MALFORMED_CONTAINER, and all of them together ask whether the fields fit. -/
theorem parseFields_misfit {m : Nat} {tag : DataType} {c : List Byte} (h : ∀ entries, ¬FieldsFit tag c entries) :
    parseFields m tag c = .error .malformedContainer := by
  unfold parseFields
  split; · rfl
  split; · rfl
  split; · rfl
  rename_i entries hentries
  split; · rfl
  split; · rfl
  split; · rfl
  exact absurd ⟨hentries, by omega⟩ (h entries)

/-- When the fields fit, the number of entries is checked before the table (45_container.md R250, R261). -/
theorem parseFields_fit {m : Nat} {tag : DataType} {c : List Byte} {entries : List Entry}
    (h : FieldsFit tag c entries) : parseFields m tag c =
      if m < entries.length then .error .capacity
      else if tableValid entries = false then .error .malformedContainer
      else .ok
        { tag := tag, entries := entries, inv := inverseTable entries, tableLen := tableLenOf c,
          payloadBits := bitLenOf c (tableLenOf c), payload := c.drop (9 + tableLenOf c) } := by
  obtain ⟨htable, hlen⟩ := h
  simp only [parseFields, htable]
  rw [if_neg (by omega), if_neg (by omega), if_neg (by omega), if_neg (by omega), if_neg (by omega)]

section
variable {m cap : Nat} {c : List Byte} {p : Parsed}

theorem decompressBytes_unparsed {e : ErrCode} (h : parseContainer m c = .error e) :
    decompressBytes m c cap = .error e := by
  simp only [decompressBytes, h]

theorem decompressBytes_corrupt (h : parseContainer m c = .ok p) {e : ErrCode}
    (hunpack : unpack p.payload p.payloadBits p.inv = .error e) : decompressBytes m c cap = .error e := by
  simp only [decompressBytes, h, hunpack]

theorem decompressBytes_unpacked (h : parseContainer m c = .ok p) {syms : List Nat}
    (hunpack : unpack p.payload p.payloadBits p.inv = .ok syms) : decompressBytes m c cap =
      if cap < (reassemble p.tag syms).length then .error .outputOverflow
      else .ok
        { out := reassemble p.tag syms, symCount := syms.length, distinct := p.entries.length, tableLen := p.tableLen,
          payloadBits := p.payloadBits } := by
  simp only [decompressBytes, h, hunpack]

end

theorem parseContainer_untagged {m : Nat} {t : Byte} {rest : List Byte} (h : tagOf t = none) :
    parseContainer m (t :: rest) = .error .unsupportedDataType := by
  simp only [parseContainer, h]

theorem parseContainer_tagged {m : Nat} {t : Byte} {rest : List Byte} {tag : DataType} (h : tagOf t = some tag) :
    parseContainer m (t :: rest) = parseFields m tag (t :: rest) := by
  simp only [parseContainer, h]

/-! ## The reported code -/

/-- Settles O14: in each case all checks before the failing one are known to pass. -/
theorem theFirstFailingCheckIsReported : Obligations.TheFirstFailingCheckIsReported := by
  constructor
  · intro s hbusy hwait hop
    refine ⟨coreStep s, step_core hbusy hwait,
      fun hd => coreStep_errCode_of_error (commandResult_compress_untyped hop hd), fun d hd => ⟨fun hbad => ?_,
        fun hsrc hdst => ⟨fun hoverlap => ?_, fun hoverlap => ?_⟩⟩⟩
    · exact coreStep_errCode_of_error (commandResult_compress_of_rangeError hop hd (rangeError_bus hbad))
    · exact coreStep_errCode_of_error
        (commandResult_compress_of_rangeError hop hd (rangeError_overlap hsrc hdst hoverlap))
    have hresult := commandResult_compress hop hd (rangeError_none.2 ⟨hsrc, hdst, hoverlap⟩)
    refine ⟨?_, fun syms hsyms => ⟨fun hmany => ?_, fun hm hno => ?_, fun hm cw hcw => ?_⟩⟩
    · rintro rfl hill
      exact coreStep_errCode_of_error (hresult.trans (compressBytes_ill_formed hill))
    · exact coreStep_errCode_of_error (hresult.trans (compressBytes_many_distinct hsyms hmany))
    · rw [compressBytes_counted hsyms hm] at hresult
      exact coreStep_errCode_of_error (hresult.trans (compressCounted_no_table hno))
    · rw [compressBytes_counted hsyms hm, compressCounted_table hcw] at hresult
      refine ⟨fun hbits => ?_, fun hbits => ⟨fun hcap => ?_, fun hcap => ?_⟩⟩
      · rw [if_pos hbits] at hresult
        exact coreStep_errCode_of_error hresult
      · rw [if_neg (Nat.not_lt.2 hbits), if_pos hcap] at hresult
        exact coreStep_errCode_of_error hresult
      · rw [if_neg (Nat.not_lt.2 hbits), if_neg (Nat.not_lt.2 hcap)] at hresult
        exact coreStep_errCode_of_ok hresult
  · intro s c hbusy hwait hop hc
    refine ⟨coreStep s, step_core hbusy hwait, fun hbad => ?_,
      fun hsrc hdst => ⟨fun hoverlap => ?_, fun hoverlap => ?_⟩⟩
    · exact coreStep_errCode_of_error (commandResult_decompress_of_rangeError hop (rangeError_bus hbad))
    · exact coreStep_errCode_of_error
        (commandResult_decompress_of_rangeError hop (rangeError_overlap hsrc hdst hoverlap))
    have hresult := commandResult_decompress hop (rangeError_none.2 ⟨hsrc, hdst, hoverlap⟩)
    rw [← hc] at hresult
    have hunparsed : ∀ {e : ErrCode}, parseContainer s.plat.maxDistinct c = .error e → (coreStep s).regs.errCode = e :=
      fun he => coreStep_errCode_of_error (hresult.trans (decompressBytes_unparsed he))
    refine ⟨?_, fun t rest ht => ⟨fun htwo => ?_, fun tag htag => ?_⟩⟩
    · rintro rfl
      exact hunparsed rfl
    · rw [ht] at hunparsed
      exact hunparsed (parseContainer_untagged (tagOf_eq_none htwo))
    have hfields : parseContainer s.plat.maxDistinct c = parseFields s.plat.maxDistinct tag c :=
      ht ▸ parseContainer_tagged htag
    have hmisfit : (∀ entries, ¬FieldsFit tag c entries) → (coreStep s).regs.errCode = .malformedContainer :=
      fun h => hunparsed (hfields.trans (parseFields_misfit h))
    refine ⟨fun h => hmisfit ?_, fun h => hmisfit ?_, fun h => hmisfit ?_, fun h => hmisfit ?_, fun h => hmisfit ?_,
      fun entries htable hlen => ?_⟩
    · rintro entries ⟨_, hlen⟩; omega
    · rintro entries ⟨_, hlen⟩; omega
    · rintro entries ⟨htable, _⟩; cases h.symm.trans htable
    · rintro entries ⟨_, hlen⟩; omega
    · rintro entries ⟨_, hlen⟩; exact h hlen
    rw [parseFields_fit ⟨htable, hlen⟩] at hfields
    refine ⟨fun hmany => ?_, fun hm => ⟨fun hinvalid => ?_, fun hvalid => ?_⟩⟩
    · exact hunparsed (hfields.trans (if_pos hmany))
    · rw [if_neg (Nat.not_lt.2 hm), if_pos hinvalid] at hfields
      exact hunparsed hfields
    · rw [if_neg (Nat.not_lt.2 hm), if_neg (by simp [hvalid])] at hfields
      refine ⟨fun hcorrupt => ?_, fun syms hsyms => ⟨fun hcap => ?_, fun hcap => ?_⟩⟩
      · exact coreStep_errCode_of_error (hresult.trans (decompressBytes_corrupt hfields hcorrupt))
      · exact coreStep_errCode_of_error
          (hresult.trans ((decompressBytes_unpacked hfields hsyms).trans (if_pos hcap)))
      · exact coreStep_errCode_of_ok
          (hresult.trans ((decompressBytes_unpacked hfields hsyms).trans (if_neg (Nat.not_lt.2 hcap))))

end Sys2Proof.Machine
end

section
/-! The registers as the host reads and writes them (10_state.md R21..R39; 46_commands.md R286; 70_reset_and_hazards.md
R361, R374). -/

namespace Sys2Proof.Machine

/-! ## Reads -/

/-- A read of the window depends on the platform, the registers and the phase only. -/
theorem readWindow_congr {s t : State} (hplat : t.plat = s.plat) (hregs : t.regs = s.regs) (hphase : t.phase = s.phase)
    (w : AccessWidth) (off : BitVec 8) : readWindow t w off = readWindow s w off := by
  cases w with
  | w8 => rfl
  | w16 => rfl
  | w32 =>
    cases h : regAt off with
    | none => simp only [readWindow, h]
    | some n =>
      rw [readWindow_of_regAt t h, readWindow_of_regAt s h]
      cases n <;> simp only [regValue, hplat, hregs, hphase]

/-- Settles O27: a read only replies, and POLL puts itself back while its value does not match. -/
theorem registerReadsHaveNoSideEffect : Obligations.RegisterReadsHaveNoSideEffect := by
  intro s o mask v rest hmove
  have hread : readWindow { s with queue := rest, wait := s.wait - 1 } .w32 o = readWindow s .w32 o :=
    readWindow_congr rfl rfl rfl .w32 o
  constructor
  · intro hq
    rw [step_bus hmove hq]
    simp only [commandOf, access, reply, hread]
  · intro hq
    rw [step_bus hmove hq]
    simp only [commandOf, access, pollReg, reply, hread]
    split <;> rfl

/-- Settles O30: at an offset of no register a read gives 0, and each register holds its reset value. -/
theorem registersReadTheirResetValues : Obligations.RegistersReadTheirResetValues := by
  refine fun p o => ⟨?_, rfl, rfl⟩
  cases h : regAt o with
  | none =>
    have hid : o ≠ 0x00#8 := by rintro rfl; cases h
    have hversion : o ≠ 0x04#8 := by rintro rfl; cases h
    have hcaps : o ≠ 0x08#8 := by rintro rfl; cases h
    simp only [readWindow, h]
    rw [if_neg hid, if_neg hversion, if_neg hcaps]
    rfl
  | some n =>
    rw [readWindow_of_regAt _ h, regAt_offset h]
    cases n with
    | status => exact (by decide : statusWord .idle Regs.reset = 0#32)
    | irqEn => exact (by decide : irqEnWord Regs.reset = 0#32)
    | _ => rfl

/-! ## What a write leaves alone -/

/-- The registers a host can write, CMD aside (46_commands.md R286). -/
def writableRegs : List RegName := [.mode, .status, .irqEn, .srcAddr, .srcLen, .dstAddr, .dstCap]

theorem writeReg_of_not_writable (v : Word) (r : Regs) {n : RegName} (h : n ∉ writableRegs) : writeReg v r n = r := by
  cases n with
  | mode | status | irqEn | srcAddr | srcLen | dstAddr | dstCap => exact absurd (by decide) h
  | _ => rfl

/-- No register but the one written, and STATUS, reads differently. -/
theorem regValue_writeReg_other (s : State) (v : Word) {n m : RegName} (hmn : m ≠ n) (hm : m ≠ .status) :
    regValue { s with regs := writeReg v s.regs n } m = regValue s m := by
  cases n with
  | mode => cases m with | mode => exact absurd rfl hmn | _ => rfl
  | status => cases m with | status => exact absurd rfl hm | _ => rfl
  | irqEn => cases m with | irqEn => exact absurd rfl hmn | status => exact absurd rfl hm | _ => rfl
  | srcAddr => cases m with | srcAddr => exact absurd rfl hmn | _ => rfl
  | srcLen => cases m with | srcLen => exact absurd rfl hmn | _ => rfl
  | dstAddr => cases m with | dstAddr => exact absurd rfl hmn | _ => rfl
  | dstCap => cases m with | dstCap => exact absurd rfl hmn | _ => rfl
  | _ => rfl

/-- A write elsewhere leaves the flags of STATUS; only one to IRQ_EN can change what `irq` makes of them. -/
theorem writeReg_flags (v : Word) (r : Regs) {n : RegName} (hn : n ≠ .status) :
    (writeReg v r n).done = r.done ∧ (writeReg v r n).err = r.err ∧ (writeReg v r n).cmdIgnored = r.cmdIgnored ∧
      (n ≠ .irqEn → irqLevel (writeReg v r n) = irqLevel r) := by
  cases n with
  | status => exact absurd rfl hn
  | irqEn => exact ⟨rfl, rfl, rfl, fun h => absurd rfl h⟩
  | _ => exact ⟨rfl, rfl, rfl, fun _ => rfl⟩

theorem statusWord_congr {p : Phase} {r r' : Regs} (hdone : r'.done = r.done) (herr : r'.err = r.err)
    (hignored : r'.cmdIgnored = r.cmdIgnored) (hirq : irqLevel r' = irqLevel r) : statusWord p r' = statusWord p r := by
  simp only [statusWord, hdone, herr, hignored, hirq]

/-- A bit of the IRQ_EN read value. -/
theorem irqEnWord_getLsbD (r : Regs) (i : Nat) :
    (irqEnWord r).getLsbD i = ((r.doneIe && decide (i = 0)) || (r.errIe && decide (i = 1))) := by
  rw [irqEnWord, BitVec.getLsbD_or, bitAt_getLsbD _ 0 i (by decide), bitAt_getLsbD _ 1 i (by decide)]

/-- IRQ_EN keeps the two low bits of what is written to it (10_state.md R32). -/
theorem irqEnWord_writeIrqEn (v : Word) (r : Regs) : irqEnWord (writeIrqEn v r) = v &&& 0x3#32 := by
  refine BitVec.eq_of_getLsbD_eq fun i hi => ?_
  have hmask : (0x3#32).getLsbD i = decide (i < 2) := by revert i; decide
  rw [irqEnWord_getLsbD, BitVec.getLsbD_and, hmask]
  obtain rfl | rfl | h : i = 0 ∨ i = 1 ∨ 2 ≤ i := by omega
  · simp
  · simp
  · simp [show i ≠ 0 by omega, show i ≠ 1 by omega, show ¬i < 2 by omega]

/-! ## Writes through the window -/

theorem readWindow_status (s : State) : readWindow s .w32 0x14#8 = statusWord s.phase s.regs := rfl

/-- A bit of STATUS after a write to STATUS. -/
theorem getLsbD_status_writeStatus (s : State) (v : Word) (i : Nat) :
    (readWindow (writeWindow s .w32 0x14#8 v) .w32 0x14#8).getLsbD i =
      ((decide (s.phase = .busy) && decide (i = 0)) || ((s.regs.done && !v.getLsbD 1) && decide (i = 1)) ||
        ((s.regs.err && !v.getLsbD 2) && decide (i = 2)) || ((s.regs.cmdIgnored && !v.getLsbD 3) && decide (i = 3)) ||
        (((s.regs.done && !v.getLsbD 1 && s.regs.doneIe) || (s.regs.err && !v.getLsbD 2 && s.regs.errIe)) &&
          decide (i = 4))) :=
  statusWord_getLsbD s.phase (writeStatus v s.regs) i

/-- A write reaches no register, or the one that stands at its offset. -/
theorem writeWindow_cases (s : State) (o : BitVec 8) (v : Word) : writeWindow s .w32 o v = s ∨
    ∃ n, o = offsetOf n ∧ writeWindow s .w32 o v = { s with regs := writeReg v s.regs n } := by
  cases h : regAt o with
  | none => exact .inl (by simp only [writeWindow, h])
  | some n => exact .inr ⟨n, regAt_offset h, by simp only [writeWindow, h]⟩

theorem writeWindow_of_not_writable (s : State) {o : BitVec 8} (v : Word) (h : o ∉ writableRegs.map offsetOf) :
    writeWindow s .w32 o v = s := by
  obtain hsame | ⟨n, rfl, hn⟩ := writeWindow_cases s o v
  · exact hsame
  · rw [hn, writeReg_of_not_writable v s.regs fun hmem => h (List.mem_map_of_mem hmem)]

theorem readWindow_writeWindow_other (s : State) {o q : BitVec 8} (v : Word) (hqo : q ≠ o) (hq : q ≠ 0x14#8) :
    readWindow (writeWindow s .w32 o v) .w32 q = readWindow s .w32 q := by
  obtain hsame | ⟨n, rfl, hn⟩ := writeWindow_cases s o v
  · rw [hsame]
  cases h : regAt q with
  | none => simp only [readWindow, h]
  | some m =>
    rw [readWindow_of_regAt _ h, readWindow_of_regAt _ h, hn]
    obtain rfl := regAt_offset h
    exact regValue_writeReg_other s v (fun hmn => hqo (by rw [hmn])) fun hm => hq (by rw [hm]; rfl)

theorem getLsbD_status_writeWindow (s : State) {o : BitVec 8} (v : Word) {i : Nat} (ho : o ≠ 0x14#8) (hi : i ≤ 3) :
    (readWindow (writeWindow s .w32 o v) .w32 0x14#8).getLsbD i = (readWindow s .w32 0x14#8).getLsbD i := by
  obtain hsame | ⟨n, rfl, hn⟩ := writeWindow_cases s o v
  · rw [hsame]
  · obtain ⟨hdone, herr, hignored, _⟩ := writeReg_flags v s.regs (n := n) fun h => ho (by rw [h]; rfl)
    rw [hn, readWindow_status, readWindow_status, statusWord_getLsbD, statusWord_getLsbD, hdone, herr, hignored]
    simp [show i ≠ 4 by omega]

theorem readWindow_status_writeWindow (s : State) {o : BitVec 8} (v : Word) (hstatus : o ≠ 0x14#8) (hirq : o ≠ 0x18#8) :
    readWindow (writeWindow s .w32 o v) .w32 0x14#8 = readWindow s .w32 0x14#8 := by
  obtain hsame | ⟨n, rfl, hn⟩ := writeWindow_cases s o v
  · rw [hsame]
  · obtain ⟨hdone, herr, hignored, hlevel⟩ := writeReg_flags v s.regs (n := n) fun h => hstatus (by rw [h]; rfl)
    rw [hn, readWindow_status, readWindow_status]
    exact statusWord_congr hdone herr hignored (hlevel fun h => hirq (by rw [h]; rfl))

/-- A 32-bit write at an offset other than CMD, as the next operation (46_commands.md R286). -/
theorem step_regWrite {s : State} {o : BitVec 8} {v : Word} {rest : List BusOp} (hmove : ¬(s.phase = .busy ∧ s.wait = 0))
    (hreset : s.inReset = false) (ho : o ≠ cmdOffset) (hq : s.queue = .regWrite .w32 o v :: rest) :
    step s = .next (writeWindow { s with queue := rest, wait := s.wait - 1 } .w32 o v) := by
  rw [step_bus hmove hq]
  simp only [commandOf, if_neg ho, access]
  exact congrArg _ (hostRegWrite_released { s with queue := rest, wait := s.wait - 1 } v .w32 o hreset)

/-- Settles O24: each register goes by its access type, and STATUS is made of flags that a write elsewhere leaves. -/
theorem registerWritesActByAccessType : Obligations.RegisterWritesActByAccessType := by
  intro s v
  refine ⟨fun o ho => ?_, fun o ho => ?_, fun i hlow hhigh => ?_, fun o => writeWindow_of_not_writable s v,
    fun o q => readWindow_writeWindow_other s v, fun o i => getLsbD_status_writeWindow s v,
    fun o => readWindow_status_writeWindow s v, ?_, fun o => ?_, ?_, ?_, fun o rest => step_regWrite⟩
  · obtain ⟨n, hn, rfl⟩ := List.mem_map.1 (show o ∈ [RegName.srcAddr, .srcLen, .dstAddr, .dstCap].map offsetOf from ho)
    have hoperand : n ∈ operandRegs := List.mem_cons_of_mem _ hn
    have hvalue : operandValue v n = v := by
      cases n with
      | mode => exact absurd hn (by decide)
      | _ => rfl
    rw [readWindow_offsetOf, regValue_operandWrite_same hoperand, hvalue]
  · obtain ⟨n, hn, rfl⟩ := List.mem_map.1 (show o ∈ [RegName.mode, .irqEn].map offsetOf from ho)
    obtain rfl | rfl : n = .mode ∨ n = .irqEn := by simpa using hn
    · rw [readWindow_offsetOf, regValue_operandWrite_same (by decide)]
      rfl
    · rw [readWindow_offsetOf, writeWindow_offsetOf]
      exact irqEnWord_writeIrqEn v s.regs
  · rw [getLsbD_status_writeStatus, readWindow_status, statusWord_getLsbD]
    obtain rfl | rfl | rfl : i = 1 ∨ i = 2 ∨ i = 3 := by omega
    all_goals simp
  · rw [getLsbD_status_writeStatus, readWindow_status, statusWord_getLsbD]
    simp
  · exact ⟨writeWindow_mem .., writeWindow_phase .., writeWindow_lat .., writeWindow_queue ..⟩
  · exact ⟨rfl, rfl, rfl, rfl, rfl, rfl, rfl, rfl, rfl, rfl⟩
  · rw [readWindow_of_regAt s (r := .irqEn) rfl, regValue]
    simp only [irqEnWord_getLsbD]
    refine ⟨by simp, by simp, fun i hi => ?_⟩
    simp [show i ≠ 0 by omega, show i ≠ 1 by omega]

/-- Settles O28: the write clears the flags it names, `irq` is made of flags, and no other register reads differently. -/
theorem acknowledgingLowersTheInterrupt : Obligations.AcknowledgingLowersTheInterrupt := by
  intro s v rest hmove hreset hq
  refine ⟨_, step_regWrite hmove hreset (by decide) hq, fun hdone => ?_, fun herr => ?_, fun hdone herr => ?_,
    fun hdone herr => ?_, fun herr hdone => ?_, fun q hmem => ?_, writeWindow_mem .., writeWindow_phase ..,
    writeWindow_lat ..⟩
  · rw [getLsbD_status_writeStatus]; simp [hdone]
  · rw [getLsbD_status_writeStatus]; simp [herr]
  · rw [getLsbD_status_writeStatus]; simp [hdone, herr]
  · rw [getLsbD_status_writeStatus]; simp [hdone, herr]
  · rw [getLsbD_status_writeStatus]; simp [hdone, herr]
  · have hother : q ≠ 0x14#8 := by revert q; decide
    rw [readWindow_writeWindow_other _ v hother hother]
    exact readWindow_congr rfl rfl rfl .w32 q

end Sys2Proof.Machine
end

section
/-! Byte accesses of the host and other agents (20_memory.md R71; 70_reset_and_hazards.md R370). -/

namespace Sys2Proof.Machine

theorem step_memWrite {s : State} {a : Word} {b : Byte} {rest : List BusOp} (hmove : ¬(s.phase = .busy ∧ s.wait = 0))
    (hq : s.queue = .memWrite a b :: rest) : step s = hostWrite a b { s with queue := rest, wait := s.wait - 1 } :=
  step_bus hmove hq

theorem step_memRead {s : State} {a : Word} {rest : List BusOp} (hmove : ¬(s.phase = .busy ∧ s.wait = 0))
    (hq : s.queue = .memRead a :: rest) : step s = hostRead a { s with queue := rest, wait := s.wait - 1 } :=
  step_bus hmove hq

section
variable {s : State} {a : Word}

/-- A write into a buffer of the running command is refused, whatever the platform has there. -/
theorem hostWrite_buffer (b : Byte) (hwindow : s.plat.inWindow a.toNat = false) (hbusy : s.phase = .busy)
    (hbuffer : s.lat.inSource a.toNat = true ∨ s.lat.inDest a.toNat = true) :
    hostWrite a b s = .refused (.bufferWriteWhileBusy a) := by
  rw [hostWrite, if_neg (by simp [hwindow]), if_pos ⟨hbusy, hbuffer⟩]

/-- A read of the destination range returns a free byte. -/
theorem hostRead_dest (hwindow : s.plat.inWindow a.toNat = false) (hbusy : s.phase = .busy)
    (hdest : s.lat.inDest a.toNat = true) :
    hostRead a s = .next { reply (.mem (Config.freeByte s.draws a.toNat)) s with draws := s.draws + 1 } := by
  rw [hostRead, if_neg (by simp [hwindow]), if_pos ⟨hbusy, hdest⟩]

/-- At an address of ordinary memory outside the buffers a write stores its byte. -/
theorem hostWrite_ordinary (b : Byte) (hmem : s.plat.memOk a.toNat = true)
    (hfree : s.phase = .busy → s.lat.inSource a.toNat = false ∧ s.lat.inDest a.toNat = false) :
    hostWrite a b s = .next { s with mem := s.mem.write a.toNat b } := by
  have hbuffer : ¬(s.phase = .busy ∧ (s.lat.inSource a.toNat = true ∨ s.lat.inDest a.toNat = true)) := by
    rintro ⟨hbusy, h⟩
    obtain ⟨hsource, hdest⟩ := hfree hbusy
    simp [hsource, hdest] at h
  rw [hostWrite, if_neg (by simp [memOk_not_inWindow hmem]), if_neg hbuffer, if_neg (by simp [hmem])]

/-- At an address of ordinary memory outside the destination range a read returns the byte there. -/
theorem hostRead_ordinary (hmem : s.plat.memOk a.toNat = true)
    (hfree : s.phase = .busy → s.lat.inDest a.toNat = false) :
    hostRead a s = .next (reply (.mem (s.mem.read a.toNat)) s) := by
  have hdest : ¬(s.phase = .busy ∧ s.lat.inDest a.toNat = true) := fun ⟨hbusy, h⟩ => by simp [hfree hbusy] at h
  rw [hostRead, if_neg (by simp [memOk_not_inWindow hmem]), if_neg hdest, if_neg (by simp [hmem])]

end

/-- Settles O35: outside the window the latched ranges are looked at first. -/
theorem buffersBelongToTheRunningCommand : Obligations.BuffersBelongToTheRunningCommand := by
  intro s a b rest hbusy hwait hwindow
  have hmove : ¬(s.phase = .busy ∧ s.wait = 0) := fun h => hwait.ne' h.2
  refine ⟨fun hq hbuffer => ?_, fun hq hdest => ?_⟩
  · exact (step_memWrite hmove hq).trans (hostWrite_buffer b hwindow hbusy hbuffer)
  · exact ⟨_, _, (step_memRead hmove hq).trans (hostRead_dest hwindow hbusy hdest), rfl, rfl, rfl, rfl, hbusy⟩

/-- A write of ordinary memory outside the buffers, as the next operation. -/
theorem step_memWrite_ordinary {s : State} {a : Word} {b : Byte} {rest : List BusOp}
    (hmove : ¬(s.phase = .busy ∧ s.wait = 0))
    (hfree : s.phase = .busy → s.lat.inSource a.toNat = false ∧ s.lat.inDest a.toNat = false)
    (hmem : s.plat.memOk a.toNat = true) (hq : s.queue = .memWrite a b :: rest) :
    step s = .next { s with queue := rest, wait := s.wait - 1, mem := s.mem.write a.toNat b } :=
  (step_memWrite hmove hq).trans (hostWrite_ordinary b hmem hfree)

/-- A read of ordinary memory outside the destination range, as the next operation. -/
theorem step_memRead_ordinary {s : State} {a : Word} {rest : List BusOp} (hmove : ¬(s.phase = .busy ∧ s.wait = 0))
    (hfree : s.phase = .busy → s.lat.inDest a.toNat = false) (hmem : s.plat.memOk a.toNat = true)
    (hq : s.queue = .memRead a :: rest) : step s = .next
      { s with queue := rest, wait := s.wait - 1, replies := .mem (s.mem.read a.toNat) :: s.replies } :=
  (step_memRead hmove hq).trans (hostRead_ordinary hmem hfree)

/-- Settles O36: in BUSY two steps of latency are enough for both accesses to come before the core's step. -/
theorem memoryKeepsWhatAnAgentWrites : Obligations.MemoryKeepsWhatAnAgentWrites := by
  refine ⟨fun s a b rest hfree hmem hq => ?_, fun s a rest hmove hfree hmem => step_memRead_ordinary hmove hfree hmem⟩
  have hmove : ¬(s.phase = .busy ∧ s.wait = 0) := fun h => by have := (hfree h.1).1; omega
  have hmove' : ¬(s.phase = .busy ∧ s.wait - 1 = 0) := fun h => by have := (hfree h.1).1; omega
  have hwrite := step_memWrite_ordinary hmove (fun hbusy => (hfree hbusy).2) hmem hq
  refine ⟨_, _, hwrite, step_memRead_ordinary hmove' (fun hbusy => (hfree hbusy).2.2) hmem rfl, ?_, rfl,
    fun x hx => Memory.read_write_other _ _ hx, rfl, rfl, rfl, rfl, rfl, rfl⟩
  exact congrArg (fun x => Reply.mem x :: s.replies) (Memory.read_write_self s.mem a.toNat b)

end Sys2Proof.Machine
end

section
/-! Bytes, bits and text (00_scope.md R8; 30_encoding.md R111, R112, R119..R121). -/

namespace Sys2Proof.Machine

/-! ## BE32 -/

/-- Four bytes as a number (00_scope.md R8). -/
theorem be32Inv_four (b0 b1 b2 b3 : Byte) :
    be32Inv [b0, b1, b2, b3] = b0.toNat * 2 ^ 24 + b1.toNat * 2 ^ 16 + b2.toNat * 2 ^ 8 + b3.toNat := by
  simp only [be32Inv, List.foldl_cons, List.foldl_nil]
  omega

theorem be32_be32Inv (b0 b1 b2 b3 : Byte) : be32 (be32Inv [b0, b1, b2, b3]) = [b0, b1, b2, b3] := by
  have hbyte (b : Byte) {n k : Nat} (h : n = k * 256 + b.toNat) : BitVec.ofNat 8 n = b :=
    BitVec.eq_of_toNat_eq (by have := b.isLt; rw [BitVec.toNat_ofNat]; omega)
  rw [be32Inv_four, be32, hbyte b0 (k := 0) (by omega), hbyte b1 (k := b0.toNat) (by omega),
    hbyte b2 (k := b0.toNat * 256 + b1.toNat) (by omega),
    hbyte b3 (k := (b0.toNat * 256 + b1.toNat) * 256 + b2.toNat) (by omega)]

/-- Settles O37: the bytes are the digits of the number in base 256. -/
theorem bigEndianFieldsRoundTrip : Obligations.BigEndianFieldsRoundTrip :=
  ⟨fun n h => ⟨be32Inv_be32 h, be32_length n⟩,
    fun b0 b1 b2 b3 => ⟨be32Inv_four b0 b1 b2 b3, be32_be32Inv b0 b1 b2 b3⟩⟩

/-! ## Packed bits -/

theorem unpackBits_packBits (s : BitString) :
    unpackBits (packBits s) = s ++ List.replicate (8 * ceil8 s.length - s.length) false :=
  unpack_packBytes _ _ (le_ceil8 _)

/-- Bit k of byte j is bit 8j + k of the string (30_encoding.md R112). -/
theorem getLsbD_packBits (s : BitString) {j k : Nat} (hj : j < (packBits s).length) (hk : k < 8) :
    ((packBits s).getD j 0).getLsbD (7 - k) = s.getD (8 * j + k) false := by
  rw [packBits_length] at hj
  rw [packBits, packBytes_getD _ _ _ hj, bits8_getLsbD _ hk, bits8_packByte, List.getD_eq_getElem?_getD,
    List.getElem?_map, List.getElem?_range hk]
  simp [List.getD_eq_getElem?_getD, List.getElem?_drop]

/-- Settles O38: each packed byte holds its eight bits of the string, most significant first. -/
theorem packedBitsStandMostSignificantFirst : Obligations.PackedBitsStandMostSignificantFirst :=
  fun s => ⟨packBits_length s, fun _ _ => getLsbD_packBits s, unpackBits_packBits s⟩

/-! ## Text -/

theorem length_le_utf8EncSeq (cps : List Nat) : cps.length ≤ (utf8EncSeq cps).length := by
  induction cps with
  | nil => rfl
  | cons cp cps ih =>
    have hpos := (utf8Enc_length cp).1
    rw [utf8EncSeq] at ih ⊢
    rw [List.flatMap_cons, List.length_append, List.length_cons]
    omega

/-- Settles O39: every row of the decoder is the encoding of the scalar value it reads. -/
theorem decodedTextIsScalarAndEncodesBack : Obligations.DecodedTextIsScalarAndEncodesBack := by
  intro x cps h
  obtain ⟨hscalar, henc⟩ := utf8Dec_sound h
  exact ⟨henc, hscalar, henc ▸ length_le_utf8EncSeq cps⟩

theorem utf8Dec_utf8EncSeq : ∀ {cps : List Nat}, (∀ cp ∈ cps, isScalar cp = true) →
    utf8Dec (utf8EncSeq cps) = some cps
  | [], _ => by simp [utf8EncSeq, utf8Dec]
  | cp :: cps, h => by
    obtain ⟨hcp, hcps⟩ := List.forall_mem_cons.1 h
    rw [utf8EncSeq, List.flatMap_cons, utf8Dec_utf8Enc_append cp hcp, ← utf8EncSeq, utf8Dec_utf8EncSeq hcps,
      Option.map_some]

/-- The bytes of each length (30_encoding.md R121). -/
theorem utf8Enc_toNat {cp : Nat} (h : isScalar cp = true) : (utf8Enc cp).map BitVec.toNat =
    if cp < 0x80 then [cp]
    else if cp < 0x800 then [0xC0 + cp / 64, 0x80 + cp % 64]
    else if cp < 0x10000 then [0xE0 + cp / 4096, 0x80 + cp / 64 % 64, 0x80 + cp % 64]
    else [0xF0 + cp / 262144, 0x80 + cp / 4096 % 64, 0x80 + cp / 64 % 64, 0x80 + cp % 64] := by
  obtain ⟨hmax, _⟩ := isScalar_iff.1 h
  rw [utf8Enc_eq cp hmax]
  obtain h1 | h2 | h3 | h4 : cp < 0x80 ∨ (0x80 ≤ cp ∧ cp < 0x800) ∨ (0x800 ≤ cp ∧ cp < 0x10000) ∨ 0x10000 ≤ cp := by
    omega
  · rw [if_pos (by omega), if_pos h1]
    simp only [List.map_cons, List.map_nil]
    rw [toNat_ofNat_byte (by omega)]
  · rw [if_neg (by omega), if_pos (by omega), if_neg (by omega), if_pos h2.2]
    simp only [List.map_cons, List.map_nil]
    rw [toNat_ofNat_byte (by omega), toNat_ofNat_byte (by omega)]
  · rw [if_neg (by omega), if_neg (by omega), if_pos (by omega), if_neg (by omega), if_neg (by omega), if_pos h3.2]
    simp only [List.map_cons, List.map_nil]
    rw [toNat_ofNat_byte (by omega), toNat_ofNat_byte (by omega), toNat_ofNat_byte (by omega)]
  · rw [if_neg (by omega), if_neg (by omega), if_neg (by omega), if_neg (by omega), if_neg (by omega), if_neg (by omega)]
    simp only [List.map_cons, List.map_nil]
    rw [toNat_ofNat_byte (by omega), toNat_ofNat_byte (by omega), toNat_ofNat_byte (by omega),
      toNat_ofNat_byte (by omega)]

/-- Settles O40: the decoder reads one encoded value after another. -/
theorem encodedTextDecodesBack : Obligations.EncodedTextDecodesBack :=
  ⟨fun _ h => ⟨utf8Dec_utf8EncSeq h, fun cp _ => utf8Enc_length cp⟩, fun _ => utf8Enc_toNat⟩

end Sys2Proof.Machine
end

section
/-! Frequencies and codewords (41_tree_builder.md R144, R145, R158; 42_codeword_table.md R183). -/

namespace Sys2Proof.Machine

/-! ## The frequency table -/

theorem mem_freqTable_iff {syms : List Nat} {s f : Nat} : (s, f) ∈ freqTable syms ↔ s ∈ syms ∧ f = syms.count s := by
  obtain ⟨hascending, hcount, _⟩ := freqTable_spec syms
  constructor
  · intro hmem
    exact ⟨mem_freqTable_fst.1 (List.mem_map_of_mem hmem), by rw [← hcount, countIn_of_mem hascending hmem]⟩
  · rintro ⟨hs, rfl⟩
    rw [← hcount]
    exact mem_of_countIn (by rw [hcount]; exact (List.count_pos_iff.2 hs).ne')

theorem sum_snd_bump (s : Nat) (table : List (Nat × Nat)) :
    ((bump s table).map Prod.snd).sum = (table.map Prod.snd).sum + 1 := by
  simpa using sum_bump table (s := s) fun _ => 1

theorem sum_snd_freqTable (syms : List Nat) : ((freqTable syms).map Prod.snd).sum = syms.length := by
  obtain ⟨_, _, hsum⟩ := freqTable_spec syms
  simpa using hsum fun _ => 1

/-- As long as the number of symbols fits, so does every counter (41_tree_builder.md R145). -/
theorem storedTable_foldl_bumpHeld : ∀ (syms : List Nat) (store : List (Nat × Word)),
    ((storedTable store).map Prod.snd).sum + syms.length < 2 ^ 32 →
    storedTable (syms.foldl (fun store s => bumpHeld s store) store) =
      syms.foldl (fun table s => bump s table) (storedTable store)
  | [], _, _ => rfl
  | s :: syms, store, h => by
    rw [List.length_cons] at h
    have hbump := storedTable_bumpHeld s store (by omega)
    rw [List.foldl_cons, List.foldl_cons, ← hbump]
    exact storedTable_foldl_bumpHeld syms _ (by rw [hbump, sum_snd_bump]; omega)

/-- Settles O41: the table counts every symbol once, in order, and 32 bits hold every count. -/
theorem frequenciesAreCountsInAscendingOrder : Obligations.FrequenciesAreCountsInAscendingOrder := by
  intro m syms
  refine ⟨(freqTable_spec syms).1, fun s f => mem_freqTable_iff, sum_snd_freqTable syms, fun hm => ?_, fun hm => ?_,
    fun hlen => ?_⟩
  · rw [countFreq, if_pos hm]
  · rw [countFreq, if_neg (Nat.not_lt.2 hm)]
  · exact storedTable_foldl_bumpHeld syms [] (by simp [storedTable]; omega)

/-! ## The tree behind a codeword table -/

/-- The arena of a non-empty table stands for a Huffman tree with the table at its leaves. -/
theorem good_tree {table : List (Nat × Nat)} (hne : table ≠ []) :
    ∃ t, Stands (buildTree table).nodes (buildTree table).root t ∧ t.good ∧ t.leaves.Perm table := by
  obtain ⟨F, hF, hperm⟩ := forest_mergeTimes table _ (Nat.sub_add_cancel (List.length_pos_of_ne_nil hne)).le
  rw [← buildTree] at hF hperm
  rw [buildTree_active_eq_root hne] at hF hperm
  obtain ⟨hstands, hgood⟩ := hF _ (List.mem_singleton_self _)
  exact ⟨_, hstands, hgood, by simpa using hperm⟩

/-- The codeword table of a non-empty table lists the entries of its tree. -/
theorem codewordTable_entries {table : List (Nat × Nat)} {cw : List Entry} (hne : table ≠ [])
    (h : codewordTable table = .ok cw) :
    ∃ t, Stands (buildTree table).nodes (buildTree table).root t ∧ t.leaves.length = table.length ∧ cw = t.entries := by
  rw [codewordTable_of_ne_nil hne] at h
  obtain ⟨t, hstands, _, hleaves⟩ := good_tree hne
  exact ⟨t, hstands, hleaves.length_eq, (deriveCodewords_ok h).1.trans hstands.treeCodewords⟩

/-- A codeword is no longer than the tree is deep, but that of an only leaf has one bit. -/
theorem BinTree.entries_cw_length_le {t : BinTree} {e : Entry} (he : e ∈ t.entries) : e.cw.length ≤ max 1 t.depth := by
  cases t with
  | leaf s f => cases List.mem_singleton.1 he; exact le_max_left _ _
  | node l r =>
    have hlen := (codes_prefix _ [] e he).2
    rw [List.length_nil, Nat.zero_add] at hlen
    exact hlen.trans (le_max_right _ _)

/-- The codewords of a tree of two or more leaves fill the code space (42_codeword_table.md R183). -/
theorem BinTree.entries_kraft {l r : BinTree} {n : Nat} (h : ∀ e ∈ (node l r).entries, e.cw.length ≤ n) :
    ((node l r).entries.map fun e => 2 ^ (n - e.cw.length)).sum = 2 ^ n := by
  obtain ⟨e, he, hdepth⟩ := codes_depth (node l r) []
  exact codes_kraft (node l r) n [] (hdepth.symm.trans_le (h e he))

theorem BinTree.exists_node_of_two_le {t : BinTree} (h : 2 ≤ t.leaves.length) : ∃ l r, t = .node l r := by
  cases t with
  | leaf s f => exact absurd h (by decide : ¬2 ≤ 1)
  | node l r => exact ⟨l, r, rfl⟩

theorem BinTree.exists_leaf_of_one {t : BinTree} (h : t.leaves.length = 1) : ∃ s f, t = .leaf s f := by
  cases t with
  | leaf s f => exact ⟨s, f, rfl⟩
  | node l r =>
    have hdepth := (node l r).depth_lt
    rw [h, depth] at hdepth
    omega

/-- Settles O46: the table is that of a leaf or of an inner node, and its codewords are the paths to the leaves. -/
theorem codewordsArePrefixFreeAndComplete : Obligations.CodewordsArePrefixFreeAndComplete := by
  intro table cw hne _ h
  obtain ⟨hsyms, hlen, hfree⟩ := codewordTable_ok h
  obtain ⟨t, hstands, hcount, rfl⟩ := codewordTable_entries hne h
  rw [← hcount]
  refine ⟨hsyms, fun e he => ⟨(hlen e he).1, (hlen e he).2, fun htwo => ?_⟩, fun htwo e he => ?_, fun hone e he => ?_,
    hfree, fun htwo => ?_, fun hone => ?_⟩
  · have hle := BinTree.entries_cw_length_le he
    have hdepth := t.depth_lt
    omega
  · obtain ⟨l, r, rfl⟩ := BinTree.exists_node_of_two_le htwo
    obtain ⟨path, hpath, hleaf⟩ := hstands.leafAt [] e he
    rwa [hpath, List.nil_append]
  · obtain ⟨s, f, rfl⟩ := BinTree.exists_leaf_of_one hone
    cases List.mem_singleton.1 he
    rfl
  · obtain ⟨l, r, rfl⟩ := BinTree.exists_node_of_two_le htwo
    exact BinTree.entries_kraft fun e he => (hlen e he).2
  · obtain ⟨s, f, rfl⟩ := BinTree.exists_leaf_of_one hone
    simp [BinTree.entries]

/-- A Huffman tree that weighs less than 2^32 has at most 45 levels below its root: F(48) is above 2^32. -/
theorem BinTree.depth_le_of_w {t : BinTree} (hpos : ∀ e ∈ t.leaves, 1 ≤ e.2) (hgood : t.good) (hw : t.w ≤ 2 ^ 32 - 1) :
    t.depth ≤ 45 := by
  by_contra hdeep
  have hfib := (t.fib_le hpos hgood).1
  have hmono := Nat.fib_mono (show 48 ≤ t.depth + 2 by omega)
  have h48 : Nat.fib 48 = 4807526976 := by norm_num
  omega

/-- Settles O47: the tree's depth is at most 45, far below the limit of the check. -/
theorem noCodewordIsLongerThan45Bits : Obligations.NoCodewordIsLongerThan45Bits := by
  intro table hne hpos htotal
  obtain ⟨t, hstands, hgood, hleaves⟩ := good_tree hne
  have hw : t.w ≤ 2 ^ 32 - 1 := by rwa [t.w_eq, (hleaves.map Prod.snd).sum_eq]
  have hdepth := BinTree.depth_le_of_w (fun e he => hpos e (hleaves.mem_iff.1 he)) hgood hw
  have hlen : ∀ e ∈ t.entries, e.cw.length ≤ 45 := fun e he => by
    have hle := BinTree.entries_cw_length_le he
    omega
  refine ⟨t.entries, ?_, hlen⟩
  have hcheck : ¬t.entries.any (fun e => decide (Config.maxCwLen < e.cw.length)) = true := by
    rw [List.any_eq_true]
    rintro ⟨e, he, hlong⟩
    have hle := hlen e he
    have hmax : Config.maxCwLen = 255 := rfl
    have hlt := of_decide_eq_true hlong
    omega
  rw [codewordTable_of_ne_nil hne, deriveCodewords, hstands.treeCodewords, if_neg hcheck]

end Sys2Proof.Machine
end

section
/-! The packer: its datapath, and the container of a single repeated symbol (42_codeword_table.md R181; 43_bit_packer.md
R200, R205). -/

namespace Sys2Proof.Machine

/-! ## The datapath -/

/-- What has left the accumulator and what is still in it pack to the bits taken in, whatever follows them; the count is
that of the bits that have left, in 32 bits (10_state.md R46). -/
structure PackState.Holds (p : PackState) (bits : BitString) : Prop where
  packs : ∀ rest, p.out ++ packBits (p.pacc ++ rest) = packBits (bits ++ rest)
  count : p.count = BitVec.ofNat 32 (8 * p.out.length)

/-- The first eight bits leave the accumulator as one byte. -/
theorem PackState.Holds.emit {p : PackState} {bits : BitString} (h : p.Holds bits) (hlen : 8 ≤ p.pacc.length) :
    PackState.Holds { out := p.out ++ [packByte (p.pacc.take 8)], pacc := p.pacc.drop 8, count := p.count + 8 } bits where
  packs rest := by
    have hbyte := packBits_append8 (p.pacc.take 8) (p.pacc.drop 8 ++ rest) (List.length_take_of_le hlen)
    rw [← List.append_assoc, List.take_append_drop] at hbyte
    rw [← h.packs, hbyte, List.append_assoc, List.singleton_append]
  count := by
    rw [h.count, List.length_append, List.length_singleton, Nat.mul_add, BitVec.ofNat_add]
    rfl

theorem emitBytes_holds : ∀ {n : Nat} {p : PackState} {bits : BitString}, p.Holds bits → (emitBytes n p).Holds bits
  | 0, _, _, h => h
  | n + 1, p, bits, h => by
    rw [emitBytes]
    split
    · exact emitBytes_holds (h.emit ‹_›)
    · exact h

/-- With a byte's worth of passes for every eight bits, fewer than eight bits stay. -/
theorem emitBytes_pacc_length : ∀ {n : Nat} {p : PackState}, p.pacc.length / 8 ≤ n →
    (emitBytes n p).pacc.length ≤ 7
  | 0, p, h => by rw [emitBytes]; omega
  | n + 1, p, h => by
    rw [emitBytes]
    split
    · exact emitBytes_pacc_length (by rw [List.length_drop]; omega)
    · omega

/-- One symbol through the packer. -/
theorem packSymbol_holds {p : PackState} {bits : BitString} (cw : List Entry) (s : Nat) (h : p.Holds bits) :
    (packSymbol cw p s).Holds (bits ++ codewordOf cw s) :=
  emitBytes_holds
    { packs := fun rest => by rw [List.append_assoc, List.append_assoc]; exact h.packs _
      count := h.count }

theorem foldl_packSymbol_holds (cw : List Entry) : ∀ {syms : List Nat} {p : PackState} {bits : BitString},
    p.Holds bits → p.pacc.length ≤ 7 →
    (syms.foldl (packSymbol cw) p).Holds (bits ++ codeBits syms cw) ∧ (syms.foldl (packSymbol cw) p).pacc.length ≤ 7
  | [], p, bits, h, hlen => ⟨by rw [codeBits, List.flatMap_nil, List.append_nil]; exact h, hlen⟩
  | s :: syms, p, bits, h, _ => by
    have hbits : bits ++ codeBits (s :: syms) cw = bits ++ codewordOf cw s ++ codeBits syms cw := by
      rw [codeBits, List.flatMap_cons, List.append_assoc, ← codeBits]
    rw [hbits]
    exact foldl_packSymbol_holds cw (packSymbol_holds cw s h) (emitBytes_pacc_length le_rfl)

theorem packStream_holds (syms : List Nat) (cw : List Entry) :
    (packStream syms cw).Holds (codeBits syms cw) ∧ (packStream syms cw).pacc.length ≤ 7 :=
  foldl_packSymbol_holds (bits := []) cw { packs := fun _ => rfl, count := rfl } (Nat.zero_le 7)

/-- The last bits leave as one byte, if there are any. -/
theorem flushPacker_eq {p : PackState} (h : p.pacc.length ≤ 7) : flushPacker p = p.out ++ packBits p.pacc := by
  rw [flushPacker]
  cases hp : p.pacc with
  | nil => exact (List.append_nil _).symm
  | cons b bits =>
    rw [hp] at h
    rw [packBits_short _ (List.cons_ne_nil _ _) (by omega)]

theorem codewordOf_length_le {cw : List Entry} (h : ∀ e ∈ cw, e.cw.length ≤ 255) (s : Nat) :
    (codewordOf cw s).length ≤ 255 := by
  unfold codewordOf
  split
  · exact h _ (List.mem_of_find?_eq_some ‹_›)
  · exact Nat.zero_le _

/-- Settles O50: bytes out and bits left pack to the bits taken in at every moment, so also at the end. -/
theorem thePackersDatapathPacksTheBits : Obligations.ThePackersDatapathPacksTheBits := by
  intro syms cw hcw
  obtain ⟨hholds, hlen⟩ := packStream_holds syms cw
  refine ⟨?_, hlen, fun hcount => ?_, fun s => ?_⟩
  · simpa using (flushPacker_eq hlen).trans (by simpa using hholds.packs [])
  · rw [hholds.count, BitVec.toNat_ofNat, Nat.mod_eq_of_lt hcount]
  · have hword := codewordOf_length_le hcw s
    rw [List.length_append]
    omega

/-! ## A single repeated symbol -/

theorem freqTable_replicate {k : Nat} (hk : 1 ≤ k) (s : Nat) : freqTable (List.replicate k s) = [(s, k)] := by
  have hcount : ∀ n j, (List.replicate n s).foldl (fun table s => bump s table) [(s, j)] = [(s, j + n)] := by
    intro n
    induction n with
    | zero => exact fun j => rfl
    | succ n ih =>
      intro j
      have hbump : bump s [(s, j)] = [(s, j + 1)] := by simp [bump]
      rw [List.replicate_succ, List.foldl_cons, hbump, ih, Nat.add_assoc, Nat.add_comm 1]
  obtain ⟨n, rfl⟩ := Nat.exists_eq_add_of_le hk
  rw [Nat.add_comm, List.replicate_succ, freqTable, List.foldl_cons]
  exact (hcount n 1).trans (by rw [Nat.add_comm])

/-- The codeword of an only symbol is one zero bit (42_codeword_table.md R181). -/
def oneBitTable (s : Nat) : List Entry := [{ sym := s, cw := [false] }]

theorem codewordTable_single (s k : Nat) : codewordTable [(s, k)] = .ok (oneBitTable s) := rfl

theorem codewordOf_oneBitTable (s : Nat) : codewordOf (oneBitTable s) s = [false] := by
  simp [codewordOf, oneBitTable]

theorem codeBits_replicate (k s : Nat) :
    codeBits (List.replicate k s) (oneBitTable s) = List.replicate k false := by
  induction k with
  | zero => rfl
  | succ k ih =>
    rw [codeBits] at ih ⊢
    rw [List.replicate_succ, List.flatMap_cons, ih, codewordOf_oneBitTable, List.replicate_succ]
    rfl

theorem packBits_replicate_false (k : Nat) : packBits (List.replicate k false) = List.replicate (ceil8 k) 0 := by
  rw [packBits, List.length_replicate]
  exact packBytes_zero _ _ fun b hb => List.eq_of_mem_replicate hb

/-- The one entry of the table (30_encoding.md R114). -/
theorem serializeTable_oneBitTable (d : DataType) (s : Nat) : serializeTable d (oneBitTable s) =
    BitVec.ofNat 8 (symBytes d s).length :: (symBytes d s ++ [1, 0]) := by
  have hpack : packBits [false] = [0] := rfl
  simp [serializeTable, sortBySym, oneBitTable, insertBySym, entryBytes, hpack]

/-- The container of one symbol `k` times over. -/
theorem compressBytes_replicate {m cap k s : Nat} {d : DataType} {x : List Byte}
    (hsyms : symbolize d x = .ok (List.replicate k s)) (hm : 1 ≤ m) (hk : 1 ≤ k) (hmax : k ≤ 2 ^ 32 - 1)
    (hcap : 12 + (symBytes d s).length + ceil8 k ≤ cap) : compressBytes m d x cap =
      .ok
        { out := tagByte d :: (be32 (3 + (symBytes d s).length) ++
            BitVec.ofNat 8 (symBytes d s).length :: (symBytes d s ++ [1, 0] ++ be32 k ++ List.replicate (ceil8 k) 0)),
          symCount := k, distinct := 1, tableLen := 3 + (symBytes d s).length, payloadBits := k } := by
  have hfreq := freqTable_replicate hk s
  have hcw : codewordTable (freqTable (List.replicate k s)) = .ok (oneBitTable s) :=
    hfreq ▸ codewordTable_single s k
  have hbits : bitCount (freqTable (List.replicate k s)) (oneBitTable s) = k := by
    rw [bitCount_freqTable, codeBits_replicate, List.length_replicate]
  have htable : (serializeTable d (oneBitTable s)).length = 3 + (symBytes d s).length := by
    rw [serializeTable_oneBitTable, List.length_cons, List.length_append, List.length_cons, List.length_singleton]
    omega
  rw [compressBytes_counted hsyms (by rw [hfreq]; exact hm), compressCounted_table hcw, hbits, htable,
    if_neg (by omega), if_neg (by omega), serializeContainer_eq_cons, htable, codeBits_replicate,
    packBits_replicate_false, serializeTable_oneBitTable, hfreq, List.length_replicate]
  simp

/-- Settles O48: one symbol is one leaf, whose codeword is one zero bit. -/
theorem aSingleSymbolGetsOneZeroBit : Obligations.ASingleSymbolGetsOneZeroBit := by
  constructor
  · intro m cap k b hm hk hmax hcap
    have hsyms : symbolize .binary (List.replicate k b) = .ok (List.replicate k b.toNat) := by
      simp [symbolize]
    have hbyte : BitVec.ofNat 8 b.toNat = b := ofNat_eq_of_toNat rfl
    rw [compressBytes_replicate hsyms hm hk hmax (by simpa [symBytes, ceil8] using hcap)]
    simp [symBytes, hbyte, be32, tagByte, ceil8]
  · intro m cap k cp hm hk hmax hscalar hcap
    have hsyms : symbolize .text (utf8EncSeq (List.replicate k cp)) = .ok (List.replicate k cp) := by
      simp only [symbolize, utf8Dec_utf8EncSeq fun c hc => List.eq_of_mem_replicate hc ▸ hscalar]
    have hlen := (utf8Enc_length cp).2
    have hsmall (i : Nat) (hi : 8 ≤ i) : (3 + (utf8Enc cp).length) / 2 ^ i = 0 :=
      Nat.div_eq_of_lt (lt_of_lt_of_le (by omega) (Nat.pow_le_pow_right (by decide) hi))
    rw [compressBytes_replicate hsyms hm hk hmax hcap]
    simp only [symBytes, be32, hsmall 24 (by decide), hsmall 16 (by decide), hsmall 8 (by decide)]
    simp [tagByte, ceil8]

end Sys2Proof.Machine
end

section
/-! The unpacker and the tables it reads (44_bit_unpacker.md R220..R224, 45_container.md R261). -/

namespace Sys2Proof.Machine

/-! ## Valid tables -/

/-- Settles O53: the relation between two entries is symmetric, so it may be asked of either order. -/
theorem tableValidMeansUniqueAndPrefixFree : Obligations.TableValidMeansUniqueAndPrefixFree := by
  intro entries
  rw [tableValid_iff, List.pairwise_iff_getElem]
  constructor
  · intro h i j e f hij he hf
    obtain ⟨hi, rfl⟩ := List.getElem?_eq_some_iff.1 he
    obtain ⟨hj, rfl⟩ := List.getElem?_eq_some_iff.1 hf
    obtain hlt | hlt := Nat.lt_or_gt_of_ne hij
    · obtain ⟨hsym, hprefix, _⟩ := h i j hi hj hlt
      exact ⟨hsym, hprefix⟩
    · obtain ⟨hsym, _, hprefix⟩ := h j i hj hi hlt
      exact ⟨hsym.symm, hprefix⟩
  · intro h i j hi hj hlt
    obtain ⟨hsym, hprefix⟩ := h i j _ _ hlt.ne (List.getElem?_eq_getElem hi) (List.getElem?_eq_getElem hj)
    obtain ⟨_, hprefix'⟩ := h j i _ _ hlt.ne' (List.getElem?_eq_getElem hj) (List.getElem?_eq_getElem hi)
    exact ⟨hsym, hprefix, hprefix'⟩

/-! ## The greedy walk -/

theorem unpack_of_some {payload : List Byte} {b : Nat} {inv : List (BitString × Nat)} {syms : List Nat}
    (h : matchBits inv ((unpackBits payload).take b) [] = some syms) : unpack payload b inv = .ok syms := by
  simp only [unpack, h]

theorem unpack_of_none {payload : List Byte} {b : Nat} {inv : List (BitString × Nat)}
    (h : matchBits inv ((unpackBits payload).take b) [] = none) : unpack payload b inv = .error .corruptPayload := by
  simp only [unpack, h]

/-- Settles O52: the walk recovers any sequence of codewords, and returns only such sequences. -/
theorem greedyMatchingIsExact : Obligations.GreedyMatchingIsExact := by
  have hrecover {cw : List Entry} {syms : List Nat} (hvalid : tableValid cw = true) (hne : ∀ e ∈ cw, e.cw ≠ [])
      (hsyms : ∀ s ∈ syms, ∃ e ∈ cw, e.sym = s) : matchBits (inverseTable cw) (codeBits syms cw) [] = some syms :=
    matchBits_codeBits (.refl cw) hvalid hne fun s hs => List.mem_map.2 (hsyms s hs)
  refine ⟨fun cw syms hvalid hne hsyms => unpack_packBits (hrecover hvalid hne hsyms), fun cw payload b hvalid hne => ?_⟩
  cases h : matchBits (inverseTable cw) ((unpackBits payload).take b) [] with
  | none =>
    refine .inl ⟨unpack_of_none h, ?_⟩
    rintro ⟨syms, hsyms, hbits⟩
    rw [← hbits, hrecover hvalid hne hsyms] at h
    cases h
  | some syms =>
    obtain ⟨hsyms, hbits⟩ := matchBits_sound hvalid _ _ _ h
    exact .inr ⟨syms, unpack_of_some h, hsyms, hbits⟩

/-! ## Stopping early -/

theorem symbolOf_eq_some {inv : List (BitString × Nat)} {u : BitString} {s : Nat} (h : symbolOf inv u = some s) :
    ∃ e ∈ inv, e.1 = u := by
  obtain ⟨e, he, _⟩ := Option.map_eq_some_iff.1 h
  exact ⟨e, List.mem_of_find?_eq_some he, by simpa using List.find?_some he⟩

/-- Bits that begin no codeword never match again, whatever follows them (44_bit_unpacker.md R223). -/
theorem matchBits_stuck {inv : List (BitString × Nat)} : ∀ {bits u : BitString}, u ≠ [] → (∀ e ∈ inv, ¬u <+: e.1) →
    matchBits inv bits u = none
  | [], u, hu, _ => by rw [matchBits, if_neg hu]
  | b :: bits, u, _, h => by
    have hlonger : ∀ e ∈ inv, ¬u ++ [b] <+: e.1 := fun e he hp => h e he ((List.prefix_append u [b]).trans hp)
    rw [matchBits]
    cases hs : symbolOf inv (u ++ [b]) with
    | none => exact matchBits_stuck (by simp) hlonger
    | some s =>
      obtain ⟨e, he, heq⟩ := symbolOf_eq_some hs
      exact absurd (heq ▸ List.prefix_refl _) (hlonger e he)

theorem matchBitsEarly_eq (inv : List (BitString × Nat)) : ∀ bits u : BitString,
    matchBitsEarly inv bits u = matchBits inv bits u
  | [], _ => rfl
  | b :: bits, u => by
    rw [matchBitsEarly, matchBits, matchBitsEarly_eq inv bits []]
    cases symbolOf inv (u ++ [b]) with
    | some s => rfl
    | none =>
      by_cases h : inv.any (fun e => (u ++ [b]).isPrefixOf e.1) = true
      · simp only [if_pos h, matchBitsEarly_eq inv bits (u ++ [b])]
      · have hstuck : ∀ e ∈ inv, ¬u ++ [b] <+: e.1 := fun e he hp =>
          h (List.any_eq_true.2 ⟨e, he, List.isPrefixOf_iff_prefix.2 hp⟩)
        simp only [if_neg h, matchBits_stuck (by simp) hstuck]

/-! ## The datapath -/

theorem unpackBits_length (payload : List Byte) : (unpackBits payload).length = 8 * payload.length := by
  induction payload with
  | nil => rfl
  | cons b payload ih =>
    rw [unpackBits] at ih ⊢
    rw [List.flatMap_cons, List.length_append, ih, List.length_cons, show (bits8 b).length = 8 from rfl]
    omega

/-- The bytes in ascending order, each most significant bit first, are the unpacked bits. -/
theorem unpackStream_eq (payload : List Byte) (b : Nat) (inv : List (BitString × Nat)) : unpackStream payload b inv =
    (unpackBits payload).foldl (takeBitUpTo inv b) { out := [], uacc := [], count := 0 } := by
  rw [unpackBits, List.foldl_flatMap]
  rfl

theorem unpackDatapath_eq {payload : List Byte} {b : Nat} {inv : List (BitString × Nat)} (hb : b ≤ 2 ^ 32 - 1) :
    unpackDatapath payload b inv = unpack payload b inv ∧
      (unpackStream payload b inv).count.toNat = min b (8 * payload.length) := by
  obtain ⟨hsymbols, hcount⟩ := takeBits_spec inv b (by omega) (unpackBits payload)
    { out := [], uacc := [], count := 0 } (Nat.zero_le b)
  rw [← unpackStream_eq] at hsymbols hcount
  have hmatch : (unpackStream payload b inv).symbols = matchBits inv ((unpackBits payload).take b) [] := by
    simpa using hsymbols.symm
  refine ⟨?_, ?_⟩
  · rw [unpackDatapath, hmatch]
    cases h : matchBits inv ((unpackBits payload).take b) [] with
    | none => exact (unpack_of_none h).symm
    | some out => exact (unpack_of_some h).symm
  · rw [hcount, unpackBits_length]
    simp

/-- Settles O51: the three other forms of the walk agree with it bit by bit. -/
theorem stoppingEarlyChangesNoResult : Obligations.StoppingEarlyChangesNoResult :=
  ⟨fun inv bits => matchBitsEarly_eq inv bits [], fun _ _ _ => unpackDatapath_eq,
    fun _ bits hvalid _ => matchTree_eq hvalid bits []⟩

end Sys2Proof.Machine
end

section
/-! The parser: which tables parse, and the cursor's path through a container (10_state.md R48; 45_container.md R250, R255,
R256). -/

namespace Sys2Proof.Machine

/-! ## One entry -/

/-- The fields of an entry: sym_len and sym, cw_len and cw, and what they stand for (30_encoding.md R114). -/
structure EntryFields (d : DataType) (sl : Byte) (sb : List Byte) (cl : Byte) (cb : List Byte) (e : Entry) : Prop where
  sb_length : sb.length = sl.toNat
  symLen : symLenOk d sl.toNat = true
  sym : readSym d sb = some e.sym
  cl_ne_zero : cl.toNat ≠ 0
  cb_length : cb.length = ceil8 cl.toNat
  cw : e.cw = (unpackBits cb).take cl.toNat

/-- An entry parses exactly when its fields stand in front of the bytes that are left. -/
theorem parseEntry_iff {d : DataType} {sl : Byte} {t rest : List Byte} {e : Entry} :
    parseEntry d (sl :: t) = some (e, rest) ↔
      ∃ sb cl cb, EntryFields d sl sb cl cb e ∧ t = sb ++ cl :: (cb ++ rest) := by
  constructor
  · intro h
    rw [parseEntry] at h
    split at h; · cases h
    rename_i hok
    split at h; · cases h
    rename_i hlen
    split at h; · cases h
    rename_i sym hsym
    split at h; · cases h
    rename_i cl u hdrop
    split at h; · cases h
    rename_i hzero
    split at h; · cases h
    rename_i hcw
    cases h
    refine ⟨t.take sl.toNat, cl, u.take (ceil8 cl.toNat), ⟨?_, by simpa using hok, hsym, hzero, ?_, rfl⟩, ?_⟩
    · exact List.length_take_of_le (by omega)
    · exact List.length_take_of_le (by omega)
    · rw [List.take_append_drop, ← hdrop, List.take_append_drop]
  · rintro ⟨sb, cl, cb, h, rfl⟩
    obtain ⟨hsb, hok, hsym, hzero, hcb, hcw⟩ := h
    have htake : (sb ++ cl :: (cb ++ rest)).take sl.toNat = sb := List.take_left' hsb
    have hdrop : (sb ++ cl :: (cb ++ rest)).drop sl.toNat = cl :: (cb ++ rest) := List.drop_left' hsb
    simp only [parseEntry, hok, htake, hdrop, hsym, List.take_left' hcb, List.drop_left' hcb, ← hcw]
    rw [if_neg (by simp), if_neg (by simp [hsb]), if_neg hzero, if_neg (by simp [hcb])]

theorem parseEntry_length {d : DataType} {bs rest : List Byte} {e : Entry} (h : parseEntry d bs = some (e, rest)) :
    rest.length < bs.length := by
  cases bs with
  | nil => cases h
  | cons sl t =>
    obtain ⟨sb, cl, cb, _, rfl⟩ := parseEntry_iff.1 h
    simp only [List.length_cons, List.length_append]
    omega

/-! ## The table -/

/-- Any number of passes from the number of bytes on gives the same. -/
theorem parseEntries_fuel (d : DataType) : ∀ (n m : Nat) (bs : List Byte), bs.length ≤ n → bs.length ≤ m →
    parseEntries d n bs = parseEntries d m bs := by
  intro n
  induction n with
  | zero =>
    intro m bs hn _
    rw [List.length_eq_zero_iff.1 (Nat.le_zero.1 hn), parseEntries, parseEntries]
  | succ n ih =>
    intro m bs hn hm
    match bs, m with
    | [], m => rw [parseEntries, parseEntries]
    | b :: t, m + 1 =>
      rw [parseEntries, parseEntries]
      cases h : parseEntry d (b :: t) with
      | none => rfl
      | some r =>
        have hrest := parseEntry_length h
        simp only
        rw [ih m r.2 (by omega) (by omega)]

theorem parseEntries_eq_parseTable (d : DataType) {n : Nat} {bs : List Byte} (h : bs.length ≤ n) :
    parseEntries d n bs = parseTable d bs :=
  parseEntries_fuel d _ _ _ h le_rfl

theorem parseTable_nil (d : DataType) : parseTable d [] = some [] := by
  rw [parseTable, parseEntries]

/-- A table whose first entry parses does as the bytes behind that entry. -/
theorem parseTable_cons_of_some {d : DataType} {b : Byte} {t rest : List Byte} {e : Entry}
    (h : parseEntry d (b :: t) = some (e, rest)) : parseTable d (b :: t) = (parseTable d rest).map (e :: ·) := by
  have hrest := parseEntry_length h
  rw [List.length_cons] at hrest
  rw [parseTable, List.length_cons, parseEntries, h]
  simp only
  rw [parseEntries_eq_parseTable d (by omega)]

theorem parseTable_of_fields {d : DataType} {sl cl : Byte} {sb cb rest : List Byte} {e : Entry}
    (h : EntryFields d sl sb cl cb e) :
    parseTable d (sl :: (sb ++ cl :: (cb ++ rest))) = (parseTable d rest).map (e :: ·) :=
  parseTable_cons_of_some (parseEntry_iff.2 ⟨sb, cl, cb, h, rfl⟩)

/-- A table does not parse if no fields of an entry stand at its beginning. -/
theorem parseTable_eq_none {d : DataType} {sl : Byte} {t : List Byte}
    (h : ∀ sb cl cb e rest, EntryFields d sl sb cl cb e → t ≠ sb ++ cl :: (cb ++ rest)) :
    parseTable d (sl :: t) = none := by
  have hentry : parseEntry d (sl :: t) = none := by
    cases hp : parseEntry d (sl :: t) with
    | none => rfl
    | some r =>
      obtain ⟨sb, cl, cb, hfields, ht⟩ := parseEntry_iff.1 hp
      exact absurd ht (h sb cl cb r.1 r.2 hfields)
  rw [parseTable, List.length_cons, parseEntries, hentry]

theorem parseTable_bad_symLen {d : DataType} {sl : Byte} {t : List Byte} (h : symLenOk d sl.toNat = false) :
    parseTable d (sl :: t) = none :=
  parseTable_eq_none fun _ _ _ _ _ hfields _ => by cases h.symm.trans hfields.symLen

theorem parseTable_no_cw_len {d : DataType} {sl : Byte} {t : List Byte} (h : t.length ≤ sl.toNat) :
    parseTable d (sl :: t) = none := by
  refine parseTable_eq_none fun sb cl cb e rest hfields ht => ?_
  have hlen := congrArg List.length ht
  rw [List.length_append, List.length_cons, hfields.sb_length] at hlen
  omega

/-- With the symbol field known, the fields of an entry leave no choice. -/
theorem EntryFields.unique_sym {d : DataType} {sl cl : Byte} {sb sb' cb rest v : List Byte} {e : Entry}
    (h : EntryFields d sl sb' cl cb e) (hlen : sb.length = sl.toNat) (ht : sb ++ v = sb' ++ cl :: (cb ++ rest)) :
    sb = sb' ∧ v = cl :: (cb ++ rest) :=
  List.append_inj ht (hlen.trans h.sb_length.symm)

theorem parseTable_bad_sym {d : DataType} {sl : Byte} {sb t : List Byte} (hlen : sb.length = sl.toNat)
    (h : readSym d sb = none) : parseTable d (sl :: (sb ++ t)) = none := by
  refine parseTable_eq_none fun sb' cl cb e rest hfields ht => ?_
  obtain ⟨rfl, _⟩ := hfields.unique_sym hlen ht
  cases h.symm.trans hfields.sym

theorem parseTable_bad_cw {d : DataType} {sl cl : Byte} {sb u : List Byte} (hlen : sb.length = sl.toNat)
    (h : cl.toNat = 0 ∨ u.length < ceil8 cl.toNat) : parseTable d (sl :: (sb ++ cl :: u)) = none := by
  refine parseTable_eq_none fun sb' cl' cb e rest hfields ht => ?_
  obtain ⟨rfl, hv⟩ := hfields.unique_sym hlen ht
  obtain ⟨rfl, rfl⟩ := List.cons.inj hv
  obtain hzero | hshort := h
  · exact hfields.cl_ne_zero hzero
  · rw [List.length_append, hfields.cb_length] at hshort
    omega

theorem readSym_text_eq_none {sb : List Byte} (h : ∀ cp, utf8Dec sb ≠ some [cp]) : readSym .text sb = none := by
  rw [readSym]
  split
  · exact absurd ‹_› (h _)
  · rfl

theorem readSym_text {sb : List Byte} {cp : Nat} (h : utf8Dec sb = some [cp]) : readSym .text sb = some cp := by
  rw [readSym, h]

/-- The bytes of one code point are 1 to 4 (30_encoding.md R120). -/
theorem length_of_utf8Dec_single {sb : List Byte} {cp : Nat} (h : utf8Dec sb = some [cp]) :
    1 ≤ sb.length ∧ sb.length ≤ 4 := by
  obtain ⟨_, henc⟩ := utf8Dec_sound h
  rw [utf8EncSeq, List.flatMap_cons, List.flatMap_nil, List.append_nil] at henc
  exact henc ▸ utf8Enc_length cp

/-! ## The cursor -/

/-- The parser with the cursor reports the same error, or the same fields with the cursor at the end of the source. -/
def CursorAgrees (len : Nat) (x : Except ErrCode Parsed) (y : Except ErrCode (Parsed × Word)) : Prop :=
  (∀ e, x = .error e → y = .error e) ∧ (∀ p, x = .ok p → ∃ pcur : Word, y = .ok (p, pcur) ∧ pcur.toNat = len)

theorem CursorAgrees.error (len : Nat) (e : ErrCode) : CursorAgrees len (.error e) (.error e) :=
  ⟨fun _ h => by cases h; rfl, nofun⟩

theorem CursorAgrees.ok {len : Nat} {p : Parsed} {pcur : Word} (h : pcur.toNat = len) :
    CursorAgrees len (.ok p) (.ok (p, pcur)) :=
  ⟨nofun, fun _ hp => by cases hp; exact ⟨pcur, rfl, h⟩⟩

theorem slice_to_end (c : List Byte) (lo : Nat) : slice c lo c.length = c.drop lo := by
  rw [slice, List.take_of_length_le (by rw [List.length_drop])]

/-- Behind the tag the cursor goes from field to field, and a field that does not fit is a length that does not. -/
theorem cursorFields_agrees (m : Nat) (tag : DataType) {c : List Byte} (hc : c.length < 2 ^ 32) {p : Word}
    (hp : p.toNat = 1) : CursorAgrees c.length (parseFields m tag c) (cursorFields m tag c p) := by
  have hmisfit (h : ∀ entries, ¬FieldsFit tag c entries) :
      CursorAgrees c.length (parseFields m tag c) (.error .malformedContainer) := by
    rw [parseFields_misfit h]
    exact .error _ _
  unfold cursorFields
  obtain ⟨hshort, hfield⟩ | ⟨hfits, p1, hfield, hp1⟩ := takeField_cases (c := c) hc 4 p
  · rw [hfield]
    exact hmisfit fun entries ⟨_, hlen⟩ => by omega
  rw [hp] at hfits hfield hp1
  have hT : be32Inv (slice c 1 5) = tableLenOf c := rfl
  simp only [hfield, hT, hp1, Nat.reduceAdd]
  split
  · exact hmisfit fun entries ⟨_, hlen⟩ => by omega
  have hslice := slice_length c (lo := 5) (hi := 5 + tableLenOf c) (by omega)
  rw [Nat.add_sub_cancel_left] at hslice
  have hfuel : parseEntries tag (tableLenOf c) (slice c p1.toNat (5 + tableLenOf c)) =
      parseTable tag (slice c 5 (5 + tableLenOf c)) := by
    rw [hp1]; exact parseEntries_eq_parseTable tag hslice.le
  obtain ⟨hcursor, htable⟩ | ⟨entries, p2, hcursor, hp2, htable⟩ := cursorEntries_cases (c := c) (tag := tag)
    (stop := 5 + tableLenOf c) (by omega) (by omega) (tableLenOf c) p1 (by omega)
  all_goals rw [hfuel] at htable
  · rw [hcursor]
    exact hmisfit fun entries ⟨h, _⟩ => by cases htable.symm.trans h
  simp only [hcursor]
  obtain ⟨hshort, hfield⟩ | ⟨hfits, p3, hfield, hp3⟩ := takeField_cases (c := c) hc 4 p2
  · rw [hfield]
    exact hmisfit fun entries ⟨_, hlen⟩ => by omega
  have hB : be32Inv (slice c p2.toNat (p2.toNat + 4)) = bitLenOf c (tableLenOf c) := by
    rw [hp2, bitLenOf, show 5 + tableLenOf c + 4 = 9 + tableLenOf c by omega]
  simp only [hfield, hB]
  obtain ⟨hshort, hfield⟩ | ⟨hfits, p4, hfield, hp4⟩ :=
    takeField_cases (c := c) hc (ceil8 (bitLenOf c (tableLenOf c))) p3
  · rw [hfield]
    exact hmisfit fun entries ⟨_, hlen⟩ => by omega
  simp only [hfield]
  split
  · exact hmisfit fun entries ⟨_, hlen⟩ => by omega
  have hend : p4.toNat = c.length := by omega
  have hpayload : slice c p3.toNat (p3.toNat + ceil8 (bitLenOf c (tableLenOf c))) = c.drop (9 + tableLenOf c) := by
    rw [← hp4, hend, slice_to_end, hp3, hp2, show 5 + tableLenOf c + 4 = 9 + tableLenOf c by omega]
  rw [hpayload, parseFields_fit ⟨htable, by omega⟩]
  split
  · exact .error _ _
  split
  · exact .error _ _
  · exact .ok hend

theorem cursorContainer_agrees (m : Nat) {c : List Byte} (hc : c.length < 2 ^ 32) :
    CursorAgrees c.length (parseContainer m c) (cursorContainer m c) := by
  cases c with
  | nil => exact .error _ _
  | cons t rest =>
    obtain ⟨hshort, _⟩ | ⟨_, p, hfield, hp⟩ := takeField_cases (c := t :: rest) hc 1 0
    · simp at hshort
    have htag : (slice (t :: rest) (0 : Word).toNat ((0 : Word).toNat + 1)).headD 0 = t := rfl
    rw [cursorContainer, hfield]
    simp only [htag]
    cases hd : tagOf t with
    | none => rw [parseContainer_untagged hd]; exact .error _ _
    | some tag => rw [parseContainer_tagged hd]; exact cursorFields_agrees m tag hc hp

/-- Settles O55: a table parses entry by entry, each from the bytes of its four fields. -/
theorem theParserReadsTheSerializedTable : Obligations.TheParserReadsTheSerializedTable := by
  refine ⟨fun d cw h => ⟨parseTable_serializeTable h, sortBySym_perm cw, sortBySym_sorted cw⟩, parseTable_nil,
    fun sl t => ⟨fun h => ?_, fun h => ?_⟩, fun d sl t => parseTable_no_cw_len, fun sl sb t hlen h => ?_,
    fun d sl cl sb u hlen => ⟨fun h => ?_, fun h => ?_⟩, fun cl cb u hpos hcb => ⟨fun b => ?_, fun sl sb cp hlen h => ?_⟩,
    fun m c hc => cursorContainer_agrees m (by omega)⟩
  · exact parseTable_bad_symLen (by simpa [symLenOk] using h)
  · exact parseTable_bad_symLen (by simpa [symLenOk] using h)
  · exact parseTable_bad_sym hlen (readSym_text_eq_none h)
  · exact parseTable_bad_cw hlen (.inl h)
  · exact parseTable_bad_cw hlen (.inr h)
  · exact parseTable_of_fields (sb := [b])
      { sb_length := rfl, symLen := rfl, sym := rfl, cl_ne_zero := by omega, cb_length := hcb, cw := rfl }
  · have hsl := length_of_utf8Dec_single h
    rw [hlen] at hsl
    exact parseTable_of_fields
      { sb_length := hlen, symLen := by simpa [symLenOk] using hsl, sym := readSym_text h, cl_ne_zero := by omega,
        cb_length := hcb, cw := rfl }

end Sys2Proof.Machine
end

section
/-! DECOMPRESS of a container that COMPRESS has made, whole or without its last byte (45_container.md R264, R266). -/

namespace Sys2Proof.Machine

/-- Settles O59: the container parses to a code for the symbols of the source, and the greedy walk gives these back. -/
theorem decompressingACompressedContainerGivesTheInput :
    Obligations.DecompressingACompressedContainerGivesTheInput :=
  fun _ _ _ _ _ _ hm h hcap => decompressBytes_compressBytes hm h hcap

/-- What COMPRESS makes parses (45_container.md R266). -/
theorem parseContainer_compressBytes {m cap : Nat} {d : DataType} {x : List Byte} {r : Success} (hm : m ≤ 2 ^ 20)
    (h : compressBytes m d x cap = .ok r) : ∃ p, parseContainer m r.out = .ok p := by
  obtain ⟨syms, cw, _, hcode, hentries, hdistinct, hbits, rfl⟩ := compressBytes_code h
  have htable := serializeTable_length_le hentries
  exact ⟨_, parseContainer_serializeContainer hentries hcode.valid hdistinct (by omega) hbits⟩

/-- Without its last byte a container still has the fields it had, and so no longer the length they ask for. -/
theorem parseContainer_dropLast {m : Nat} {c : List Byte} {p : Parsed} (h : parseContainer m c = .ok p) (m' : Nat) :
    parseContainer m' c.dropLast = .error .malformedContainer := by
  obtain ⟨t, rest, tag, entries, rfl, htag, _, hlen, _⟩ := parseContainer_ok h
  have hrest : rest ≠ [] := by rintro rfl; simp at hlen; omega
  have hsplit := List.dropLast_append_getLast (List.cons_ne_nil t rest)
  have hshort : (t :: rest).dropLast.length = (t :: rest).length - 1 := List.length_dropLast
  rw [List.dropLast_cons_of_ne_nil hrest] at hsplit hshort ⊢
  rw [parseContainer_tagged htag, parseFields_misfit]
  rintro entries' ⟨_, hfit⟩
  have htableLen := tableLenOf_append [(t :: rest).getLast (List.cons_ne_nil t rest)]
    (c := t :: rest.dropLast) (by omega)
  have hbitLen := bitLenOf_append [(t :: rest).getLast (List.cons_ne_nil t rest)]
    (c := t :: rest.dropLast) (n := tableLenOf (t :: rest.dropLast)) (by omega)
  rw [hsplit] at htableLen hbitLen
  rw [htableLen, hbitLen] at hlen
  omega

/-- Settles O57: the container COMPRESS has made parses, so without its last byte it does not. -/
theorem aTruncatedContainerIsMalformed : Obligations.ATruncatedContainerIsMalformed := by
  intro m m' cap cap' d x r hm h
  obtain ⟨p, hp⟩ := parseContainer_compressBytes hm h
  exact decompressBytes_unparsed (parseContainer_dropLast hp m')

end Sys2Proof.Machine
end
